-- ==== Sys2Proof/Word.lean ====
section
/-! DEFINITION. The word types of the SSD130x panel core: a command byte (30_encoding.md R80), a settings
register (10_state.md R21, decision D24), a 9-bit wire word (R84). Every quantity is unsigned (00_scope.md R9). -/

namespace Sys2Proof

/-- One command byte: "all unsigned 8-bit" (30_encoding.md R80). -/
abbrev Byte := BitVec 8

/-- One numeric settings register, 32 bits unsigned (10_state.md R21, decision D24). -/
abbrev Numeric := BitVec 32

/-- One SPI 3-wire word: tag in bit 8, byte in bits 7:0 (30_encoding.md R84). -/
abbrev Word9 := BitVec 9

end Sys2Proof
end

