-- ==== Sys2Proof/Config.lean ====
section
/-! DEFINITION. What attach fixes: the configuration record `cfg` (00_scope.md R5), the opcode table `cfg.OPC`
(R7, 30_encoding.md R90) and the settings register file (10_state.md R21). No value stands here. -/

namespace Sys2Proof

/-- The one configured transport: "exactly one of SPI or I2C", SPI in its two wire forms (00_scope.md R5). -/
inductive Transport where
  | spi3
  | spi4
  | i2c
  deriving DecidableEq, Repr

/-- The opcode table `cfg.OPC` (30_encoding.md R90), with the two charge-pump parameter bytes (decision D3). -/
structure Opcodes where
  muxRatio : Byte
  displayOffset : Byte
  startLine : Byte
  segRemapOff : Byte
  segRemapOn : Byte
  comScanNormal : Byte
  comScanInvert : Byte
  comPins : Byte
  contrast : Byte
  precharge : Byte
  vcomh : Byte
  entireOn : Byte
  normal : Byte
  inverse : Byte
  clock : Byte
  chargePump : Byte
  parCpEnable : Byte
  parCpDisable : Byte
  displayOn : Byte
  displayOff : Byte
  deriving DecidableEq, Repr

/-- The configuration record `cfg` (00_scope.md R5), "fixed at attach and never written afterwards". A transport that
is not exactly one, or a topology flag that names no supply, cannot be written in it: R6 (1) and (2) hold by type. -/
structure Cfg where
  transport : Transport
  hasReset : Bool
  useChargePump : Bool
  opc : Opcodes
  deriving DecidableEq, Repr

/-- The settings register file `x` (10_state.md R21): numeric registers of 32 bits, flags of one bit, `contrast` of
8 bits (R24). `width`, `widthMm` and `heightMm` are read by no rule (R22). -/
structure Settings where
  width : Numeric
  height : Numeric
  widthMm : Numeric
  heightMm : Numeric
  segRemap : Bool
  comScanInvert : Bool
  comSeqPinCfg : Bool
  comLrRemap : Bool
  inverseDisplay : Bool
  prechargePhase1 : Numeric
  prechargePhase2 : Numeric
  clockDivideRatio : Numeric
  oscillatorFrequency : Numeric
  vcomhDeselect : Numeric
  displayStartLine : Numeric
  comOffset : Numeric
  contrast : Byte
  deriving DecidableEq, Repr

end Sys2Proof
end

