-- ==== Sys2Proof/Syntax.lean ====
section
/-! DEFINITION. The instructions of the block in their three layers (30_encoding.md R80): six host operations, sixteen
controller commands, three wire words; one constructor for each row of spec/opcode_table.json. And `Request`, the
form in which an instruction is handed to the block before it is decoded. -/

namespace Sys2Proof

/-- One constructor per row of spec/opcode_table.json. -/
inductive Instr where
  /-- `prepare` (44_lifecycle.md R201). -/
  | prepare
  /-- `enable` (R202). -/
  | enable
  /-- `disable` (R203). -/
  | disable
  /-- `unprepare` (R204). -/
  | unprepare
  /-- `set_contrast(b)`, brightness 0 to 255 (R208). -/
  | setContrast (b : Byte)
  /-- `get_contrast` (R209). -/
  | getContrast
  /-- `SET_MUX_RATIO m` (42_regdecode.md R151). -/
  | setMuxRatio (m : Byte)
  /-- `SET_DISPLAY_OFFSET o` (R152). -/
  | setDisplayOffset (o : Byte)
  /-- `SET_START_LINE`, the low seven bits of the line (R153). -/
  | setStartLine (line : BitVec 7)
  /-- `SET_SEG_REMAP`, the remap flag (R154). -/
  | setSegRemap (remap : Bool)
  /-- `SET_COM_SCAN_DIR`, the scan-direction-invert flag (R155). -/
  | setComScanDir (invert : Bool)
  /-- `SET_COM_PINS`, the LR-remap flag and the sequential-pin flag (R156). -/
  | setComPins (lrRemap seqPin : Bool)
  /-- `SET_CONTRAST c`, the controller command (R157). -/
  | setContrastCmd (c : Byte)
  /-- `SET_PRECHARGE`, phase 2 (high nibble) and phase 1 (low nibble) (R158). -/
  | setPrecharge (phase2 phase1 : BitVec 4)
  /-- `SET_VCOMH v` (R159). -/
  | setVcomh (v : Byte)
  /-- `ENTIRE_DISPLAY_ON` (R160). -/
  | entireDisplayOn
  /-- `SET_NORMAL_INVERSE`, the inverse-display flag (R161). -/
  | setNormalInverse (inverse : Bool)
  /-- `SET_CLOCK`, oscillator frequency (high nibble) and ratio minus one (low nibble) (R162). -/
  | setClock (frequency divider : BitVec 4)
  /-- `CHARGE_PUMP_ENABLE` (R163). -/
  | chargePumpEnable
  /-- `DISPLAY_ON` (R164). -/
  | displayOn
  /-- `DISPLAY_OFF` (R165). -/
  | displayOff
  /-- `CHARGE_PUMP_DISABLE` (R166). -/
  | chargePumpDisable
  /-- `W9`: the SPI 3-wire word of one command byte (40_transport.md R111). -/
  | w9 (b : Byte)
  /-- `W8`: the SPI 4-wire word of one command byte (R112). -/
  | w8 (b : Byte)
  /-- `W16`: the I2C word of one command byte (R113). -/
  | w16 (b : Byte)
  deriving DecidableEq, Repr

/-- The three layers of 30_encoding.md R80. -/
inductive Layer where
  | hostOperation
  | command
  | wireWord
  deriving DecidableEq, Repr

/-- The layer of an instruction, as the opcode table's column "layer" gives it. -/
def Instr.layer : Instr → Layer
  | .prepare => .hostOperation
  | .enable => .hostOperation
  | .disable => .hostOperation
  | .unprepare => .hostOperation
  | .setContrast _ => .hostOperation
  | .getContrast => .hostOperation
  | .setMuxRatio _ => .command
  | .setDisplayOffset _ => .command
  | .setStartLine _ => .command
  | .setSegRemap _ => .command
  | .setComScanDir _ => .command
  | .setComPins _ _ => .command
  | .setContrastCmd _ => .command
  | .setPrecharge _ _ => .command
  | .setVcomh _ => .command
  | .entireDisplayOn => .command
  | .setNormalInverse _ => .command
  | .setClock _ _ => .command
  | .chargePumpEnable => .command
  | .displayOn => .command
  | .displayOff => .command
  | .chargePumpDisable => .command
  | .w9 _ => .wireWord
  | .w8 _ => .wireWord
  | .w16 _ => .wireWord

/-- A command as the transport encoder takes it: an opcode byte and zero, one or two parameter bytes, in the formats C0,
C1 and C2 (30_encoding.md R80, R82). "Three or more parameters cannot be expressed" (R83). -/
inductive Command where
  | c0 (opcode : Byte)
  | c1 (opcode param0 : Byte)
  | c2 (opcode param0 param1 : Byte)
  deriving DecidableEq, Repr

/-- The bytes of a command in the order in which they are sent: opcode, first parameter, second parameter (R82,
20_memory.md R63). -/
def Command.bytes : Command → List Byte
  | .c0 c => [c]
  | .c1 c p => [c, p]
  | .c2 c p q => [c, p, q]

/-- What the sequencer can be busy with: an instruction of the opcode table, or a raw command `CMD b0 [, b1 [, b2]]`
(30_encoding.md R96), whose bytes are no row of the table and which SEND takes all the same: "the encoder does not look
at the value of `c` or of any parameter" (40_transport.md R110). That a raw command can be asked for by itself is the
model's choice (DESIGN CHOICE, log entry 34). -/
inductive Operation where
  | instr (i : Instr)
  | raw (c : Command)
  deriving DecidableEq, Repr

/-- The layer of an operation. -/
def Operation.layer : Operation → Layer
  | .instr i => i.layer
  | .raw _ => .command

/-- An instruction as it is handed to the block, undecoded: the 11-bit request word of a host operation
(30_encoding.md R81), a command (R82), or one wire word in one of the three formats (R84 to R86). Only the first arrives
on the block's request channel; the other two are the entries of the transport encoder (DESIGN CHOICE, log entry 4). -/
inductive Request where
  | host (w : BitVec 11)
  | command (c : Command)
  | word9 (w : BitVec 9)
  | word8 (w : BitVec 8)
  | word16 (w : BitVec 16)
  deriving DecidableEq, Repr

end Sys2Proof
end

