-- ==== Sys2Proof/WellFormed.lean ====
section
/-! DEFINITION. Which instructions have words of their own under the opcode table. -/

namespace Sys2Proof

/-- An instruction that the opcode table's encoding tells apart from every other. The one check: a start line whose
bit 6 is set has the same byte as the line without it, since bit 6 "coincides with the set bit of the opcode"
(42_regdecode.md R153), so the table names only the lines 0 to 63 (`01llllll`). Every other operand fills its field. -/
def Instr.wellFormed : Instr → Bool
  | .setStartLine line => !line.getLsbD 6
  | .prepare => true
  | .enable => true
  | .disable => true
  | .unprepare => true
  | .setContrast _ => true
  | .getContrast => true
  | .setMuxRatio _ => true
  | .setDisplayOffset _ => true
  | .setSegRemap _ => true
  | .setComScanDir _ => true
  | .setComPins _ _ => true
  | .setContrastCmd _ => true
  | .setPrecharge _ _ => true
  | .setVcomh _ => true
  | .entireDisplayOn => true
  | .setNormalInverse _ => true
  | .setClock _ _ => true
  | .chargePumpEnable => true
  | .displayOn => true
  | .displayOff => true
  | .chargePumpDisable => true
  | .w9 _ => true
  | .w8 _ => true
  | .w16 _ => true

end Sys2Proof
end

