-- ==== Sys2Proof/Decode.lean ====
section
/-! DEFINITION. The three encodings of 30_encoding.md: from a request to an instruction (total, rejecting by name), and
after it the encoder, from an instruction to its words. The default opcode values of R90 stand here. -/

namespace Sys2Proof

/-- Why a request is no instruction. -/
inductive DecodeError where
  /-- Selector 6 or 7 of the request word (30_encoding.md R92, U8). -/
  | reservedSelector
  /-- A command that is no row of the opcode table: no instruction, but a raw command, which is sent all the same
  (R83, 40_transport.md R110; log entry 34). -/
  | noSuchCommand
  /-- A 9-bit word with tag 1, data (R94, U14). -/
  | dataTag
  /-- A 16-bit word whose control byte is not 0xC0 (R94, U14). -/
  | otherControlByte
  deriving DecidableEq, Repr

/-! ## Fields and bytes -/

/-- The default values of the opcode table (30_encoding.md R90), which the spec supplies from general knowledge
(decisions D2, D3; UNVERIFIED, unsafe, log entry 12). -/
def defaultOpcodes : Opcodes where
  muxRatio := 0xA8#8
  displayOffset := 0xD3#8
  startLine := 0x40#8
  segRemapOff := 0xA0#8
  segRemapOn := 0xA1#8
  comScanNormal := 0xC0#8
  comScanInvert := 0xC8#8
  comPins := 0xDA#8
  contrast := 0x81#8
  precharge := 0xD9#8
  vcomh := 0xDB#8
  entireOn := 0xA5#8
  normal := 0xA6#8
  inverse := 0xA7#8
  clock := 0xD5#8
  chargePump := 0x8D#8
  parCpEnable := 0x14#8
  parCpDisable := 0x10#8
  displayOn := 0xAF#8
  displayOff := 0xAE#8

/-- The I2C control byte: continuation and data bits set, bits 5:0 zero (30_encoding.md R86, 90_conflicts.md C3). -/
def controlByte : Byte := 0xC0#8

/-- The byte whose high nibble is `hi` and whose low nibble is `lo` (42_regdecode.md R158, R162). -/
def nibbles (hi lo : BitVec 4) : Byte := (hi.setWidth 8 <<< 4) ||| lo.setWidth 8

/-- The high nibble of a byte. -/
def highNibble (b : Byte) : BitVec 4 := (b >>> 4).setWidth 4

/-- The low nibble of a byte. -/
def lowNibble (b : Byte) : BitVec 4 := b.setWidth 4

/-- A flag shifted into bit `n` of a byte. -/
def flagAt (f : Bool) (n : Nat) : Byte := (BitVec.ofBool f).setWidth 8 <<< n

/-- The COM-pins parameter: bit 1 set, NOT sequential-pin flag in bit 4, LR-remap flag in bit 5 (42_regdecode.md R156). -/
def comPinsByte (lrRemap seqPin : Bool) : Byte := 0x02#8 ||| flagAt (!seqPin) 4 ||| flagAt lrRemap 5

/-- The start-line byte: the low seven bits of the line OR-ed into the opcode (42_regdecode.md R153, decision D5). -/
def startLineByte (opc : Opcodes) (line : BitVec 7) : Byte := opc.startLine ||| line.setWidth 8

/-- The 9-bit word of a command byte: tag 0 in bit 8 (30_encoding.md R84). -/
def tagWord (b : Byte) : Word9 := b.setWidth 9

/-- The 2-byte I2C word of a command byte as bytes: control byte, then payload (R86). -/
def controlPair (b : Byte) : List Byte := [controlByte, b]

/-- The 2-byte I2C word of a command byte as a number `{0xC0, b}` (R86). -/
def controlWord (b : Byte) : BitVec 16 := (controlByte.setWidth 16 <<< 8) ||| b.setWidth 16

/-- The request word `{sel[2:0], arg[7:0]}` (30_encoding.md R81). -/
def requestWord (sel : BitVec 3) (arg : Byte) : BitVec 11 := (sel.setWidth 11 <<< 8) ||| arg.setWidth 11

/-! ## Decoding -/

/-- A host operation from its request word; `arg` is read only by `set_contrast` (30_encoding.md R81, R92). -/
def decodeHost (w : BitVec 11) : Except DecodeError Instr :=
  let arg : Byte := w.setWidth 8
  match (w >>> 8).toNat with
  | 0 => .ok .prepare
  | 1 => .ok .enable
  | 2 => .ok .disable
  | 3 => .ok .unprepare
  | 4 => .ok (.setContrast arg)
  | 5 => .ok .getContrast
  | _ => .error .reservedSelector

/-- A start-line byte: the line is the byte less the opcode's own bits, if the two make the byte again (R153). -/
def decodeStartLine (opc : Opcodes) (c : Byte) : Except DecodeError Instr :=
  let line : BitVec 7 := (c &&& ~~~opc.startLine).setWidth 7
  if startLineByte opc line = c then .ok (.setStartLine line) else .error .noSuchCommand

/-- A command of format C0 (30_encoding.md R82, R90). -/
def decodeC0 (opc : Opcodes) (c : Byte) : Except DecodeError Instr :=
  if c = opc.segRemapOff then .ok (.setSegRemap false)
  else if c = opc.segRemapOn then .ok (.setSegRemap true)
  else if c = opc.comScanNormal then .ok (.setComScanDir false)
  else if c = opc.comScanInvert then .ok (.setComScanDir true)
  else if c = opc.entireOn then .ok .entireDisplayOn
  else if c = opc.normal then .ok (.setNormalInverse false)
  else if c = opc.inverse then .ok (.setNormalInverse true)
  else if c = opc.displayOn then .ok .displayOn
  else if c = opc.displayOff then .ok .displayOff
  else decodeStartLine opc c

/-- A COM-pins parameter, refused where a reserved bit is set or bit 1 is clear (30_encoding.md R93). -/
def decodeComPins (p : Byte) : Except DecodeError Instr :=
  if p &&& 0xCF#8 = 0x02#8 then .ok (.setComPins (p.getLsbD 5) (!p.getLsbD 4)) else .error .noSuchCommand

/-- A charge-pump parameter (42_regdecode.md R163, R166). -/
def decodeChargePump (opc : Opcodes) (p : Byte) : Except DecodeError Instr :=
  if p = opc.parCpEnable then .ok .chargePumpEnable
  else if p = opc.parCpDisable then .ok .chargePumpDisable
  else .error .noSuchCommand

/-- A command of format C1 (30_encoding.md R82, R90). -/
def decodeC1 (opc : Opcodes) (c p : Byte) : Except DecodeError Instr :=
  if c = opc.muxRatio then .ok (.setMuxRatio p)
  else if c = opc.displayOffset then .ok (.setDisplayOffset p)
  else if c = opc.comPins then decodeComPins p
  else if c = opc.contrast then .ok (.setContrastCmd p)
  else if c = opc.precharge then .ok (.setPrecharge (highNibble p) (lowNibble p))
  else if c = opc.vcomh then .ok (.setVcomh p)
  else if c = opc.clock then .ok (.setClock (highNibble p) (lowNibble p))
  else if c = opc.chargePump then decodeChargePump opc p
  else .error .noSuchCommand

/-- The row of the opcode table that a command is, if it is one; no row has format C2 (30_encoding.md R83). A command
that is no row is still sent, as a raw command (log entry 34). -/
def decodeCommand (opc : Opcodes) (c : Command) : Except DecodeError Instr :=
  match c with
  | .c0 opcode => decodeC0 opc opcode
  | .c1 opcode param0 => decodeC1 opc opcode param0
  | .c2 _ _ _ => .error .noSuchCommand

/-- A 9-bit wire word; tag 1 has no meaning (30_encoding.md R84, R94). -/
def decodeWord9 (w : BitVec 9) : Except DecodeError Instr :=
  if w.getLsbD 8 then .error .dataTag else .ok (.w9 (w.setWidth 8))

/-- A 16-bit wire word; a control byte other than 0xC0 has no meaning (30_encoding.md R86, R94). -/
def decodeWord16 (w : BitVec 16) : Except DecodeError Instr :=
  if (w >>> 8).setWidth 8 = controlByte then .ok (.w16 (w.setWidth 8)) else .error .otherControlByte

/-- The decoder: total on every request. The opcode table is an argument (30_encoding.md R90: "a parameter a model may
override"); where two of its entries are equal the earlier test wins (log entry 13). -/
def decode (opc : Opcodes) (r : Request) : Except DecodeError Instr :=
  match r with
  | .host w => decodeHost w
  | .command c => decodeCommand opc c
  | .word9 w => decodeWord9 w
  | .word8 w => .ok (.w8 w)
  | .word16 w => decodeWord16 w

/-! ## Words numbered as the opcode table numbers them -/

/-- The command of a C1 word, the opcode in bits 15:8 (30_encoding.md R82). -/
def commandOfC1Word (w : Nat) : Command := .c1 (BitVec.ofNat 8 (w / 256)) (BitVec.ofNat 8 w)

/-- The command of a C2 word, the opcode in bits 23:16 (30_encoding.md R82). -/
def commandOfC2Word (w : Nat) : Command :=
  .c2 (BitVec.ofNat 8 (w / 65536)) (BitVec.ofNat 8 (w / 256)) (BitVec.ofNat 8 w)

/-- Whether a command is a row of the opcode table under its default values. -/
def isCommand (c : Command) : Bool :=
  match decodeCommand defaultOpcodes c with
  | .ok _ => true
  | .error _ => false

/-- The request a table word stands for. The table numbers its rows by width: 9 bits are a W9 word, 11 bits a request
word. In whole bytes the layers share their numbers, so the first of these that fits is taken: one byte is a command
of format C0, else a W8 word; two bytes are a request word (bits 15:11 clear), else a W16 word (high byte 0xC0), else
a command of format C1; three bytes are a command of format C2 (DESIGN CHOICE, safe, log entry 14). -/
def tableRequest (nbits w : Nat) : Request :=
  if nbits = 9 then .word9 (BitVec.ofNat 9 w)
  else if nbits = 11 then .host (BitVec.ofNat 11 w)
  else if nbits ≤ 8 then
    if isCommand (.c0 (BitVec.ofNat 8 w)) then .command (.c0 (BitVec.ofNat 8 w)) else .word8 (BitVec.ofNat 8 w)
  else if nbits ≤ 16 then
    if w % 65536 < 2048 then .host (BitVec.ofNat 11 w)
    else if w / 256 % 256 = 0xC0 then .word16 (BitVec.ofNat 16 w)
    else .command (commandOfC1Word w)
  else .command (commandOfC2Word w)

/-- The instruction the decoder reads from a table word (fixed name of the host). -/
def decodeTableWord (nbits w : Nat) : Option Instr :=
  match decode defaultOpcodes (tableRequest nbits w) with
  | .ok i => some i
  | .error _ => none

/-! ## Encoding -/

/-- The encoder: the request of an instruction, written from the same tables (30_encoding.md R81, R84 to R86, R88 to R90;
42_regdecode.md R151 to R166). The ignored argument of a host operation is 0 (log entry 15). -/
def encode (opc : Opcodes) (i : Instr) : Request :=
  match i with
  | .prepare => .host (requestWord 0#3 0#8)
  | .enable => .host (requestWord 1#3 0#8)
  | .disable => .host (requestWord 2#3 0#8)
  | .unprepare => .host (requestWord 3#3 0#8)
  | .setContrast b => .host (requestWord 4#3 b)
  | .getContrast => .host (requestWord 5#3 0#8)
  | .setMuxRatio m => .command (.c1 opc.muxRatio m)
  | .setDisplayOffset o => .command (.c1 opc.displayOffset o)
  | .setStartLine line => .command (.c0 (startLineByte opc line))
  | .setSegRemap remap => .command (.c0 (if remap then opc.segRemapOn else opc.segRemapOff))
  | .setComScanDir invert => .command (.c0 (if invert then opc.comScanInvert else opc.comScanNormal))
  | .setComPins lrRemap seqPin => .command (.c1 opc.comPins (comPinsByte lrRemap seqPin))
  | .setContrastCmd c => .command (.c1 opc.contrast c)
  | .setPrecharge phase2 phase1 => .command (.c1 opc.precharge (nibbles phase2 phase1))
  | .setVcomh v => .command (.c1 opc.vcomh v)
  | .entireDisplayOn => .command (.c0 opc.entireOn)
  | .setNormalInverse inverse => .command (.c0 (if inverse then opc.inverse else opc.normal))
  | .setClock frequency divider => .command (.c1 opc.clock (nibbles frequency divider))
  | .chargePumpEnable => .command (.c1 opc.chargePump opc.parCpEnable)
  | .displayOn => .command (.c0 opc.displayOn)
  | .displayOff => .command (.c0 opc.displayOff)
  | .chargePumpDisable => .command (.c1 opc.chargePump opc.parCpDisable)
  | .w9 b => .word9 (tagWord b)
  | .w8 b => .word8 b
  | .w16 b => .word16 (controlWord b)

/-- The command an instruction of the command layer is; a host operation and a wire word are none. -/
def commandOf (opc : Opcodes) (i : Instr) : Option Command :=
  match encode opc i with
  | .command c => some c
  | .host _ => none
  | .word9 _ => none
  | .word8 _ => none
  | .word16 _ => none

/-- The bytes of a command, opcode first, then its parameter (30_encoding.md R82). -/
def commandBytes (opc : Opcodes) (i : Instr) : List Byte :=
  match commandOf opc i with
  | some c => c.bytes
  | none => []

/-- The number of bits the opcode table gives a request of this form (column "bits"). -/
def requestBits (r : Request) : Nat :=
  match r with
  | .host _ => 11
  | .command c => 8 * c.bytes.length
  | .word9 _ => 9
  | .word8 _ => 8
  | .word16 _ => 16

/-- A request as the number the opcode table makes of it: first byte most significant (30_encoding.md R82). -/
def requestNumber (r : Request) : Nat :=
  match r with
  | .host w => w.toNat
  | .command c => c.bytes.foldl (fun n b => n * 256 + b.toNat) 0
  | .word9 w => w.toNat
  | .word8 w => w.toNat
  | .word16 w => w.toNat

end Sys2Proof
end

