-- ==== Sys2Proof/Machine/Defaults.lean ====
section
/-! DEFINITION. The configuration and the settings of `State.reset`. The spec leaves both to the validated
configuration (70_reset_and_hazards.md R251, R252; 91_not_in_source.md N3): these are the model's choice. -/

namespace Sys2Proof.Machine

/-- The configuration of `State.reset` (DESIGN CHOICE, unsafe, log entry 8): I2C, a reset line, the charge-pump
topology, the default opcode table. -/
def resetCfg : Cfg where
  transport := .i2c
  hasReset := true
  useChargePump := true
  opc := defaultOpcodes

/-- The settings of `State.reset` (DESIGN CHOICE, unsafe, log entry 9): the worked settings of 42_regdecode.md R168;
the three registers no rule reads are zero. -/
def resetSettings : Settings where
  width := 0#32
  height := 64#32
  widthMm := 0#32
  heightMm := 0#32
  segRemap := true
  comScanInvert := true
  comSeqPinCfg := false
  comLrRemap := false
  inverseDisplay := false
  prechargePhase1 := 2#32
  prechargePhase2 := 2#32
  clockDivideRatio := 1#32
  oscillatorFrequency := 8#32
  vcomhDeselect := 0x20#32
  displayStartLine := 0#32
  comOffset := 0#32
  contrast := 0x7F#8

end Sys2Proof.Machine
end

