-- ==== Sys2Proof/Machine/State.lean ====
section
/-! DEFINITION. The state of one block instance (10_state.md R20), its downward calls and events (00_scope.md R11,
10_state.md R33), its responses (60_exceptions.md R224), and its value after attach (70_reset_and_hazards.md R251). -/

namespace Sys2Proof.Machine

/-! ## The channels -/

/-- The three supplies of the document's data model (00_scope.md glossary). -/
inductive Rail where
  | vcore
  | vpanel
  | vcp
  deriving DecidableEq, Repr

/-- "two states per supply rail: OFF, ON" (10_state.md R28). -/
inductive RailState where
  | off
  | on
  deriving DecidableEq, Repr

/-- The GPIO lines the block drives (10_state.md R29). -/
inductive Line where
  | reset
  | dc
  deriving DecidableEq, Repr

/-- The value of an error is the collaborator's and opaque to the block: "a model takes it as a type parameter"
(60_exceptions.md R222). Everything below has that parameter, `ε`, and no operation and no meaning puts a condition on
it. The machine of Machine/Core.lean takes the numbers for it (DESIGN CHOICE, safe, log entry 6), so that a state can be
written out; `State` without an argument is that one. -/
abbrev ErrVal := Nat

/-- The result of a downward call or of an allocation (00_scope.md R11). -/
inductive Res (ε : Type := ErrVal) where
  | ok
  | err (e : ε)
  deriving DecidableEq, Repr

/-- One answer of the environment: how many microseconds passed until the call returned, and its result. A call that
returns nothing (`GpioSet`, `Delay`) ignores the result; an allocation is refused by any `err` (log entry 3). -/
structure Answer (ε : Type := ErrVal) where
  took : Nat
  res : Res ε
  deriving DecidableEq, Repr

/-- A downward call (00_scope.md R11). Durations are in microseconds. `delayThenOff` is the `Delay` of the deferred
disable, after which the rail is counted `OFF` (41_power.md R137). -/
inductive Call where
  | regEnable (r : Rail)
  | regDisable (r : Rail)
  | regDisableDeferred (r : Rail) (d : Nat)
  | gpioSet (l : Line) (level : Bool)
  | delay (d : Nat)
  | delayThenOff (d : Nat) (r : Rail)
  | xfer9 (ws : List Word9)
  | xfer8 (bs : List Byte)
  deriving DecidableEq, Repr

/-- One place of an expanded sequence (10_state.md R30): a downward call; whether the transient command buffer is
acquired before it, as at the start of a SEND (40_transport.md R114); and whether its failure restores the
data/command line, as in the SPI 4-wire bracket (R112). -/
structure Slot where
  alloc : Bool
  call : Call
  restoreDC : Bool
  deriving DecidableEq, Repr

/-- The event alphabet of the trace (10_state.md R33). -/
inductive Event (ε : Type := ErrVal) where
  | regEn (r : Rail) (res : Res ε)
  | regDis (r : Rail) (res : Res ε)
  | regDisDefer (r : Rail) (d : Nat) (res : Res ε)
  | gpio (l : Line) (level : Bool)
  | delay (d : Nat)
  | xfer9 (ws : List Word9) (res : Res ε)
  | xfer8 (bs : List Byte) (res : Res ε)
  deriving DecidableEq, Repr

/-- An event with its ghost time stamp, in microseconds, taken when the call returned (10_state.md R35; log entry 7). -/
structure Stamped (ε : Type := ErrVal) where
  time : Nat
  ev : Event ε
  deriving DecidableEq, Repr

/-- The responses of an operation (60_exceptions.md R224, R211). -/
inductive Response (ε : Type := ErrVal) where
  | ok
  | okValue (v : Byte)
  | eNomem
  | eBus (e : ε)
  | fMisuse (op : Instr) (prepared enabled : Bool)
  | eReg (e : ε)
  deriving DecidableEq, Repr

/-- A response with the time at which it was given. -/
structure Reply (ε : Type := ErrVal) where
  time : Nat
  rsp : Response ε
  deriving DecidableEq, Repr

/-- The sequencer position (10_state.md R30): `IDLE`, or the operation in progress and the index of its next downward
call. -/
inductive Pc where
  | idle
  | busy (op : Operation) (i : Nat)
  deriving DecidableEq, Repr

end Sys2Proof.Machine

namespace Sys2Proof.Machine

/-- The state of one block instance (10_state.md R20), with the configuration it was attached with (log entry 2) and
the inputs and outputs of the request channel and of the environment (log entries 3, 4, 5). -/
structure State (ε : Type := ErrVal) where
  /-- `cfg`, fixed at attach, written by no step (00_scope.md R5). -/
  cfg : Cfg
  /-- The settings register file `x` (R21). -/
  settings : Settings
  /-- `st.prepared` (R25). -/
  prepared : Bool
  /-- `st.enabled` (R25). -/
  enabled : Bool
  /-- `st.fault`, sticky (R26). -/
  fault : Bool
  /-- `st.rail[VCORE]` (R28). -/
  railCore : RailState
  /-- `st.rail[VSECOND]` (R28). -/
  railSecond : RailState
  /-- `st.line[RESET]` (R29); it means something only when `cfg.hasReset` (log entry 19). -/
  lineReset : Bool
  /-- `st.line[DC]` (R29); it means something only when `cfg.transport` is SPI 4-wire (log entry 19). -/
  lineDC : Bool
  /-- The sequencer position (R30). -/
  pc : Pc
  /-- `st.trace`, oldest first, ghost (R33). -/
  trace : List (Stamped ε)
  /-- The time of the last call's return, in microseconds, ghost (R35). -/
  now : Nat
  /-- What the requester has still to issue (R34). -/
  requests : List Request
  /-- What the environment has still to answer, in the order in which it is asked (R34). -/
  answers : List (Answer ε)
  /-- The responses given, oldest first (R61 channel 5). -/
  responses : List (Reply ε)
  deriving DecidableEq, Repr

/-- Why the machine stops. -/
inductive Fault where
  /-- Raised by `step` where the sequencer position is outside the sequence of its instruction, a state that no run
  from attach reaches (10_state.md R30); safe (log entry 18). -/
  | pcOutsideSequence
  deriving DecidableEq, Repr

/-- Why an instruction has no meaning here. -/
inductive Refusal where
  /-- Raised by an arm of `exec` that has no meaning yet; safe. No arm is left so. -/
  | notModelled (mnemonic : String)
  /-- Raised by `step` on a request word that names no operation (30_encoding.md R92: "a refusal") and on a wire word
  that has no meaning (R94: "A model must not give them a meaning"); safe. -/
  | notAnInstruction (why : DecodeError)
  /-- Raised by every meaning while `pc` is not `IDLE` (60_exceptions.md R237, 93 U2: "refuse"); the spec says that
  it errs toward proving, so unsafe (log entry 17). -/
  | busy
  /-- Raised by the meaning of a wire word whose format is not that of the configured transport (30_encoding.md R94,
  R95: "A model must not give them a meaning"); safe (log entry 16). -/
  | wrongTransport
  deriving DecidableEq, Repr

/-- The second supply `VSECOND`: `VPANEL`, or `VCP` in the charge-pump topology (41_power.md R131). -/
def vsecond (cfg : Cfg) : Rail := if cfg.useChargePump then .vcp else .vpanel

/-- The state right after attach, for a configuration, settings, and the level the reset line happens to have
(70_reset_and_hazards.md R251; the level is "a draw", decision D11). -/
def State.afterAttach {ε : Type} (cfg : Cfg) (x : Settings) (resetLevel : Bool) : State ε where
  cfg := cfg
  settings := x
  prepared := false
  enabled := false
  fault := false
  railCore := .off
  railSecond := .off
  lineReset := resetLevel
  lineDC := true
  pc := .idle
  trace := []
  now := 0
  requests := []
  answers := []
  responses := []

/-- The machine right after reset: attach with the configuration and the settings of Machine/Defaults.lean, the reset
line at 0 (DESIGN CHOICE, unsafe, log entries 8, 9 and 10). -/
def State.reset : State := State.afterAttach resetCfg resetSettings false

end Sys2Proof.Machine
end

