-- ==== Sys2Proof/Machine/Ops.lean ====
section
/-! DEFINITION. The named operations over the state: events, rails, lines, the environment's answers, the responses,
one downward call, and the two ways an instruction ends badly: a failed call (60_exceptions.md R231) and a misuse
(R225). The block has no memory (20_memory.md R60). -/

namespace Sys2Proof.Machine

variable {ε : Type}

/-! ## Updates -/

/-- Append an event to the trace, stamped with the present time (10_state.md R33, R35). -/
def State.log (ev : Event ε) (s : State ε) : State ε := { s with trace := s.trace ++ [⟨s.now, ev⟩] }

/-- Write the belief about a supply that exists (10_state.md R28). -/
def State.setRail (r : Rail) (v : RailState) (s : State ε) : State ε :=
  { s with
    railCore := if r = .vcore then v else s.railCore
    railSecond := if r = vsecond s.cfg then v else s.railSecond }

/-- Drive a GPIO line (10_state.md R29). -/
def State.setLine (l : Line) (level : Bool) (s : State ε) : State ε :=
  { s with
    lineReset := if l = .reset then level else s.lineReset
    lineDC := if l = .dc then level else s.lineDC }

/-- Let time pass (10_state.md R35). -/
def State.elapse (d : Nat) (s : State ε) : State ε := { s with now := s.now + d }

/-- Take one answer of the environment: it is used up, and the time it took has passed. -/
def State.consume (a : Answer ε) (s : State ε) : State ε :=
  { s with answers := s.answers.tail, now := s.now + a.took }

/-- Move the sequencer (10_state.md R31). -/
def State.setPc (pc : Pc) (s : State ε) : State ε := { s with pc := pc }

/-- Write the contrast register, the one settings register with a writer after attach (10_state.md R24). -/
def State.setContrastReg (b : Byte) (s : State ε) : State ε :=
  { s with settings := { s.settings with contrast := b } }

/-- Write `st.prepared` (10_state.md R25). -/
def State.setPrepared (v : Bool) (s : State ε) : State ε := { s with prepared := v }

/-- Write `st.enabled` (10_state.md R25). -/
def State.setEnabled (v : Bool) (s : State ε) : State ε := { s with enabled := v }

/-- Set the sticky fault flag (10_state.md R26). -/
def State.setFault (s : State ε) : State ε := { s with fault := true }

/-- Give a response on the request channel and go idle (10_state.md R31). -/
def State.answer (r : Response ε) (s : State ε) : State ε :=
  { s with responses := s.responses ++ [⟨s.now, r⟩], pc := .idle }

/-! ## The two bad ends -/

/-- A downward call failed: the remaining calls are not made, no lifecycle flag is written, nothing is saved, the
response is the error and the block is idle (60_exceptions.md R231). -/
def State.abort (e : Response ε) (s : State ε) : State ε := s.answer e

/-- A lifecycle operation in the wrong state: no downward call, no change but the sticky fault flag, the response names
the operation and the state it found, and the block stays idle (60_exceptions.md R225). -/
def State.misuse (op : Instr) (s : State ε) : State ε := (s.setFault).answer (.fMisuse op s.prepared s.enabled)

/-! ## One downward call -/

/-- What became of a downward call: the environment has not answered yet, it failed, or it is done. -/
inductive Attempt (ε : Type := ErrVal) where
  | waits
  | fails (e : Response ε) (s : State ε)
  | done (s : State ε)
  deriving DecidableEq, Repr

/-- The restore of the data/command line after a failed SPI 4-wire transfer, once its `GpioSet` has returned
(40_transport.md R112, decision D21); then the error is raised (R115). -/
def restoreThenFail (e : ε) (s : State ε) : Attempt ε :=
  match s.answers with
  | [] => .waits
  | b :: _ => .fails (.eBus e) (((s.consume b).setLine .dc true).log (.gpio .dc true))

/-- A transfer that returned `res`: the attempt is on the trace either way (R115). -/
def transferDone (ev : Event ε) (res : Res ε) (restoreDC : Bool) (s : State ε) : Attempt ε :=
  match res with
  | .ok => .done (s.log ev)
  | .err e => if restoreDC then restoreThenFail e (s.log ev) else .fails (.eBus e) (s.log ev)

/-- A regulator call that returned `res`: the belief follows on `Ok`, and is unchanged after `Err`
(10_state.md R28, 41_power.md R140). -/
def regulatorDone (ev : Event ε) (res : Res ε) (onOk : State ε → State ε) (s : State ε) : Attempt ε :=
  match res with
  | .ok => .done ((onOk s).log ev)
  | .err e => .fails (.eReg e) (s.log ev)

/-- The effect of a call that the environment has answered with `a`, in the state where `a` is used up. -/
def callDone (c : Call) (restoreDC : Bool) (a : Answer ε) (s : State ε) : Attempt ε :=
  match c with
  | .regEnable r => regulatorDone (.regEn r a.res) a.res (State.setRail r .on) s
  | .regDisable r => regulatorDone (.regDis r a.res) a.res (State.setRail r .off) s
  | .regDisableDeferred r d => regulatorDone (.regDisDefer r d a.res) a.res id s
  | .gpioSet l level => .done ((s.setLine l level).log (.gpio l level))
  | .delay d => .done ((s.elapse d).log (.delay d))
  | .delayThenOff d r => .done (((s.elapse d).log (.delay d)).setRail r .off)
  | .xfer9 ws => transferDone (.xfer9 ws a.res) a.res restoreDC s
  | .xfer8 bs => transferDone (.xfer8 bs a.res) a.res restoreDC s

/-- Make a downward call: nothing happens until the environment answers. -/
def makeCall (c : Call) (restoreDC : Bool) (s : State ε) : Attempt ε :=
  match s.answers with
  | [] => .waits
  | a :: _ => callDone c restoreDC a (s.consume a)

/-- Perform one place of a sequence: first the allocation, where a SEND begins (refused: `E_NOMEM` and no output,
40_transport.md R114), then the call. -/
def perform (sl : Slot) (s : State ε) : Attempt ε :=
  if sl.alloc then
    match s.answers with
    | [] => .waits
    | a :: _ =>
      match a.res with
      | .err _ => .fails .eNomem (s.consume a)
      | .ok => makeCall sl.call sl.restoreDC (s.consume a)
  else makeCall sl.call sl.restoreDC s

end Sys2Proof.Machine
end

