-- ==== Sys2Proof/Machine/Flags.lean ====
section
/-! DEFINITION. The lifecycle flags: the three lifecycle states (10_state.md R25), which operation each admits
(44_lifecycle.md R200), and what an operation's completion writes (R206). And the numeric cause codes of
60_exceptions.md R224. -/

namespace Sys2Proof.Machine

variable {ε : Type}

/-- The lifecycle states of 10_state.md R25. -/
inductive Phase where
  | unprepared
  | prepared
  | enabled
  deriving DecidableEq, Repr

/-- The lifecycle state the two flags encode; the combination (0, 1) encodes none (R25). -/
def phaseOf (prepared enabled : Bool) : Option Phase :=
  match prepared, enabled with
  | false, false => some .unprepared
  | true, false => some .prepared
  | true, true => some .enabled
  | false, true => none

/-- `prepare` is admitted in (0, 0) (44_lifecycle.md R200). -/
def admitsPrepare (s : State ε) : Bool := !s.prepared && !s.enabled

/-- `enable` is admitted in (1, 0) (R200). -/
def admitsEnable (s : State ε) : Bool := s.prepared && !s.enabled

/-- `disable` is admitted in (1, 1) (R200). -/
def admitsDisable (s : State ε) : Bool := s.prepared && s.enabled

/-- `unprepare` is admitted in (1, 0) (R200). -/
def admitsUnprepare (s : State ε) : Bool := s.prepared && !s.enabled

/-- The completion action of an instruction all of whose calls succeeded: its flag write, then its response
(10_state.md R31, 44_lifecycle.md R201 to R209). Commands and wire words write no flag (40_transport.md R110). -/
def completeInstr (i : Instr) (s : State ε) : State ε :=
  match i with
  | .prepare => (s.setPrepared true).answer .ok
  | .enable => (s.setEnabled true).answer .ok
  | .disable => (s.setEnabled false).answer .ok
  | .unprepare => (s.setPrepared false).answer .ok
  | .setContrast _ => s.answer .ok
  | .getContrast => s.answer (.okValue s.settings.contrast)
  | .setMuxRatio _ => s.answer .ok
  | .setDisplayOffset _ => s.answer .ok
  | .setStartLine _ => s.answer .ok
  | .setSegRemap _ => s.answer .ok
  | .setComScanDir _ => s.answer .ok
  | .setComPins _ _ => s.answer .ok
  | .setContrastCmd _ => s.answer .ok
  | .setPrecharge _ _ => s.answer .ok
  | .setVcomh _ => s.answer .ok
  | .entireDisplayOn => s.answer .ok
  | .setNormalInverse _ => s.answer .ok
  | .setClock _ _ => s.answer .ok
  | .chargePumpEnable => s.answer .ok
  | .displayOn => s.answer .ok
  | .displayOff => s.answer .ok
  | .chargePumpDisable => s.answer .ok
  | .w9 _ => s.answer .ok
  | .w8 _ => s.answer .ok
  | .w16 _ => s.answer .ok

/-- The completion action of an operation; a raw command, like every command, writes no flag (R110). -/
def complete (op : Operation) (s : State ε) : State ε :=
  match op with
  | .instr i => completeInstr i s
  | .raw _ => s.answer .ok

/-- The ordinal of a response (60_exceptions.md R224, decision D25). -/
def responseCode (r : Response ε) : Nat :=
  match r with
  | .ok => 0
  | .okValue _ => 0
  | .eNomem => 2
  | .eBus _ => 3
  | .fMisuse _ _ _ => 5
  | .eReg _ => 6

end Sys2Proof.Machine
end

