-- ==== Sys2Proof/Machine/Operands.lean ====
section
/-! DEFINITION. The register-configuration decoder (42_regdecode.md): from the settings registers to the operands of
the initialisation commands. Every derivation is unsigned and modulo 2^8; a wide setting is cut to the bits it owns
(R150), never rejected. -/

namespace Sys2Proof.Machine

/-- `trunc8(v)`: `v mod 256` (00_scope.md R9). -/
def trunc8 (v : Numeric) : Byte := v.setWidth 8

/-- The low seven bits (42_regdecode.md R153). -/
def low7 (v : Numeric) : BitVec 7 := v.setWidth 7

/-- The low four bits (R158, R162). -/
def low4 (v : Numeric) : BitVec 4 := v.setWidth 4

/-- Init step 1: `trunc8(height - 1)` (R151). -/
def cmdMuxRatio (x : Settings) : Instr := .setMuxRatio (trunc8 (x.height - 1#32))

/-- Init step 2: `trunc8(com_offset)` (R152). -/
def cmdDisplayOffset (x : Settings) : Instr := .setDisplayOffset (trunc8 x.comOffset)

/-- Init step 3: the low seven bits of the start line (R153). -/
def cmdStartLine (x : Settings) : Instr := .setStartLine (low7 x.displayStartLine)

/-- Init step 4: the remap flag selects the opcode (R154). -/
def cmdSegRemap (x : Settings) : Instr := .setSegRemap x.segRemap

/-- Init step 5: the scan-direction-invert flag selects the opcode (R155). -/
def cmdComScan (x : Settings) : Instr := .setComScanDir x.comScanInvert

/-- Init step 6: the COM pins configuration (R156). -/
def cmdComPins (x : Settings) : Instr := .setComPins x.comLrRemap x.comSeqPinCfg

/-- Init step 7: the stored contrast (R157). -/
def cmdContrast (x : Settings) : Instr := .setContrastCmd x.contrast

/-- Init step 8: phase 2 in the high nibble, phase 1 in the low (R158). -/
def cmdPrecharge (x : Settings) : Instr := .setPrecharge (low4 x.prechargePhase2) (low4 x.prechargePhase1)

/-- Init step 9: `trunc8(vcomh_deselect)` (R159). -/
def cmdVcomh (x : Settings) : Instr := .setVcomh (trunc8 x.vcomhDeselect)

/-- Init step 10: sent unconditionally (R160). -/
def cmdEntireOn : Instr := .entireDisplayOn

/-- Init step 11: the inverse-display flag selects the opcode (R161). -/
def cmdNormalInverse (x : Settings) : Instr := .setNormalInverse x.inverseDisplay

/-- Init step 12: frequency in the high nibble, ratio minus one in the low (R162). -/
def cmdClock (x : Settings) : Instr := .setClock (low4 x.oscillatorFrequency) (low4 (x.clockDivideRatio - 1#32))

/-- The initialisation command list `init_cmds(cfg, x)`, "always twelve, in this order" (R167). -/
def initCmds (x : Settings) : List Instr :=
  [cmdMuxRatio x, cmdDisplayOffset x, cmdStartLine x, cmdSegRemap x, cmdComScan x, cmdComPins x,
   cmdContrast x, cmdPrecharge x, cmdVcomh x, cmdEntireOn, cmdNormalInverse x, cmdClock x]

end Sys2Proof.Machine
end

