-- ==== Sys2Proof/Machine/Power.lean ====
section
/-! DEFINITION. The power sequencer (41_power.md): rails, reset pulse, the three delays (R139), as places of a
sequence. -/

namespace Sys2Proof.Machine

/-- The reset pulse width, 3 microseconds at least (41_power.md R133, R139). -/
def resetPulseWidth : Nat := 3

/-- The settle time after display-on, 100 milliseconds at least, in microseconds (43_protocol.md R184). -/
def settleTime : Nat := 100000

/-- The core-logic hold, 100 milliseconds at least, in microseconds (41_power.md R137). -/
def coreHoldTime : Nat := 100000

/-- A call outside SEND: no buffer, nothing to restore. -/
def plain (c : Call) : Slot := ⟨false, c, false⟩

/-- `reset_pulse` (41_power.md R133). -/
def resetPulse : List Slot :=
  [plain (.gpioSet .reset false), plain (.delay resetPulseWidth), plain (.gpioSet .reset true)]

/-- `power_on`: core logic, the reset pulse if there is a line, the second supply (R132, R135). -/
def powerOn (cfg : Cfg) : List Slot :=
  [plain (.regEnable .vcore)] ++ (if cfg.hasReset then resetPulse else []) ++ [plain (.regEnable (vsecond cfg))]

/-- `deferred_disable_core`: the request, then the wait, then the rail is counted off (R137). -/
def deferredDisableCore : List Slot :=
  [plain (.regDisableDeferred .vcore coreHoldTime), plain (.delayThenOff coreHoldTime .vcore)]

/-- `power_off`: the second supply, then the core logic (R136). -/
def powerOff (cfg : Cfg) : List Slot := plain (.regDisable (vsecond cfg)) :: deferredDisableCore

end Sys2Proof.Machine
end

