-- ==== Sys2Proof/Machine/Transport.lean ====
section
/-! DEFINITION. The transport encoder (40_transport.md): SEND and its three wire forms, as places of a sequence. -/

namespace Sys2Proof.Machine

/-- `SEND_SPI3(bytes)`: one transfer of 9-bit words, tag 0 in each (40_transport.md R111). -/
def sendSpi3 (bytes : List Byte) : List Slot :=
  [⟨false, .xfer9 (bytes.map tagWord), false⟩]

/-- `SEND_SPI4(bytes)`: command level, one transfer of the bytes, data level; a failed transfer restores the line
(R112). -/
def sendSpi4 (bytes : List Byte) : List Slot :=
  [⟨false, .gpioSet .dc false, false⟩, ⟨false, .xfer8 bytes, true⟩, ⟨false, .gpioSet .dc true, false⟩]

/-- `SEND_I2C(bytes)`: one transaction, the control byte before every command byte (R113). -/
def sendI2c (bytes : List Byte) : List Slot :=
  [⟨false, .xfer8 (bytes.flatMap controlPair), false⟩]

/-- The transient command buffer is acquired at the start, before any output (R114). -/
def withBuffer (slots : List Slot) : List Slot :=
  match slots with
  | [] => []
  | sl :: rest => { sl with alloc := true } :: rest

/-- `SEND(c, ps)` on the configured transport, for any opcode byte and any zero, one or two parameter bytes (R110). -/
def send (t : Transport) (c : Command) : List Slot :=
  match t with
  | .spi3 => withBuffer (sendSpi3 c.bytes)
  | .spi4 => withBuffer (sendSpi4 c.bytes)
  | .i2c => withBuffer (sendI2c c.bytes)

/-- SEND of a controller command (R110, 30_encoding.md R90); an instruction that is no command sends nothing. -/
def sendCommand (cfg : Cfg) (i : Instr) : List Slot :=
  match commandOf cfg.opc i with
  | some c => send cfg.transport c
  | none => []

end Sys2Proof.Machine
end

