-- ==== Sys2Proof/Machine/Protocol.lean ====
section
/-! DEFINITION. The protocol sequences (43_protocol.md): initialisation, enable, disable, contrast update. -/

namespace Sys2Proof.Machine

/-- `init`: the twelve commands in their order (43_protocol.md R180). -/
def initSeq (cfg : Cfg) (x : Settings) : List Slot := (initCmds x).flatMap (sendCommand cfg)

/-- "If charge-pump topology, send charge-pump-enable command" (42_regdecode.md R163, R183). -/
def pumpOn (cfg : Cfg) : List Slot := if cfg.useChargePump then sendCommand cfg .chargePumpEnable else []

/-- "If charge-pump topology, send charge-pump-disable command" (42_regdecode.md R166, R185). -/
def pumpOff (cfg : Cfg) : List Slot := if cfg.useChargePump then sendCommand cfg .chargePumpDisable else []

/-- `proto_enable`: charge pump if that topology, display on, settle (R182, R183, R184). -/
def protoEnable (cfg : Cfg) : List Slot :=
  pumpOn cfg ++ sendCommand cfg .displayOn ++ [plain (.delay settleTime)]

/-- `proto_disable`: display off, charge pump off if that topology (R185). -/
def protoDisable (cfg : Cfg) : List Slot :=
  sendCommand cfg .displayOff ++ pumpOff cfg

/-- The SEND of `contrast_update(b)`, after its store (R186). -/
def contrastUpdate (cfg : Cfg) (b : Byte) : List Slot := sendCommand cfg (.setContrastCmd b)

end Sys2Proof.Machine
end

