-- ==== Sys2Proof/Machine/Sequencer.lean ====
section
/-! DEFINITION. The sequencer (10_state.md R30, R31): the expanded sequence of every operation, one downward call
(`advance`), and running on until the operation ends or the environment has not answered (`settle`). -/

namespace Sys2Proof.Machine

variable {ε : Type}

/-- The expanded sequence `useq(op, cfg, x)` (10_state.md R30, 44_lifecycle.md R201 to R209). A command's sequence is
its SEND (40_transport.md R110); a charge-pump command's is empty without the charge pump, where "no charge-pump command
is ever sent" (41_power.md R141, log entry 35); a wire word's is the transfer of the one-byte command in its format (R111
to R113). -/
def useq (cfg : Cfg) (x : Settings) (i : Instr) : List Slot :=
  match i with
  | .prepare => powerOn cfg ++ initSeq cfg x
  | .enable => protoEnable cfg
  | .disable => protoDisable cfg
  | .unprepare => powerOff cfg
  | .setContrast b => contrastUpdate cfg b
  | .getContrast => []
  | .setMuxRatio m => sendCommand cfg (.setMuxRatio m)
  | .setDisplayOffset o => sendCommand cfg (.setDisplayOffset o)
  | .setStartLine line => sendCommand cfg (.setStartLine line)
  | .setSegRemap remap => sendCommand cfg (.setSegRemap remap)
  | .setComScanDir invert => sendCommand cfg (.setComScanDir invert)
  | .setComPins lrRemap seqPin => sendCommand cfg (.setComPins lrRemap seqPin)
  | .setContrastCmd c => sendCommand cfg (.setContrastCmd c)
  | .setPrecharge phase2 phase1 => sendCommand cfg (.setPrecharge phase2 phase1)
  | .setVcomh v => sendCommand cfg (.setVcomh v)
  | .entireDisplayOn => sendCommand cfg .entireDisplayOn
  | .setNormalInverse inverse => sendCommand cfg (.setNormalInverse inverse)
  | .setClock frequency divider => sendCommand cfg (.setClock frequency divider)
  | .chargePumpEnable => pumpOn cfg
  | .displayOn => sendCommand cfg .displayOn
  | .displayOff => sendCommand cfg .displayOff
  | .chargePumpDisable => pumpOff cfg
  | .w9 b => sendSpi3 [b]
  | .w8 b => sendSpi4 [b]
  | .w16 b => sendI2c [b]

/-- The expanded sequence of an operation; a raw command's is its SEND (40_transport.md R110). -/
def sequenceOf (cfg : Cfg) (x : Settings) (op : Operation) : List Slot :=
  match op with
  | .instr i => useq cfg x i
  | .raw c => send cfg.transport c

/-- The expanded sequence of an operation under this state's configuration and settings. -/
def State.slots (s : State ε) (op : Operation) : List Slot := sequenceOf s.cfg s.settings op

/-- After a call at index `i`: on to the next, or, when it was the last, the completion action (10_state.md R31). -/
def afterCall (op : Operation) (i len : Nat) (s : State ε) : State ε :=
  if i + 1 < len then s.setPc (.busy op (i + 1)) else complete op s

/-- The operation is admitted: the sequencer stands before its first call (10_state.md R30, R34). -/
def State.begun (op : Operation) (s : State ε) : State ε := s.setPc (.busy op 0)

/-- One step of the operation in progress (10_state.md R31, R34): the downward call at `pc` together with the
environment's answer, and, when the call was the last one and returned `Ok`, the completion action that R31 runs with it.
An operation without calls is completed, a step of its own after its admission (log entry 1). Where the environment has
not answered the state is unchanged (93 U12). -/
def advance (s : State ε) : State ε :=
  match s.pc with
  | .idle => s
  | .busy op i =>
    match (s.slots op)[i]? with
    | none => if i = 0 then complete op s else s
    | some sl =>
      match perform sl s with
      | .waits => s
      | .fails e s' => s'.abort e
      | .done s' => afterCall op i (s.slots op).length s'

/-- How many steps an operation takes after its admission when no call fails: one for each call, or the completion of an
operation without calls. -/
def State.steps (s : State ε) (op : Operation) : Nat := max 1 (s.slots op).length

/-- `n` steps of the sequencer. -/
def drive (n : Nat) (s : State ε) : State ε :=
  match n with
  | 0 => s
  | k + 1 => drive k (advance s)

/-- Run the operation in progress to its end, or as far as the environment has answered. -/
def settle (s : State ε) : State ε :=
  match s.pc with
  | .idle => s
  | .busy op i => drive (s.steps op - i) s

end Sys2Proof.Machine
end

