-- ==== Sys2Proof/Machine/Admission.lean ====
section
/-! DEFINITION. The admission of an operation (44_lifecycle.md R200, 60_exceptions.md R230, R237): a step of its own, which
makes no downward call (10_state.md R34). And the whole meaning of an operation: its admission and its run. -/

namespace Sys2Proof.Machine

variable {ε : Type}

/-- A lifecycle operation: the admission check first (60_exceptions.md R230); in any other lifecycle state it is a misuse
(44_lifecycle.md R200). -/
def lifecycle (i : Instr) (admitted : Bool) (s : State ε) : State ε :=
  if admitted then s.begun (.instr i) else s.misuse i

/-- A wire word of transport `t`: admitted on that transport, refused on another, where the spec gives it no meaning
(30_encoding.md R94, R95; log entry 16). -/
def wireWord (t : Transport) (i : Instr) (s : State ε) : Host.Outcome (State ε) Fault Refusal :=
  if s.cfg.transport = t then .next (s.begun (.instr i)) else .refused .wrongTransport

/-- The admission of an instruction by an idle block. The four lifecycle operations are checked against the flags;
`set_contrast(b)` is admitted in every state, and its store comes before its sequence is expanded (10_state.md R30,
43_protocol.md R186); commands read no flag (40_transport.md R110). -/
def acceptInstr (i : Instr) (s : State ε) : Host.Outcome (State ε) Fault Refusal :=
  match i with
  | .prepare => .next (lifecycle .prepare (admitsPrepare s) s)
  | .enable => .next (lifecycle .enable (admitsEnable s) s)
  | .disable => .next (lifecycle .disable (admitsDisable s) s)
  | .unprepare => .next (lifecycle .unprepare (admitsUnprepare s) s)
  | .setContrast b => .next ((s.setContrastReg b).begun (.instr (.setContrast b)))
  | .getContrast => .next (s.begun (.instr .getContrast))
  | .setMuxRatio m => .next (s.begun (.instr (.setMuxRatio m)))
  | .setDisplayOffset o => .next (s.begun (.instr (.setDisplayOffset o)))
  | .setStartLine line => .next (s.begun (.instr (.setStartLine line)))
  | .setSegRemap remap => .next (s.begun (.instr (.setSegRemap remap)))
  | .setComScanDir invert => .next (s.begun (.instr (.setComScanDir invert)))
  | .setComPins lrRemap seqPin => .next (s.begun (.instr (.setComPins lrRemap seqPin)))
  | .setContrastCmd c => .next (s.begun (.instr (.setContrastCmd c)))
  | .setPrecharge phase2 phase1 => .next (s.begun (.instr (.setPrecharge phase2 phase1)))
  | .setVcomh v => .next (s.begun (.instr (.setVcomh v)))
  | .entireDisplayOn => .next (s.begun (.instr .entireDisplayOn))
  | .setNormalInverse inverse => .next (s.begun (.instr (.setNormalInverse inverse)))
  | .setClock frequency divider => .next (s.begun (.instr (.setClock frequency divider)))
  | .chargePumpEnable => .next (s.begun (.instr .chargePumpEnable))
  | .displayOn => .next (s.begun (.instr .displayOn))
  | .displayOff => .next (s.begun (.instr .displayOff))
  | .chargePumpDisable => .next (s.begun (.instr .chargePumpDisable))
  | .w9 b => wireWord .spi3 (.w9 b) s
  | .w8 b => wireWord .spi4 (.w8 b) s
  | .w16 b => wireWord .i2c (.w16 b) s

/-- The admission of an operation. None is accepted while one is in progress (60_exceptions.md R237, 93 U2; log
entry 17). A raw command is always admitted. -/
def accept (op : Operation) (s : State ε) : Host.Outcome (State ε) Fault Refusal :=
  match s.pc with
  | .busy _ _ => .refused .busy
  | .idle =>
    match op with
    | .instr i => acceptInstr i s
    | .raw _ => .next (s.begun op)

/-- An operation as a whole: its admission, and every step after it up to its end or as far as the environment has
answered. `step` takes the same steps one at a time (10_state.md R34; log entry 1). -/
def execute (op : Operation) (s : State ε) : Host.Outcome (State ε) Fault Refusal :=
  match accept op s with
  | .next t => .next (settle t)
  | .fault f => .fault f
  | .refused r => .refused r

end Sys2Proof.Machine
end

