-- ==== Sys2Proof/Machine/Lifecycle.lean ====
section
/-! DEFINITION. The meanings of the six host operations (44_lifecycle.md): each is its admission (Admission.lean), its
expanded sequence (`useq`) and its completion (`complete`). -/

namespace Sys2Proof.Machine

variable {ε : Type}

/-- `prepare` (44_lifecycle.md R201). -/
def execPrepare (s : State ε) : Host.Outcome (State ε) Fault Refusal :=
  execute (.instr .prepare) s

/-- `enable` (44_lifecycle.md R202). -/
def execEnable (s : State ε) : Host.Outcome (State ε) Fault Refusal :=
  execute (.instr .enable) s

/-- `disable` (44_lifecycle.md R203). -/
def execDisable (s : State ε) : Host.Outcome (State ε) Fault Refusal :=
  execute (.instr .disable) s

/-- `unprepare` (44_lifecycle.md R204). -/
def execUnprepare (s : State ε) : Host.Outcome (State ε) Fault Refusal :=
  execute (.instr .unprepare) s

/-- `set_contrast(b)`: the store comes first and is unconditional, then the command, in every lifecycle state
(44_lifecycle.md R208, 43_protocol.md R186). -/
def execSetContrast (b : Byte) (s : State ε) : Host.Outcome (State ε) Fault Refusal :=
  execute (.instr (.setContrast b)) s

/-- `get_contrast`: the stored value, no event (44_lifecycle.md R209). -/
def execGetContrast (s : State ε) : Host.Outcome (State ε) Fault Refusal :=
  execute (.instr .getContrast) s

end Sys2Proof.Machine
end

