-- ==== Sys2Proof/Machine/Commands.lean ====
section
/-! DEFINITION. The meanings of the sixteen controller commands (42_regdecode.md R151 to R166): each is SEND of its
bytes on the configured transport (40_transport.md R110). None reads a lifecycle flag or writes a register. And of a raw
command. -/

namespace Sys2Proof.Machine

variable {ε : Type}

/-- `SET_MUX_RATIO` (42_regdecode.md R151). -/
def execSetMuxRatio (m : Byte) (s : State ε) : Host.Outcome (State ε) Fault Refusal :=
  execute (.instr (.setMuxRatio m)) s

/-- `SET_DISPLAY_OFFSET` (42_regdecode.md R152). -/
def execSetDisplayOffset (o : Byte) (s : State ε) : Host.Outcome (State ε) Fault Refusal :=
  execute (.instr (.setDisplayOffset o)) s

/-- `SET_START_LINE` (42_regdecode.md R153). -/
def execSetStartLine (line : BitVec 7) (s : State ε) : Host.Outcome (State ε) Fault Refusal :=
  execute (.instr (.setStartLine line)) s

/-- `SET_SEG_REMAP` (42_regdecode.md R154). -/
def execSetSegRemap (remap : Bool) (s : State ε) : Host.Outcome (State ε) Fault Refusal :=
  execute (.instr (.setSegRemap remap)) s

/-- `SET_COM_SCAN_DIR` (42_regdecode.md R155). -/
def execSetComScanDir (invert : Bool) (s : State ε) : Host.Outcome (State ε) Fault Refusal :=
  execute (.instr (.setComScanDir invert)) s

/-- `SET_COM_PINS` (42_regdecode.md R156). -/
def execSetComPins (lrRemap seqPin : Bool) (s : State ε) : Host.Outcome (State ε) Fault Refusal :=
  execute (.instr (.setComPins lrRemap seqPin)) s

/-- `SET_CONTRAST` (42_regdecode.md R157). The command alone stores nothing: the store is `set_contrast`'s (43_protocol.md R186, log entry 22). -/
def execSetContrastCmd (c : Byte) (s : State ε) : Host.Outcome (State ε) Fault Refusal :=
  execute (.instr (.setContrastCmd c)) s

/-- `SET_PRECHARGE` (42_regdecode.md R158). -/
def execSetPrecharge (phase2 phase1 : BitVec 4) (s : State ε) : Host.Outcome (State ε) Fault Refusal :=
  execute (.instr (.setPrecharge phase2 phase1)) s

/-- `SET_VCOMH` (42_regdecode.md R159). -/
def execSetVcomh (v : Byte) (s : State ε) : Host.Outcome (State ε) Fault Refusal :=
  execute (.instr (.setVcomh v)) s

/-- `ENTIRE_DISPLAY_ON` (42_regdecode.md R160). -/
def execEntireDisplayOn (s : State ε) : Host.Outcome (State ε) Fault Refusal :=
  execute (.instr .entireDisplayOn) s

/-- `SET_NORMAL_INVERSE` (42_regdecode.md R161). -/
def execSetNormalInverse (inverse : Bool) (s : State ε) : Host.Outcome (State ε) Fault Refusal :=
  execute (.instr (.setNormalInverse inverse)) s

/-- `SET_CLOCK` (42_regdecode.md R162). -/
def execSetClock (frequency divider : BitVec 4) (s : State ε) : Host.Outcome (State ε) Fault Refusal :=
  execute (.instr (.setClock frequency divider)) s

/-- `CHARGE_PUMP_ENABLE` (42_regdecode.md R163): "if charge-pump topology, send"; without the charge pump it sends nothing
and answers `Ok` (41_power.md R141; by itself in that topology the spec does not speak of it: DESIGN CHOICE, log entry
35). -/
def execChargePumpEnable (s : State ε) : Host.Outcome (State ε) Fault Refusal :=
  execute (.instr .chargePumpEnable) s

/-- `DISPLAY_ON` (42_regdecode.md R164). -/
def execDisplayOn (s : State ε) : Host.Outcome (State ε) Fault Refusal :=
  execute (.instr .displayOn) s

/-- `DISPLAY_OFF` (42_regdecode.md R165). -/
def execDisplayOff (s : State ε) : Host.Outcome (State ε) Fault Refusal :=
  execute (.instr .displayOff) s

/-- `CHARGE_PUMP_DISABLE` (42_regdecode.md R166): "if charge-pump topology, send"; without the charge pump it sends nothing
and answers `Ok` (41_power.md R141; by itself in that topology the spec does not speak of it: DESIGN CHOICE, log entry
35). -/
def execChargePumpDisable (s : State ε) : Host.Outcome (State ε) Fault Refusal :=
  execute (.instr .chargePumpDisable) s

/-- A raw command `CMD b0 [, b1 [, b2]]` (30_encoding.md R96): SEND of its bytes, whatever they are (40_transport.md R110;
log entry 34). -/
def execRaw (c : Command) (s : State ε) : Host.Outcome (State ε) Fault Refusal :=
  execute (.raw c) s

end Sys2Proof.Machine
end

