-- ==== Sys2Proof/Machine/Wire.lean ====
section
/-! DEFINITION. The meanings of the three wire words (40_transport.md R111 to R113): the transfer of the command byte in
the word's format. A word of another transport than the configured one is given no meaning (30_encoding.md R94, R95). -/

namespace Sys2Proof.Machine

variable {ε : Type}

/-- `W9` (40_transport.md R111). -/
def execW9 (b : Byte) (s : State ε) : Host.Outcome (State ε) Fault Refusal := execute (.instr (.w9 b)) s

/-- `W8` (40_transport.md R112). -/
def execW8 (b : Byte) (s : State ε) : Host.Outcome (State ε) Fault Refusal := execute (.instr (.w8 b)) s

/-- `W16` (40_transport.md R113). -/
def execW16 (b : Byte) (s : State ε) : Host.Outcome (State ε) Fault Refusal := execute (.instr (.w16 b)) s

end Sys2Proof.Machine
end

