-- ==== Sys2Proof/Machine/Dispatch.lean ====
section
/-! DEFINITION. One arm per constructor of Instr. -/

namespace Sys2Proof.Machine

def exec (i : Instr) (s : State) : Host.Outcome State Fault Refusal :=
  match i with
  | .prepare => Sys2Proof.Machine.execPrepare s
  | .enable => Sys2Proof.Machine.execEnable s
  | .disable => Sys2Proof.Machine.execDisable s
  | .unprepare => Sys2Proof.Machine.execUnprepare s
  | .setContrast b => Sys2Proof.Machine.execSetContrast b s
  | .getContrast => Sys2Proof.Machine.execGetContrast s
  | .setMuxRatio m => Sys2Proof.Machine.execSetMuxRatio m s
  | .setDisplayOffset o => Sys2Proof.Machine.execSetDisplayOffset o s
  | .setStartLine line => Sys2Proof.Machine.execSetStartLine line s
  | .setSegRemap remap => Sys2Proof.Machine.execSetSegRemap remap s
  | .setComScanDir invert => Sys2Proof.Machine.execSetComScanDir invert s
  | .setComPins lrRemap seqPin => Sys2Proof.Machine.execSetComPins lrRemap seqPin s
  | .setContrastCmd c => Sys2Proof.Machine.execSetContrastCmd c s
  | .setPrecharge phase2 phase1 => Sys2Proof.Machine.execSetPrecharge phase2 phase1 s
  | .setVcomh v => Sys2Proof.Machine.execSetVcomh v s
  | .entireDisplayOn => Sys2Proof.Machine.execEntireDisplayOn s
  | .setNormalInverse inverse => Sys2Proof.Machine.execSetNormalInverse inverse s
  | .setClock frequency divider => Sys2Proof.Machine.execSetClock frequency divider s
  | .chargePumpEnable => Sys2Proof.Machine.execChargePumpEnable s
  | .displayOn => Sys2Proof.Machine.execDisplayOn s
  | .displayOff => Sys2Proof.Machine.execDisplayOff s
  | .chargePumpDisable => Sys2Proof.Machine.execChargePumpDisable s
  | .w9 b => Sys2Proof.Machine.execW9 b s
  | .w8 b => Sys2Proof.Machine.execW8 b s
  | .w16 b => Sys2Proof.Machine.execW16 b s

end Sys2Proof.Machine
end

