-- ==== Sys2Proof/Machine/Fetch.lean ====
section
/-! DEFINITION. Taking the next request from the request channel, and going on with the operation in progress. -/

namespace Sys2Proof.Machine

variable {ε : Type}

/-- Take the next request off the channel. -/
def State.takeRequest (s : State ε) : State ε := { s with requests := s.requests.tail }

/-- Put a request at the head of the channel, the block idle. -/
def State.giveRequest (r : Request) (s : State ε) : State ε := { s with requests := r :: s.requests, pc := .idle }

/-- A block attached with the transport that a wire word is a word of (00_scope.md R5: "fixed at attach"); any other
request is good for every transport. -/
def State.boundFor (r : Request) (s : State ε) : State ε :=
  match r with
  | .word9 _ => { s with cfg := { s.cfg with transport := .spi3 } }
  | .word8 _ => { s with cfg := { s.cfg with transport := .spi4 } }
  | .word16 _ => { s with cfg := { s.cfg with transport := .i2c } }
  | .host _ => s
  | .command _ => s

/-- A request that is no instruction. A command that is no row of the opcode table is sent as it is: the encoder "encodes
any opcode byte with any 0, 1 or 2 parameter bytes" (30_encoding.md R83, 40_transport.md R110; log entry 34). A request
word of selector 6 or 7 "names no operation" and is a refusal (R92); a wire word with tag 1 or with another control byte
must not be given a meaning (R94). -/
def noInstruction (r : Request) (why : DecodeError) (s : State ε) : Host.Outcome (State ε) Fault Refusal :=
  match r with
  | .command c => accept (.raw c) s
  | .host _ => .refused (.notAnInstruction why)
  | .word9 _ => .refused (.notAnInstruction why)
  | .word8 _ => .refused (.notAnInstruction why)
  | .word16 _ => .refused (.notAnInstruction why)

/-- The block is idle: with no request it waits for one (70_reset_and_hazards.md R251); else it takes the request,
decodes it, and admits the operation or answers its misuse. The downward calls are the steps after it (10_state.md
R34). -/
def fetch (s : State) : Host.Outcome State Fault Refusal :=
  match s.requests with
  | [] => .next s
  | r :: _ =>
    match decode s.cfg.opc r with
    | .error why => noInstruction r why s.takeRequest
    | .ok i => accept (.instr i) s.takeRequest

/-- The block is busy with `op` at index `i`: one downward call, or the completion of an operation without calls
(10_state.md R31, R34). An index outside the sequence is a state no run reaches (log entry 18). -/
def goOn (op : Operation) (i : Nat) (s : State ε) : Host.Outcome (State ε) Fault Refusal :=
  if i < s.steps op then .next (advance s) else .fault .pcOutsideSequence

end Sys2Proof.Machine
end

