-- ==== Sys2Proof/Machine/Step.lean ====
section
/-! DEFINITION. One step of the machine: "one downward call together with the environment's answer, or the admission of a
host operation, or its completion" (10_state.md R34; log entry 1). -/

namespace Sys2Proof.Machine

/-- One step of the block (10_state.md R34): with an operation in progress one call or the completion, else an admission. -/
def step (s : State) : Host.Outcome State Fault Refusal :=
  match s.pc with
  | .idle => fetch s
  | .busy op i => goOn op i s

/-- The state with a table word placed as the next request, on a block whose transport can take it (log entries 4 and
14). -/
def State.withFetchWord (s : State) (nbits w : Nat) : State :=
  (s.boundFor (tableRequest nbits w)).giveRequest (tableRequest nbits w)

end Sys2Proof.Machine
end

