-- ==== Sys2Proof/Machine/Attach.lean ====
section
/-! DEFINITION. Attach, the block's reset (70_reset_and_hazards.md R250 to R253): what the board must offer
(00_scope.md R6), the two errors that are fatal to attach (60_exceptions.md R228), and the state after it (R251). -/

namespace Sys2Proof.Machine

/-- What stands around the block at attach: the transports bound, the supplies and lines found, and the word widths
the bus can carry (00_scope.md R6). -/
structure Board where
  spi3 : Bool
  spi4 : Bool
  i2c : Bool
  coreSupply : Bool
  panelSupply : Bool
  pumpSupply : Bool
  resetLine : Bool
  dcLine : Bool
  addressLine : Bool
  wordBits : List Nat
  deriving DecidableEq, Repr

/-- The resource an `E_RESOURCE` names (60_exceptions.md R224). -/
inductive Resource where
  | transport
  | coreSupply
  | secondSupply
  | dcLine
  | addressLine
  deriving DecidableEq, Repr

/-- The errors of attach: classes (a) and (d) of 60_exceptions.md R220. -/
inductive AttachError where
  | eResource (what : Resource)
  | eCapability (bits : Nat)
  deriving DecidableEq, Repr

/-- The ordinal of an attach error (60_exceptions.md R224). -/
def attachCode (e : AttachError) : Nat :=
  match e with
  | .eResource _ => 1
  | .eCapability _ => 4

/-- The one transport, if exactly one is bound (00_scope.md R6 (1)). -/
def transportOf (b : Board) : Option Transport :=
  match b.spi3, b.spi4, b.i2c with
  | true, false, false => some .spi3
  | false, true, false => some .spi4
  | false, false, true => some .i2c
  | _, _, _ => none

/-- The word width a transport needs (00_scope.md R6 (5)). -/
def wordWidth (t : Transport) : Nat :=
  match t with
  | .spi3 => 9
  | .spi4 => 8
  | .i2c => 8

/-- The first thing wrong with a board for a transport, the resources before the word width (00_scope.md R6 (2) to
(5); the order of the checks is a DESIGN CHOICE, safe, log entry 20). -/
def boardProblem (b : Board) (t : Transport) : Option AttachError :=
  if !b.coreSupply then some (.eResource .coreSupply)
  else if b.panelSupply == b.pumpSupply then some (.eResource .secondSupply)
  else if b.dcLine != decide (t = .spi4) then some (.eResource .dcLine)
  else if b.addressLine && decide (t ≠ .i2c) then some (.eResource .addressLine)
  else if !b.wordBits.contains (wordWidth t) then some (.eCapability (wordWidth t))
  else none

/-- The configuration a board gives (00_scope.md R5): `use_charge_pump` is "true iff the charge-pump supply was found". -/
def cfgOf (b : Board) (t : Transport) (opc : Opcodes) : Cfg where
  transport := t
  hasReset := b.resetLine
  useChargePump := b.pumpSupply
  opc := opc

/-- Attach: an error, or the state of 70_reset_and_hazards.md R251. The configured contrast may be wider than its
register and is cut to eight bits (10_state.md R24); the reset line has whatever level it has (decision D11). -/
def attach {ε : Type} (b : Board) (opc : Opcodes) (x : Settings) (contrast : Numeric) (resetLevel : Bool) :
    Except AttachError (State ε) :=
  match transportOf b with
  | none => .error (.eResource .transport)
  | some t =>
    match boardProblem b t with
    | some e => .error e
    | none => .ok (State.afterAttach (cfgOf b t opc) { x with contrast := trunc8 contrast } resetLevel)

end Sys2Proof.Machine
end

