-- ==== Sys2Proof/Safety.lean ====
section
/-! DEFINITION. What counts as a good run (60_exceptions.md R225), and the invariants in whose terms claims are stated. -/

namespace Sys2Proof.Machine

variable {ε : Type}

/-- "A model treats a state with `st.fault = 1` as a faulted state: it is never a good final state"
(60_exceptions.md R225). -/
def safe (s : State ε) : Bool := !s.fault

/-- Whether an instruction is admitted: the lifecycle operations by the flags (44_lifecycle.md R200), a wire word by the
configured transport, everything else always. -/
def admittedInstr (i : Instr) (s : State ε) : Bool :=
  match i with
  | .prepare => admitsPrepare s
  | .enable => admitsEnable s
  | .disable => admitsDisable s
  | .unprepare => admitsUnprepare s
  | .setContrast _ => true
  | .getContrast => true
  | .setMuxRatio _ => true
  | .setDisplayOffset _ => true
  | .setStartLine _ => true
  | .setSegRemap _ => true
  | .setComScanDir _ => true
  | .setComPins _ _ => true
  | .setContrastCmd _ => true
  | .setPrecharge _ _ => true
  | .setVcomh _ => true
  | .entireDisplayOn => true
  | .setNormalInverse _ => true
  | .setClock _ _ => true
  | .chargePumpEnable => true
  | .displayOn => true
  | .displayOff => true
  | .chargePumpDisable => true
  | .w9 _ => decide (s.cfg.transport = .spi3)
  | .w8 _ => decide (s.cfg.transport = .spi4)
  | .w16 _ => decide (s.cfg.transport = .i2c)

/-- Whether an operation is admitted: a raw command always. -/
def admitted (op : Operation) (s : State ε) : Bool :=
  match op with
  | .instr i => admittedInstr i s
  | .raw _ => true

/-- The combination (0, 1) of the lifecycle flags is not reached (10_state.md R25). -/
def LifecycleLegal (s : State ε) : Prop := s.enabled = true → s.prepared = true

/-- The sequencer position lies inside the sequence of an operation that was admitted (10_state.md R30), or at the
completion of an operation without calls. -/
def PositionLegal (s : State ε) : Prop :=
  ∀ op i, s.pc = .busy op i → i < s.steps op ∧ admitted op s = true

/-- The machine after `n` steps, or where it has stopped. -/
def after (n : Nat) (s : State) : Host.Outcome State Fault Refusal := Host.Core.run core n s

/-- The places of a sequence reached with the data/command line at the command level: the transfer of an SPI 4-wire
bracket and the `GpioSet` that closes it (40_transport.md R112). -/
def Slot.insideBracket (sl : Slot) : Bool :=
  match sl.call with
  | .xfer8 _ => sl.restoreDC
  | .gpioSet .dc level => level
  | .gpioSet .reset _ => false
  | .regEnable _ => false
  | .regDisable _ => false
  | .regDisableDeferred _ _ => false
  | .delay _ => false
  | .delayThenOff _ _ => false
  | .xfer9 _ => false

/-- The place the sequencer has come to, if it is busy. -/
def State.slotAtPc (s : State ε) : Option Slot :=
  match s.pc with
  | .idle => none
  | .busy op i => (s.slots op)[i]?

/-- Whether the sequencer stands inside an SPI 4-wire bracket. -/
def State.insideBracket (s : State ε) : Bool :=
  match s.slotAtPc with
  | none => false
  | some sl => sl.insideBracket

/-- `st.line[DC]` "is 0 exactly from the first `GpioSet` to the second and 1 otherwise" (40_transport.md R112). -/
def DcLineLegal (s : State ε) : Prop := s.lineDC = !s.insideBracket

/-- The core-logic supply is on while the block is prepared, and the reset line rests at 1 after its pulse (41_power.md
R133, 43_protocol.md R187); and inside `prepare`, each from the call that switches it. -/
def SuppliesLegal (s : State ε) : Prop :=
  (s.prepared = true → s.railCore = .on ∧ (s.cfg.hasReset = true → s.lineReset = true)) ∧
  (∀ i, s.pc = .busy (.instr .prepare) i →
    (1 ≤ i → s.railCore = .on) ∧
    (s.cfg.hasReset = true → 4 ≤ i → s.lineReset = true) ∧
    ((powerOn s.cfg).length ≤ i → s.railSecond = .on))

/-- The block's invariant. -/
def Inv (s : State ε) : Prop :=
  LifecycleLegal s ∧ PositionLegal s ∧ DcLineLegal s ∧ SuppliesLegal s

/-! ## Invariants of the trace -/

/-- The least time between the event before and this event: a `DELAY(d)` takes at least `d` (10_state.md R35). -/
def leastGap (ev : Event ε) : Nat :=
  match ev with
  | .delay d => d
  | .regEn _ _ => 0
  | .regDis _ _ => 0
  | .regDisDefer _ _ _ => 0
  | .gpio _ _ => 0
  | .xfer9 _ _ => 0
  | .xfer8 _ _ => 0

/-- From time `t`, the stamps of the events rise as their gaps ask and end no later than `last`. -/
def Timed (t : Nat) (evs : List (Stamped ε)) (last : Nat) : Prop :=
  match evs with
  | [] => t ≤ last
  | e :: rest => t + leastGap e.ev ≤ e.time ∧ Timed e.time rest last

/-- The time stamps of a state's trace (10_state.md R35). -/
def TraceTimed (s : State ε) : Prop := Timed 0 s.trace s.now

/-- A byte list made of 1 to 3 pairs of the control byte and a command byte (40_transport.md R117). -/
def controlPairs (bs : List Byte) : Bool :=
  match bs with
  | [c0, _] => decide (c0 = 0xC0#8)
  | [c0, _, c1, _] => decide (c0 = 0xC0#8) && decide (c1 = 0xC0#8)
  | [c0, _, c1, _, c2, _] => decide (c0 = 0xC0#8) && decide (c1 = 0xC0#8) && decide (c2 = 0xC0#8)
  | _ => false

/-- Whether a transfer has 1, 2 or 3 words (20_memory.md R67). -/
def oneToThree (n : Nat) : Bool := decide (1 ≤ n) && decide (n ≤ 3)

/-- The events a configuration can produce: the supplies and lines it has, and the wire format of its transport
(40_transport.md R117, 41_power.md R141, 10_state.md R29). -/
def eventFits (cfg : Cfg) (ev : Event ε) : Bool :=
  match ev with
  | .regEn r _ => decide (r = .vcore) || decide (r = vsecond cfg)
  | .regDis r _ => decide (r = .vcore) || decide (r = vsecond cfg)
  | .regDisDefer r d _ => decide (r = .vcore) && decide (d = 100000)
  | .gpio .reset _ => cfg.hasReset
  | .gpio .dc _ => decide (cfg.transport = .spi4)
  | .delay d => decide (d = 3) || decide (d = 100000)
  | .xfer9 ws _ => decide (cfg.transport = .spi3) && oneToThree ws.length && ws.all (fun w => !w.getLsbD 8)
  | .xfer8 bs _ =>
    match cfg.transport with
    | .spi3 => false
    | .spi4 => oneToThree bs.length
    | .i2c => controlPairs bs

/-- Every event of the trace is one the configuration can produce. -/
def TraceFits (s : State ε) : Prop := ∀ e ∈ s.trace, eventFits s.cfg e.ev = true

/-- Where a trace stands in the SPI 4-wire pattern (`GPIO(DC,0)` `XFER8` `GPIO(DC,1)`)*. -/
inductive BracketPhase where
  | rest
  | asserted
  | sent
  deriving DecidableEq, Repr

/-- One event of the pattern; `none` where it breaks it. Between the three events of a bracket no other event may stand
(40_transport.md R112 (1)). -/
def bracketStep (ph : BracketPhase) (ev : Event ε) : Option BracketPhase :=
  match ph, ev with
  | .rest, .gpio .dc false => some .asserted
  | .rest, .gpio .dc true => none
  | .rest, .xfer8 _ _ => none
  | .rest, .gpio .reset _ => some .rest
  | .rest, .regEn _ _ => some .rest
  | .rest, .regDis _ _ => some .rest
  | .rest, .regDisDefer _ _ _ => some .rest
  | .rest, .delay _ => some .rest
  | .rest, .xfer9 _ _ => some .rest
  | .asserted, .xfer8 _ _ => some .sent
  | .sent, .gpio .dc true => some .rest
  | _, _ => none

/-- The pattern over a list of events. -/
def bracketScan (ph : BracketPhase) (evs : List (Stamped ε)) : Option BracketPhase :=
  match evs with
  | [] => some ph
  | e :: rest =>
    match bracketStep ph e.ev with
    | none => none
    | some ph' => bracketScan ph' rest

/-- The phase in which a place of a sequence is reached. -/
def Slot.phaseBefore (sl : Slot) : BracketPhase :=
  match sl.call with
  | .xfer8 _ => if sl.restoreDC then .asserted else .rest
  | .gpioSet .dc level => if level then .sent else .rest
  | .gpioSet .reset _ => .rest
  | .regEnable _ => .rest
  | .regDisable _ => .rest
  | .regDisableDeferred _ _ => .rest
  | .delay _ => .rest
  | .delayThenOff _ _ => .rest
  | .xfer9 _ => .rest

/-- The phase in which a state stands. -/
def State.bracketPhase (s : State ε) : BracketPhase :=
  match s.slotAtPc with
  | none => .rest
  | some sl => sl.phaseBefore

/-- On SPI 4-wire the trace is a run of whole brackets, and the sequencer knows where in one it stands
(40_transport.md R112, 20_memory.md R71). -/
def BracketsWhole (s : State ε) : Prop :=
  s.cfg.transport = .spi4 → bracketScan .rest s.trace = some s.bracketPhase

end Sys2Proof.Machine
end

