-- ==== Sys2Proof/Certificates/Slice0/Obligations.lean ====
section
/-! DEFINITION. The statements for the provers, from the numbered rules of spec/. The words they share stand first, in
namespace Sys2Proof.Spec, each written from its rule and not through the model's own sequences. -/

namespace Sys2Proof.Spec

open Sys2Proof Sys2Proof.Machine

/-- The environment answers `ok` to the next `n` calls and allocations, and then it has `rest` still to answer. -/
def Grants (s : State) (n : Nat) (rest : List Answer) : Prop :=
  ∃ oks : List Answer, s.answers = oks ++ rest ∧ oks.length = n ∧ ∀ a ∈ oks, a.res = Res.ok

/-- The events of the successful SEND of a command's bytes (40_transport.md R117). -/
def sendEvents (t : Transport) (bytes : List Byte) : List Event :=
  match t with
  | .spi3 => [.xfer9 (bytes.map (fun b => BitVec.ofNat 9 b.toNat)) .ok]
  | .spi4 => [.gpio .dc false, .xfer8 bytes .ok, .gpio .dc true]
  | .i2c => [.xfer8 (bytes.flatMap (fun b => [0xC0#8, b])) .ok]

/-- The 9-bit words that the transfers of a sequence carry, in order (20_memory.md R63). -/
def words9 (slots : List Slot) : List Word9 :=
  slots.flatMap (fun sl =>
    match sl.call with
    | .xfer9 ws => ws
    | _ => [])

/-- How often a successful SEND asks the environment: once for the buffer, once for each downward call (R114, R210). -/
def sendDraws (t : Transport) : Nat :=
  match t with
  | .spi3 => 2
  | .spi4 => 4
  | .i2c => 2

/-- The events of a SEND whose transfer fails with `e`: the attempt, and on SPI 4-wire the restored line (R112, R115). -/
def failedEvents (t : Transport) (bytes : List Byte) (e : ErrVal) : List Event :=
  match t with
  | .spi3 => [.xfer9 (bytes.map (fun b => BitVec.ofNat 9 b.toNat)) (.err e)]
  | .spi4 => [.gpio .dc false, .xfer8 bytes (.err e), .gpio .dc true]
  | .i2c => [.xfer8 (bytes.flatMap (fun b => [0xC0#8, b])) (.err e)]

/-- How often a SEND asks the environment before its transfer. -/
def drawsBeforeTransfer (t : Transport) : Nat :=
  match t with
  | .spi3 => 1
  | .spi4 => 2
  | .i2c => 1

/-- How often a SEND asks the environment after a failed transfer: on SPI 4-wire the line is restored (R112). -/
def drawsAfterFailure (t : Transport) : Nat :=
  match t with
  | .spi3 => 0
  | .spi4 => 1
  | .i2c => 0

/-- The environment answers `ok` to the next `n` calls and allocations and `e` to the one after; `rest` is left when
the failed call's own line has been restored. -/
def FailsAfter (s : State) (n : Nat) (e : ErrVal) (restores : Nat) (rest : List Answer) : Prop :=
  ∃ (a : Answer) (back : List Answer), a.res = Res.err e ∧ back.length = restores ∧
    Grants s n (a :: back ++ rest)

/-- The supply beside the core logic (41_power.md R131). -/
def secondSupply (cfg : Cfg) : Rail :=
  match cfg.useChargePump with
  | true => .vcp
  | false => .vpanel

/-- The events of the reset pulse, if there is a line (41_power.md R133, R135). -/
def pulseEvents (cfg : Cfg) : List Event :=
  match cfg.hasReset with
  | true => [.gpio .reset false, .delay 3, .gpio .reset true]
  | false => []

/-- The events of a successful `power_on` (41_power.md R132). -/
def powerOnEvents (cfg : Cfg) : List Event :=
  .regEn .vcore .ok :: pulseEvents cfg ++ [.regEn (secondSupply cfg) .ok]

/-- The number of calls of a successful `power_on` (44_lifecycle.md R210). -/
def powerOnCalls (cfg : Cfg) : Nat :=
  match cfg.hasReset with
  | true => 5
  | false => 2

/-- A flag as a number (00_scope.md R9). -/
def bit (f : Bool) : Nat :=
  match f with
  | true => 1
  | false => 0

/-- The bytes of the twelve initialisation commands as numbers, from the settings (42_regdecode.md R151 to R162).
Subtraction wraps modulo 2^8 or 2^4 (R150). -/
def initNumbers (opc : Opcodes) (x : Settings) : List (List Nat) :=
  [[opc.muxRatio.toNat, (x.height.toNat + 255) % 256],
   [opc.displayOffset.toNat, x.comOffset.toNat % 256],
   [opc.startLine.toNat ||| x.displayStartLine.toNat % 128],
   [if x.segRemap = true then opc.segRemapOn.toNat else opc.segRemapOff.toNat],
   [if x.comScanInvert = true then opc.comScanInvert.toNat else opc.comScanNormal.toNat],
   [opc.comPins.toNat, 2 + 16 * (1 - bit x.comSeqPinCfg) + 32 * bit x.comLrRemap],
   [opc.contrast.toNat, x.contrast.toNat],
   [opc.precharge.toNat, x.prechargePhase1.toNat % 16 + 16 * (x.prechargePhase2.toNat % 16)],
   [opc.vcomh.toNat, x.vcomhDeselect.toNat % 256],
   [opc.entireOn.toNat],
   [if x.inverseDisplay = true then opc.inverse.toNat else opc.normal.toNat],
   [opc.clock.toNat, (x.clockDivideRatio.toNat + 15) % 16 + 16 * (x.oscillatorFrequency.toNat % 16)]]

/-- The same as bytes. -/
def initBytes (opc : Opcodes) (x : Settings) : List (List Byte) :=
  (initNumbers opc x).map (fun ns => ns.map (BitVec.ofNat 8))

/-- The commands of the enable sequence (43_protocol.md R182). -/
def enableBytes (cfg : Cfg) : List (List Byte) :=
  match cfg.useChargePump with
  | true => [[cfg.opc.chargePump, cfg.opc.parCpEnable], [cfg.opc.displayOn]]
  | false => [[cfg.opc.displayOn]]

/-- The commands of the disable sequence (43_protocol.md R185). -/
def disableBytes (cfg : Cfg) : List (List Byte) :=
  match cfg.useChargePump with
  | true => [[cfg.opc.displayOff], [cfg.opc.chargePump, cfg.opc.parCpDisable]]
  | false => [[cfg.opc.displayOff]]

/-- The events of sending commands one after another. -/
def sendAll (t : Transport) (cmds : List (List Byte)) : List Event := cmds.flatMap (sendEvents t)

/-- The bytes of a controller command, operand by operand (30_encoding.md R82, R88, R90; 42_regdecode.md R163 to R166);
none for an instruction of another layer, and none for a charge-pump command in the other topology, where none is sent
(41_power.md R141; PumpCommandElsewhere says what it does there). -/
def tableBytes (cfg : Cfg) (i : Instr) : Option (List Byte) :=
  match i with
  | .setMuxRatio m => some [cfg.opc.muxRatio, m]
  | .setDisplayOffset o => some [cfg.opc.displayOffset, o]
  | .setStartLine line => some [BitVec.ofNat 8 (cfg.opc.startLine.toNat ||| line.toNat)]
  | .setSegRemap false => some [cfg.opc.segRemapOff]
  | .setSegRemap true => some [cfg.opc.segRemapOn]
  | .setComScanDir false => some [cfg.opc.comScanNormal]
  | .setComScanDir true => some [cfg.opc.comScanInvert]
  | .setComPins false false => some [cfg.opc.comPins, 0x12#8]
  | .setComPins false true => some [cfg.opc.comPins, 0x02#8]
  | .setComPins true false => some [cfg.opc.comPins, 0x32#8]
  | .setComPins true true => some [cfg.opc.comPins, 0x22#8]
  | .setContrastCmd c => some [cfg.opc.contrast, c]
  | .setPrecharge phase2 phase1 => some [cfg.opc.precharge, BitVec.ofNat 8 (16 * phase2.toNat + phase1.toNat)]
  | .setVcomh v => some [cfg.opc.vcomh, v]
  | .entireDisplayOn => some [cfg.opc.entireOn]
  | .setNormalInverse false => some [cfg.opc.normal]
  | .setNormalInverse true => some [cfg.opc.inverse]
  | .setClock frequency divider => some [cfg.opc.clock, BitVec.ofNat 8 (16 * frequency.toNat + divider.toNat)]
  | .chargePumpEnable => if cfg.useChargePump = true then some [cfg.opc.chargePump, cfg.opc.parCpEnable] else none
  | .displayOn => some [cfg.opc.displayOn]
  | .displayOff => some [cfg.opc.displayOff]
  | .chargePumpDisable => if cfg.useChargePump = true then some [cfg.opc.chargePump, cfg.opc.parCpDisable] else none
  | .prepare => none
  | .enable => none
  | .disable => none
  | .unprepare => none
  | .setContrast _ => none
  | .getContrast => none
  | .w9 _ => none
  | .w8 _ => none
  | .w16 _ => none

/-- The table of 44_lifecycle.md R200: whether an operation is admitted when (`prepared`, `enabled`) are these. Commands
and wire words are no host operations; the encoder they go to reads no flag (40_transport.md R110). -/
def admittedWhen (i : Instr) (prepared enabled : Bool) : Bool :=
  match i with
  | .prepare => decide ((prepared, enabled) = (false, false))
  | .enable => decide ((prepared, enabled) = (true, false))
  | .disable => decide ((prepared, enabled) = (true, true))
  | .unprepare => decide ((prepared, enabled) = (true, false))
  | _ => true

/-- The level of the data/command line when no transfer is in progress, where it exists; elsewhere it keeps its value
(40_transport.md R112). -/
def dcAtRest (s : State) : Bool :=
  match s.cfg.transport with
  | .spi4 => true
  | .spi3 => s.lineDC
  | .i2c => s.lineDC

/-- The level of the reset line after a pulse, where it exists; elsewhere it keeps its value (41_power.md R133). -/
def resetAfterPulse (s : State) : Bool :=
  match s.cfg.hasReset with
  | true => true
  | false => s.lineReset

/-- The state after an operation that has ended at time `n`: the events with their stamps are on the trace, `rest` is
left of the answers, the response is given. Everything else is as in `s`. -/
def ended (s : State) (evs : List Stamped) (n : Nat) (rest : List Answer) (r : Response) : State :=
  { s with
    pc := .idle
    trace := s.trace ++ evs
    now := n
    answers := rest
    responses := s.responses ++ [⟨n, r⟩] }

/-- An operation as a whole, from its admission to its end or as far as the environment has answered: `exec` of an
instruction, SEND of a raw command. -/
def begins (op : Operation) (s : State) : Host.Outcome State Fault Refusal :=
  match op with
  | .instr i => exec i s
  | .raw c => execRaw c s

/-- `op` leads from `s` to `t`: as a whole, or by its admission alone, or by a step that goes on with it where it is in
progress (10_state.md R34). -/
def Runs (op : Operation) (s t : State) : Prop :=
  begins op s = .next t ∨ accept op s = .next t ∨ ∃ k, s.pc = .busy op k ∧ step s = .next t

/-- The settings after the admission of an instruction: `set_contrast(b)` has stored `b` (43_protocol.md R186). -/
def storedBy (i : Instr) (x : Settings) : Settings :=
  match i with
  | .setContrast b => { x with contrast := b }
  | _ => x

/-- A wire word of another transport than `t` (30_encoding.md R94, R95). -/
def foreignWord (i : Instr) (t : Transport) : Bool :=
  match i with
  | .w9 _ => decide (t ≠ .spi3)
  | .w8 _ => decide (t ≠ .spi4)
  | .w16 _ => decide (t ≠ .i2c)
  | _ => false

/-- What the admission of an instruction leaves: the sequencer before its first call, nothing sent; or the misuse
(10_state.md R30, R34, 60_exceptions.md R225). -/
def taken (i : Instr) (s : State) : State :=
  if admittedWhen i s.prepared s.enabled = true then
    { s with settings := storedBy i s.settings, pc := .busy (.instr i) 0 }
  else ended { s with fault := true } [] s.now s.answers (.fMisuse i s.prepared s.enabled)

/-- The flags (`prepared`, `enabled`) after the completion action of an operation (44_lifecycle.md R201 to R209). -/
def flagsAfter (op : Operation) (prepared enabled : Bool) : Bool × Bool :=
  match op with
  | .instr .prepare => (true, enabled)
  | .instr .enable => (prepared, true)
  | .instr .disable => (prepared, false)
  | .instr .unprepare => (false, enabled)
  | _ => (prepared, enabled)

/-- The error a downward call is answered with when its result is `Err(e)`; none for a call that cannot fail (00_scope.md
R11, 60_exceptions.md R222, R223). -/
def failureOf (c : Call) (e : ErrVal) : Option Response :=
  match c with
  | .regEnable _ => some (.eReg e)
  | .regDisable _ => some (.eReg e)
  | .regDisableDeferred _ _ => some (.eReg e)
  | .gpioSet _ _ => none
  | .delay _ => none
  | .delayThenOff _ _ => none
  | .xfer9 _ => some (.eBus e)
  | .xfer8 _ => some (.eBus e)

/-- The answers that are there for the call of a place, once its buffer is granted; none if the buffer is refused. -/
def callAnswers (sl : Slot) (answers : List Answer) : Option (List Answer) :=
  if sl.alloc = true then
    match answers with
    | [] => some []
    | a :: rest =>
      match a.res with
      | .ok => some rest
      | .err _ => none
  else some answers

/-- A failed transfer must restore the data/command line first, and the environment has not answered that yet. -/
def restoreMissing (sl : Slot) (rest : List Answer) : Bool :=
  match sl.call with
  | .xfer8 _ => sl.restoreDC && rest.isEmpty
  | .xfer9 _ => sl.restoreDC && rest.isEmpty
  | _ => false

/-- The response of an operation all of whose calls have succeeded (44_lifecycle.md R201 to R209, R211). -/
def answerOf (op : Operation) (s : State) : Response :=
  match op with
  | .instr .getContrast => .okValue s.settings.contrast
  | _ => .ok

/-- From `s` to `u`: the completion of `op`, its flag write and its response (10_state.md R31). -/
def Completed (s u : State) (op : Operation) : Prop :=
  u.pc = .idle ∧ u.responses = s.responses ++ [⟨u.now, answerOf op s⟩] ∧
    (u.prepared, u.enabled) = flagsAfter op s.prepared s.enabled

/-- From `s`, busy with `op` at index `k` of `n`, to `u`: the next index, or, after the last, the completion (10_state.md
R31). -/
def MovesOn (s u : State) (op : Operation) (k n : Nat) : Prop :=
  if k + 1 < n then
    u.pc = .busy op (k + 1) ∧ u.responses = s.responses ∧ u.prepared = s.prepared ∧ u.enabled = s.enabled
  else Completed s u op

/-- From `s` to `u`: the operation ends with an error and without a flag write (10_state.md R31). -/
def EndsWith (s u : State) (r : Response) : Prop :=
  u.pc = .idle ∧ u.responses = s.responses ++ [⟨u.now, r⟩] ∧ u.prepared = s.prepared ∧ u.enabled = s.enabled

end Sys2Proof.Spec

open Sys2Proof Sys2Proof.Machine Sys2Proof.Spec

/-! ## Encoding -/

/-- R80 to R93: no bit of an encoding is dropped. With the default opcodes, which the spec takes from general
knowledge (log entry 12). -/
def Obligations.DecodeOfEncode : Prop :=
  ∀ i : Instr, i.wellFormed = true → decode defaultOpcodes (encode defaultOpcodes i) = .ok i

/-- R110, R84, R86: whatever the opcode table, the bytes of a request that decodes to a command or to a wire word are
exactly those the instruction encodes to. -/
def Obligations.EncodeOfDecode : Prop :=
  ∀ (opc : Opcodes) (r : Request) (i : Instr), i.layer ≠ .hostOperation → decode opc r = .ok i → encode opc i = r

/-- R81: the selector values and what each names, `arg` read only by `set_contrast`; R92: 6 and 7 name nothing. The
request word is the spec's own (decision D26). -/
def Obligations.RequestWordSelectors : Prop :=
  ∀ (opc : Opcodes) (arg : Byte),
    decode opc (.host (0#3 ++ arg)) = .ok .prepare ∧
    decode opc (.host (1#3 ++ arg)) = .ok .enable ∧
    decode opc (.host (2#3 ++ arg)) = .ok .disable ∧
    decode opc (.host (3#3 ++ arg)) = .ok .unprepare ∧
    decode opc (.host (4#3 ++ arg)) = .ok (.setContrast arg) ∧
    decode opc (.host (5#3 ++ arg)) = .ok .getContrast ∧
    decode opc (.host (6#3 ++ arg)) = .error .reservedSelector ∧
    decode opc (.host (7#3 ++ arg)) = .error .reservedSelector

/-- Words written out from the encodings of the spec (R81, R84, R86, R88, R90), with the default opcodes (log
entry 12). -/
def Obligations.SpecWordsDecode : Prop :=
  decode defaultOpcodes (.host 0b10011001000#11) = .ok (.setContrast 200#8) ∧
  decode defaultOpcodes (.command (.c1 0b11011010#8 0b00110010#8)) = .ok (.setComPins true false) ∧
  decode defaultOpcodes (.command (.c1 0b11010101#8 0b10000000#8)) = .ok (.setClock 8#4 0#4) ∧
  decode defaultOpcodes (.command (.c0 0b01000101#8)) = .ok (.setStartLine 5#7) ∧
  decode defaultOpcodes (.command (.c0 0b11001000#8)) = .ok (.setComScanDir true) ∧
  decode defaultOpcodes (.word9 0b010101111#9) = .ok (.w9 0xAF#8) ∧
  decode defaultOpcodes (.word9 0b110101111#9) = .error .dataTag ∧
  decode defaultOpcodes (.word16 0b1100000010101111#16) = .ok (.w16 0xAF#8) ∧
  decode defaultOpcodes (.word16 0b1000000010101111#16) = .error .otherControlByte

/-- R82: as a number in whole bytes, the word of every well-formed host operation, command and W16 word is read back.
A W9 word shares its number with `prepare` and a W8 word with a command (log entry 14). -/
def Obligations.TableWordsDecode : Prop :=
  ∀ i : Instr, i.wellFormed = true → (∀ b, i ≠ .w9 b) → (∀ b, i ≠ .w8 b) →
    decodeTableWord ((requestBits (encode defaultOpcodes i) + 7) / 8 * 8)
      (requestNumber (encode defaultOpcodes i)) = some i

/-! ## The register-configuration decoder -/

/-- R151 to R162, R167: the twelve initialisation commands are these bytes, in this order, for any opcode table and any
settings. The wraps at height 0 and clock ratio 0 and the cut of wide settings are the spec's own choice (R150, decisions
D23, D24; log entry 33), and so are the place of the start line and the flag value that selects each opcode (D4, D5; log
entry 29). -/
def Obligations.InitialisationParameters : Prop :=
  ∀ (opc : Opcodes) (x : Settings),
    (initCmds x).length = 12 ∧
    (initCmds x).map (fun i => (commandBytes opc i).map BitVec.toNat) = initNumbers opc x

/-- R22, R167: `width`, `width_mm` and `height_mm` change nothing an instruction sends, answers or writes. -/
def Obligations.UnreadSettings : Prop :=
  ∀ (i : Instr) (s t : State) (w wm hm : Numeric), exec i s = .next t →
    exec i { s with settings := { s.settings with width := w, widthMm := wm, heightMm := hm } } =
      .next { t with settings := { t.settings with width := w, widthMm := wm, heightMm := hm } }

/-! ## The transport encoder -/

/-- R84: a command on SPI 3-wire is one 9-bit word for each of its bytes, parameters included; the word of a byte is
the byte with tag 0 in bit 8; and no sequence of any operation produces a word with tag 1. -/
def Obligations.NineBitWords : Prop :=
  (∀ c : Command, words9 (send .spi3 c) = c.bytes.map (fun b => BitVec.ofNat 9 b.toNat)) ∧
  (∀ (opc : Opcodes) (b : Byte), ∃ w : Word9, encode opc (.w9 b) = .word9 w ∧
    w.getLsbD 8 = false ∧ (∀ k, k < 8 → w.getLsbD k = b.getLsbD k) ∧ w.toNat = b.toNat ∧ w.toNat ≤ 0x0FF) ∧
  (∀ (cfg : Cfg) (x : Settings) (op : Operation), ∀ w ∈ words9 (sequenceOf cfg x op), w.getLsbD 8 = false)

/-- R111: a command on SPI 3-wire is one transfer (decision D29) of 9-bit words with tag 0, and nothing else changes. How
the answers are drawn and when the stamps are taken are the model's choice (log entries 3, 7); that a command runs by
itself is too (log entry 21). One statement for all sixteen commands: SET_MUX_RATIO, SET_DISPLAY_OFFSET, SET_START_LINE, SET_SEG_REMAP, SET_COM_SCAN_DIR,
SET_COM_PINS, SET_CONTRAST, SET_PRECHARGE, SET_VCOMH, ENTIRE_DISPLAY_ON, SET_NORMAL_INVERSE, SET_CLOCK,
CHARGE_PUMP_ENABLE, DISPLAY_ON, DISPLAY_OFF, CHARGE_PUMP_DISABLE (the two charge-pump commands with the charge pump). -/
def Obligations.CommandOnSpi3 : Prop :=
  ∀ (i : Instr) (bytes : List Byte) (s : State) (a b : Answer) (rest : List Answer),
    tableBytes s.cfg i = some bytes → s.cfg.transport = .spi3 → s.pc = .idle →
    s.answers = a :: b :: rest → a.res = .ok → b.res = .ok →
    exec i s = .next (ended s
      [⟨s.now + a.took + b.took, .xfer9 (bytes.map (fun c => BitVec.ofNat 9 c.toNat)) .ok⟩]
      (s.now + a.took + b.took) rest .ok)

/-- R112: a command on SPI 4-wire is one transfer inside a bracket of the data/command line, which ends at 1. All
sixteen commands; the model's choices are those named at CommandOnSpi3. -/
def Obligations.CommandOnSpi4 : Prop :=
  ∀ (i : Instr) (bytes : List Byte) (s : State) (a b c d : Answer) (rest : List Answer),
    tableBytes s.cfg i = some bytes → s.cfg.transport = .spi4 → s.pc = .idle →
    s.answers = a :: b :: c :: d :: rest → a.res = .ok → c.res = .ok →
    exec i s = .next (ended { s with lineDC := true }
      [⟨s.now + a.took + b.took, .gpio .dc false⟩,
       ⟨s.now + a.took + b.took + c.took, .xfer8 bytes .ok⟩,
       ⟨s.now + a.took + b.took + c.took + d.took, .gpio .dc true⟩]
      (s.now + a.took + b.took + c.took + d.took) rest .ok)

/-- R113: a command on I2C is one transaction, the control byte 0xC0 before every byte. All sixteen commands; the
model's choices are those named at CommandOnSpi3, and bits 5:0 of the control byte are decision D6. -/
def Obligations.CommandOnI2c : Prop :=
  ∀ (i : Instr) (bytes : List Byte) (s : State) (a b : Answer) (rest : List Answer),
    tableBytes s.cfg i = some bytes → s.cfg.transport = .i2c → s.pc = .idle →
    s.answers = a :: b :: rest → a.res = .ok → b.res = .ok →
    exec i s = .next (ended s
      [⟨s.now + a.took + b.took, .xfer8 (bytes.flatMap (fun c => [0xC0#8, c])) .ok⟩]
      (s.now + a.took + b.took) rest .ok)

/-- R114: a refused buffer is E_NOMEM before any output, on every transport: no event, no line moved. That a command is
answered by itself is log entry 21; that any SEND may be refused is decision D20; when the stamp of the answer is taken is
log entry 7. -/
def Obligations.AllocationRefused : Prop :=
  ∀ (i : Instr) (bytes : List Byte) (s : State) (a : Answer) (rest : List Answer) (e : ErrVal),
    tableBytes s.cfg i = some bytes → s.pc = .idle → s.answers = a :: rest → a.res = .err e →
    exec i s = .next (ended s [] (s.now + a.took) rest .eNomem)

/-- R115: when the transfer of a command returns `Err(e)`, the attempt is on the trace once, the response is `E_BUS(e)`
with the same `e`, and on SPI 4-wire the data/command line has been restored before it is given. All sixteen commands.
No clause says what reached the wire. That a command is answered by itself is log entry 21, that the restored line draws
an answer is log entry 25. -/
def Obligations.TransferFails : Prop :=
  ∀ (i : Instr) (bytes : List Byte) (s : State) (e : ErrVal) (rest : List Answer),
    tableBytes s.cfg i = some bytes → s.pc = .idle →
    FailsAfter s (drawsBeforeTransfer s.cfg.transport) e (drawsAfterFailure s.cfg.transport) rest →
    ∃ (evs : List Stamped) (n : Nat),
      evs.map Stamped.ev = failedEvents s.cfg.transport bytes e ∧
      exec i s = .next (ended { s with lineDC := dcAtRest s } evs n rest (.eBus e))

/-- R111, R112, R113 for one byte: the wire words W9, W8 and W16 on their own transports. That a wire word is a transfer of
its own, without a buffer, is the model's choice (log entries 16, 21). R94, R95: on another transport a wire word has no
meaning, and the model refuses it (log entry 16). -/
def Obligations.WireWordsRun : Prop :=
  ∀ (byte : Byte) (s : State), s.pc = .idle →
    (∀ (a : Answer) (rest : List Answer), s.answers = a :: rest →
      (s.cfg.transport = .spi3 → a.res = .ok →
        exec (.w9 byte) s = .next (ended s [⟨s.now + a.took, .xfer9 [BitVec.ofNat 9 byte.toNat] .ok⟩]
          (s.now + a.took) rest .ok)) ∧
      (s.cfg.transport = .i2c → a.res = .ok →
        exec (.w16 byte) s = .next (ended s [⟨s.now + a.took, .xfer8 [0xC0#8, byte] .ok⟩]
          (s.now + a.took) rest .ok)) ∧
      (∀ (b c : Answer) (rest' : List Answer), s.cfg.transport = .spi4 → rest = b :: c :: rest' → b.res = .ok →
        exec (.w8 byte) s = .next (ended { s with lineDC := true }
          [⟨s.now + a.took, .gpio .dc false⟩, ⟨s.now + a.took + b.took, .xfer8 [byte] .ok⟩,
           ⟨s.now + a.took + b.took + c.took, .gpio .dc true⟩]
          (s.now + a.took + b.took + c.took) rest' .ok))) ∧
    (s.cfg.transport ≠ .spi3 → exec (.w9 byte) s = .refused .wrongTransport) ∧
    (s.cfg.transport ≠ .spi4 → exec (.w8 byte) s = .refused .wrongTransport) ∧
    (s.cfg.transport ≠ .i2c → exec (.w16 byte) s = .refused .wrongTransport)

/-- R83, R110, R117: the encoder takes any opcode byte with any two parameters (format C2). -/
def Obligations.TwoParameterForm : Prop :=
  ∀ c p q : Byte,
    (send .spi3 (.c2 c p q)).map Slot.call =
      [.xfer9 [BitVec.ofNat 9 c.toNat, BitVec.ofNat 9 p.toNat, BitVec.ofNat 9 q.toNat]] ∧
    (send .spi4 (.c2 c p q)).map Slot.call = [.gpioSet .dc false, .xfer8 [c, p, q], .gpioSet .dc true] ∧
    (send .i2c (.c2 c p q)).map Slot.call = [.xfer8 [0xC0#8, c, 0xC0#8, p, 0xC0#8, q]]

/-- R83, R110, R117: a command whose bytes are no row of the opcode table is sent as it is, with any opcode byte and zero,
one or two parameters: the step that takes it admits it, and the one to three calls after it end with `Ok` when all is
answered, `E_BUS(e)` when the transfer fails, `E_NOMEM` before any output when the buffer is refused. That such a command
can be asked for by itself is the model's choice (log entry 34). -/
def Obligations.RawCommandRuns : Prop :=
  ∀ (c : Command) (s : State) (more : List Request) (e : ErrVal) (rest : List Answer),
    s.pc = .idle → s.requests = .command c :: more →
    decode s.cfg.opc (.command c) = .error .noSuchCommand →
    step s = .next { s with requests := more, pc := .busy (.raw c) 0 } ∧
    (Grants s (sendDraws s.cfg.transport) rest → ∃ (evs : List Stamped) (n k : Nat), k ≤ 4 ∧
      evs.map Stamped.ev = sendEvents s.cfg.transport c.bytes ∧
      after k s = .next (ended { s with requests := more, lineDC := dcAtRest s } evs n rest .ok)) ∧
    (FailsAfter s (drawsBeforeTransfer s.cfg.transport) e (drawsAfterFailure s.cfg.transport) rest →
      ∃ (evs : List Stamped) (n k : Nat), k ≤ 4 ∧
        evs.map Stamped.ev = failedEvents s.cfg.transport c.bytes e ∧
        after k s = .next (ended { s with requests := more, lineDC := dcAtRest s } evs n rest (.eBus e))) ∧
    (FailsAfter s 0 e 0 rest → ∃ n k, k ≤ 4 ∧
      after k s = .next (ended { s with requests := more } [] n rest .eNomem))

/-- R141: without the charge pump CHARGE_PUMP_ENABLE and CHARGE_PUMP_DISABLE send nothing. That each then answers `Ok` is
the model's choice (log entry 35). -/
def Obligations.PumpCommandElsewhere : Prop :=
  ∀ (i : Instr) (s : State), i = .chargePumpEnable ∨ i = .chargePumpDisable → s.cfg.useChargePump = false →
    s.pc = .idle → exec i s = .next (ended s [] s.now s.answers .ok)

/-- R116, R110 (flags written: none): a command, a raw command or a wire word, whatever becomes of it, leaves the
configuration, the settings, the flags, the rails, the reset line and the requests as they were; and, from a legal
position, the data/command line where the transport is not SPI 4-wire. -/
def Obligations.CommandFrame : Prop :=
  ∀ (op : Operation) (s t : State), op.layer ≠ .hostOperation → Runs op s t →
    t.cfg = s.cfg ∧ t.settings = s.settings ∧ t.prepared = s.prepared ∧ t.enabled = s.enabled ∧ t.fault = s.fault ∧
    t.railCore = s.railCore ∧ t.railSecond = s.railSecond ∧ t.lineReset = s.lineReset ∧ t.requests = s.requests ∧
    (PositionLegal s → s.cfg.transport ≠ .spi4 → t.lineDC = s.lineDC)

/-! ## Lifecycle operations -/

/-- R201, R132, R135, R180, R187: `prepare` in UNPREPARED, everything answered `ok`. -/
def Obligations.PrepareCompletes : Prop :=
  ∀ (s : State) (rest : List Answer), s.pc = .idle → s.prepared = false → s.enabled = false →
    Grants s (powerOnCalls s.cfg + 12 * sendDraws s.cfg.transport) rest →
    ∃ (evs : List Stamped) (n : Nat),
      evs.map Stamped.ev =
        powerOnEvents s.cfg ++ sendAll s.cfg.transport (initBytes s.cfg.opc s.settings) ∧
      exec .prepare s = .next (ended
        { s with prepared := true, railCore := .on, railSecond := .on, lineReset := resetAfterPulse s,
                 lineDC := dcAtRest s } evs n rest .ok)

/-- R134: a failed enable of the core-logic supply ends `prepare` before the pulse; a failed enable of the second
supply ends it after the pulse with the core-logic supply on. Neither failing rail's state changes. -/
def Obligations.PowerOnFailures : Prop :=
  ∀ (s : State), s.pc = .idle → s.prepared = false → s.enabled = false →
    (∀ (a : Answer) (rest : List Answer) (e : ErrVal), s.answers = a :: rest → a.res = .err e →
      exec .prepare s = .next (ended s [⟨s.now + a.took, .regEn .vcore (.err e)⟩] (s.now + a.took) rest (.eReg e))) ∧
    (∀ (a : Answer) (rest : List Answer) (e : ErrVal),
      Grants s (powerOnCalls s.cfg - 1) (a :: rest) → a.res = .err e →
      ∃ (evs : List Stamped) (n : Nat),
        evs.map Stamped.ev = .regEn .vcore .ok :: pulseEvents s.cfg ++ [.regEn (secondSupply s.cfg) (.err e)] ∧
        exec .prepare s = .next (ended { s with railCore := .on, lineReset := resetAfterPulse s } evs n rest (.eReg e)))

/-- R181, R115, R206, R233: if the `k`-th SEND of `init` raises, because its transfer fails or because its buffer is
refused, the commands after it are not sent, those before it are not undone, and the error is answered; the block stays
UNPREPARED with both supplies on. The second supply is switched in the charge-pump topology too (decision D15, log entry
30), commands 3, 4, 5 and 11 have the bytes of decisions D4 and D5 (log entry 29), the restored data/command line draws an
answer of its own (decision D21, log entry 25); how answers are drawn is log entry 3, when stamps are taken log entry 7. -/
def Obligations.InitStopsAtFirstFailure : Prop :=
  ∀ (s : State) (k : Nat) (bad : List Byte) (e : ErrVal) (rest : List Answer),
    s.pc = .idle → s.prepared = false → s.enabled = false →
    (initBytes s.cfg.opc s.settings)[k]? = some bad →
    (FailsAfter s (powerOnCalls s.cfg + k * sendDraws s.cfg.transport + drawsBeforeTransfer s.cfg.transport) e
        (drawsAfterFailure s.cfg.transport) rest →
      ∃ (evs : List Stamped) (n : Nat),
        evs.map Stamped.ev = powerOnEvents s.cfg ++
          sendAll s.cfg.transport ((initBytes s.cfg.opc s.settings).take k) ++ failedEvents s.cfg.transport bad e ∧
        exec .prepare s = .next (ended
          { s with railCore := .on, railSecond := .on, lineReset := resetAfterPulse s, lineDC := dcAtRest s }
          evs n rest (.eBus e))) ∧
    (FailsAfter s (powerOnCalls s.cfg + k * sendDraws s.cfg.transport) e 0 rest →
      ∃ (evs : List Stamped) (n : Nat),
        evs.map Stamped.ev = powerOnEvents s.cfg ++
          sendAll s.cfg.transport ((initBytes s.cfg.opc s.settings).take k) ∧
        exec .prepare s = .next (ended
          { s with railCore := .on, railSecond := .on, lineReset := resetAfterPulse s,
                   lineDC := if k = 0 then s.lineDC else dcAtRest s } evs n rest .eNomem))

/-- R202, R182, R183, R184: `enable` in PREPARED, everything answered `ok`. The two-byte form of the charge-pump command
is decision D3 (log entry 29); that a `GpioSet` and a `Delay` each use an answer is log entry 3, when stamps are taken is
log entry 7. -/
def Obligations.EnableCompletes : Prop :=
  ∀ (s : State) (rest : List Answer), s.pc = .idle → s.prepared = true → s.enabled = false →
    Grants s ((enableBytes s.cfg).length * sendDraws s.cfg.transport + 1) rest →
    ∃ (evs : List Stamped) (n : Nat),
      evs.map Stamped.ev = sendAll s.cfg.transport (enableBytes s.cfg) ++ [.delay 100000] ∧
      exec .enable s = .next (ended { s with enabled := true, lineDC := dcAtRest s } evs n rest .ok)

/-- R203, R185: `disable` in ENABLED, everything answered `ok`. -/
def Obligations.DisableCompletes : Prop :=
  ∀ (s : State) (rest : List Answer), s.pc = .idle → s.prepared = true → s.enabled = true →
    Grants s ((disableBytes s.cfg).length * sendDraws s.cfg.transport) rest →
    ∃ (evs : List Stamped) (n : Nat),
      evs.map Stamped.ev = sendAll s.cfg.transport (disableBytes s.cfg) ∧
      exec .disable s = .next (ended { s with enabled := false, lineDC := dcAtRest s } evs n rest .ok)

/-- R182, R206: when the `k`-th command of `enable` fails, its transfer or its buffer, the commands after it are not sent,
there is no settle delay, and the block stays PREPARED (decision D16). -/
def Obligations.EnableStopsAtFirstError : Prop :=
  ∀ (s : State) (k : Nat) (bad : List Byte) (e : ErrVal) (rest : List Answer),
    s.pc = .idle → s.prepared = true → s.enabled = false → (enableBytes s.cfg)[k]? = some bad →
    (FailsAfter s (k * sendDraws s.cfg.transport + drawsBeforeTransfer s.cfg.transport) e
        (drawsAfterFailure s.cfg.transport) rest →
      ∃ (evs : List Stamped) (n : Nat),
        evs.map Stamped.ev = sendAll s.cfg.transport ((enableBytes s.cfg).take k) ++
          failedEvents s.cfg.transport bad e ∧
        exec .enable s = .next (ended { s with lineDC := dcAtRest s } evs n rest (.eBus e))) ∧
    (FailsAfter s (k * sendDraws s.cfg.transport) e 0 rest →
      ∃ (evs : List Stamped) (n : Nat),
        evs.map Stamped.ev = sendAll s.cfg.transport ((enableBytes s.cfg).take k) ∧
        exec .enable s = .next (ended
          { s with lineDC := if k = 0 then s.lineDC else dcAtRest s } evs n rest .eNomem))

/-- R185, R206: when the `k`-th command of `disable` fails, its transfer or its buffer, the commands after it are not sent
and the block stays ENABLED (decision D16). -/
def Obligations.DisableStopsAtFirstError : Prop :=
  ∀ (s : State) (k : Nat) (bad : List Byte) (e : ErrVal) (rest : List Answer),
    s.pc = .idle → s.prepared = true → s.enabled = true → (disableBytes s.cfg)[k]? = some bad →
    (FailsAfter s (k * sendDraws s.cfg.transport + drawsBeforeTransfer s.cfg.transport) e
        (drawsAfterFailure s.cfg.transport) rest →
      ∃ (evs : List Stamped) (n : Nat),
        evs.map Stamped.ev = sendAll s.cfg.transport ((disableBytes s.cfg).take k) ++
          failedEvents s.cfg.transport bad e ∧
        exec .disable s = .next (ended { s with lineDC := dcAtRest s } evs n rest (.eBus e))) ∧
    (FailsAfter s (k * sendDraws s.cfg.transport) e 0 rest →
      ∃ (evs : List Stamped) (n : Nat),
        evs.map Stamped.ev = sendAll s.cfg.transport ((disableBytes s.cfg).take k) ∧
        exec .disable s = .next (ended
          { s with lineDC := if k = 0 then s.lineDC else dcAtRest s } evs n rest .eNomem))

/-- R204, R136, R137: `unprepare` in PREPARED, everything answered `ok`: both supplies off, the reset line untouched. -/
def Obligations.UnprepareCompletes : Prop :=
  ∀ (s : State) (a b c : Answer) (rest : List Answer), s.pc = .idle → s.prepared = true → s.enabled = false →
    s.answers = a :: b :: c :: rest → a.res = .ok → b.res = .ok →
    exec .unprepare s = .next (ended { s with prepared := false, railCore := .off, railSecond := .off }
      [⟨s.now + a.took, .regDis (secondSupply s.cfg) .ok⟩,
       ⟨s.now + a.took + b.took, .regDisDefer .vcore 100000 .ok⟩,
       ⟨s.now + a.took + b.took + c.took + 100000, .delay 100000⟩]
      (s.now + a.took + b.took + c.took + 100000) rest .ok)

/-- R138: a failed disable of the second supply leaves the core logic untouched; a failed deferred disable leaves the
second supply off and the core logic as it was, with no wait. The block stays PREPARED either way, so that `unprepare`
is admitted again (decision D16, log entry 31). The second supply is switched in both topologies (decision D15) and the
deferred disable is read as in decision D22 (log entry 30); how answers are drawn is log entry 3, when stamps are taken
log entry 7. -/
def Obligations.PowerOffFailures : Prop :=
  ∀ (s : State) (e : ErrVal) (rest : List Answer), s.pc = .idle → s.prepared = true → s.enabled = false →
    (FailsAfter s 0 e 0 rest → ∃ (evs : List Stamped) (n : Nat),
      evs.map Stamped.ev = [.regDis (secondSupply s.cfg) (.err e)] ∧
      exec .unprepare s = .next (ended s evs n rest (.eReg e))) ∧
    (FailsAfter s 1 e 0 rest → ∃ (evs : List Stamped) (n : Nat),
      evs.map Stamped.ev = [.regDis (secondSupply s.cfg) .ok, .regDisDefer .vcore 100000 (.err e)] ∧
      exec .unprepare s = .next (ended { s with railSecond := .off } evs n rest (.eReg e)))

/-- R200: the lifecycle operations are admitted in the one state of the table and are a misuse in every other, in which
the response is F_MISUSE with the operation and the state it found (R225, decision D17, log entry 31; what else a misuse
leaves, says MisuseOnlyRaisesFault, and that the check is a step before any call, StepRunsDecoded); the contrast operations
are never a misuse (decision D18, log entry 31). -/
def Obligations.AdmissionTable : Prop :=
  ∀ (i : Instr) (s : State), i.layer = .hostOperation → s.pc = .idle →
    ∃ t, exec i s = .next t ∧
      ((admittedWhen i s.prepared s.enabled = true ∧
          ∀ x ∈ t.responses.drop s.responses.length, ∀ op p q, x.rsp ≠ .fMisuse op p q) ∨
       (admittedWhen i s.prepared s.enabled = false ∧
          ∃ x : Reply, t.responses = s.responses ++ [x] ∧ x.rsp = .fMisuse i s.prepared s.enabled))

/-- R225: a lifecycle operation in a state R200 does not accept makes no downward call and changes nothing but the
sticky fault flag; the response names the operation and the state it found, and the block is idle. The
effect is the spec's own (decision D17). -/
def Obligations.MisuseOnlyRaisesFault : Prop :=
  ∀ (s : State), s.pc = .idle →
    (¬ (s.prepared = false ∧ s.enabled = false) → exec .prepare s = .next
      (ended { s with fault := true } [] s.now s.answers (.fMisuse .prepare s.prepared s.enabled))) ∧
    (¬ (s.prepared = true ∧ s.enabled = false) → exec .enable s = .next
      (ended { s with fault := true } [] s.now s.answers (.fMisuse .enable s.prepared s.enabled))) ∧
    (¬ (s.prepared = true ∧ s.enabled = true) → exec .disable s = .next
      (ended { s with fault := true } [] s.now s.answers (.fMisuse .disable s.prepared s.enabled))) ∧
    (¬ (s.prepared = true ∧ s.enabled = false) → exec .unprepare s = .next
      (ended { s with fault := true } [] s.now s.answers (.fMisuse .unprepare s.prepared s.enabled)))

/-- R206: a lifecycle flag changes only where its own operation ends with `Ok`, in the operation as a whole as in each of
its steps. For `enable`, `disable` and `unprepare` this is decision D16. -/
def Obligations.FlagsFollowSuccess : Prop :=
  ∀ (op : Operation) (s t : State), Runs op s t → (t.prepared ≠ s.prepared ∨ t.enabled ≠ s.enabled) →
    t.pc = .idle ∧ t.responses = s.responses ++ [⟨t.now, .ok⟩] ∧
    ((op = .instr .prepare ∧ t.prepared = true ∧ t.enabled = s.enabled) ∨
     (op = .instr .enable ∧ t.enabled = true ∧ t.prepared = s.prepared) ∨
     (op = .instr .disable ∧ t.enabled = false ∧ t.prepared = s.prepared) ∨
     (op = .instr .unprepare ∧ t.prepared = false ∧ t.enabled = s.enabled))

/-- What every operation leaves alone, whatever becomes of it, as a whole and in each of its steps: the configuration, the requests, every setting but contrast; the contrast too unless `set_contrast b` is begun, which leaves
`b` in it; the reset line unless it is `prepare`; the rails unless it is `prepare` or `unprepare`; the lifecycle flags
unless it is a lifecycle operation (which flag, says FlagsFollowSuccess); the fault flag unless it answers F_MISUSE, and
always when it was in progress; the data/command line, from a legal position, where the transport is not SPI 4-wire, and
in `unprepare` and `get_contrast` on every transport; and in `get_contrast` the trace, the clock and the answers.
(44_lifecycle.md R201 to R209 "Flags written", 41_power.md and 43_protocol.md "State written".) -/
def Obligations.InstructionFrame : Prop :=
  ∀ (op : Operation) (s t : State), Runs op s t →
    t.cfg = s.cfg ∧ t.requests = s.requests ∧
    { t.settings with contrast := s.settings.contrast } = s.settings ∧
    ((∀ b, op ≠ .instr (.setContrast b)) → t.settings = s.settings) ∧
    (s.pc ≠ .idle → t.settings = s.settings ∧ t.fault = s.fault) ∧
    (∀ b, op = .instr (.setContrast b) → s.pc = .idle → t.settings.contrast = b) ∧
    (op ≠ .instr .prepare → t.lineReset = s.lineReset) ∧
    (op ≠ .instr .prepare → op ≠ .instr .unprepare → t.railCore = s.railCore ∧ t.railSecond = s.railSecond) ∧
    (op ≠ .instr .prepare → op ≠ .instr .unprepare → t.prepared = s.prepared) ∧
    (op ≠ .instr .enable → op ≠ .instr .disable → t.enabled = s.enabled) ∧
    ((∀ i p q, (Reply.mk t.now (.fMisuse i p q)) ∉ t.responses.drop s.responses.length) → t.fault = s.fault) ∧
    (PositionLegal s → s.cfg.transport ≠ .spi4 → t.lineDC = s.lineDC) ∧
    (op = .instr .unprepare → t.lineDC = s.lineDC) ∧
    (op = .instr .getContrast → t.lineDC = s.lineDC ∧ t.trace = s.trace ∧ t.now = s.now ∧ t.answers = s.answers)

/-! ## Contrast -/

/-- R208, R186: `set_contrast b` stores `b` and sends one contrast command with parameter `b`, in every lifecycle state. -/
def Obligations.SetContrastCompletes : Prop :=
  ∀ (b : Byte) (s : State) (rest : List Answer), s.pc = .idle → Grants s (sendDraws s.cfg.transport) rest →
    ∃ (evs : List Stamped) (n : Nat),
      evs.map Stamped.ev = sendEvents s.cfg.transport [s.cfg.opc.contrast, b] ∧
      exec (.setContrast b) s = .next (ended
        { s with settings := { s.settings with contrast := b }, lineDC := dcAtRest s } evs n rest .ok)

/-- R186, R208: the stored value stays the new one when the buffer is refused, and when the transfer fails. -/
def Obligations.SetContrastKeepsStore : Prop :=
  ∀ (b : Byte) (s : State) (e : ErrVal) (rest : List Answer), s.pc = .idle →
    (FailsAfter s 0 e 0 rest → ∃ n, exec (.setContrast b) s =
      .next (ended { s with settings := { s.settings with contrast := b } } [] n rest .eNomem)) ∧
    (FailsAfter s (drawsBeforeTransfer s.cfg.transport) e (drawsAfterFailure s.cfg.transport) rest →
      ∃ (evs : List Stamped) (n : Nat),
        evs.map Stamped.ev = failedEvents s.cfg.transport [s.cfg.opc.contrast, b] e ∧
        exec (.setContrast b) s = .next (ended
          { s with settings := { s.settings with contrast := b }, lineDC := dcAtRest s } evs n rest (.eBus e)))

/-- R209: `get_contrast` answers the stored contrast, with no event, in every lifecycle state. -/
def Obligations.GetContrastAnswers : Prop :=
  ∀ (s : State), s.pc = .idle →
    exec .getContrast s = .next (ended s [] s.now s.answers (.okValue s.settings.contrast))

/-- R74: the contrast a `set_contrast` stored is the one the next `prepare` expands in its seventh command. -/
def Obligations.StoredContrastReachesInit : Prop :=
  ∀ (b : Byte) (s t : State), exec (.setContrast b) s = .next t →
    ((initCmds t.settings)[6]?).map (commandBytes t.cfg.opc) = some [s.cfg.opc.contrast, b] ∧
    (∀ k, k ≠ 6 → (initCmds t.settings)[k]? = (initCmds s.settings)[k]?)

/-! ## Errors, answers, ends -/

/-- R237, U2: while an instruction is in progress none is accepted, whichever it is. That the model refuses it
is log entry 17. -/
def Obligations.OneOperationAtATime : Prop :=
  ∀ (i : Instr) (s : State), s.pc ≠ .idle → exec i s = .refused .busy

/-- R211: the step in which an operation ends answers exactly once, with a value exactly if it is `get_contrast`; every step
before it answers nothing; so an operation as a whole answers once. Answers of commands and wire words are log entry 21. -/
def Obligations.AnswersExactlyOnce : Prop :=
  ∀ (op : Operation) (s t : State), Runs op s t →
    (t.pc = .idle → ∃ x : Reply, t.responses = s.responses ++ [x] ∧
      ((∃ v, x.rsp = .okValue v) ↔ op = .instr .getContrast)) ∧
    (t.pc ≠ .idle → (∃ k, t.pc = .busy op k) ∧ t.responses = s.responses)

/-- R232: with as many answers as its calls can ask for, every operation ends: as a whole, and, where it is in progress
at a legal position, within as many steps as its sequence has calls, or one where it has none (answers: log entry 3). -/
def Obligations.EveryInstructionEnds : Prop :=
  ∀ (op : Operation) (s : State), 2 * (s.slots op).length + 1 ≤ s.answers.length →
    (∀ t, begins op s = .next t → t.pc = .idle) ∧
    (∀ k, s.pc = .busy op k → PositionLegal s →
      ∃ n t, n ≤ max 1 (s.slots op).length ∧ after n s = .next t ∧ t.pc = .idle)

/-- R210: the number of downward calls of each host operation. -/
def Obligations.SequenceLengths : Prop :=
  ∀ (cfg : Cfg) (x : Settings) (b : Byte) (n : Nat),
    n = (match cfg.transport with
      | .spi3 => 1
      | .spi4 => 3
      | .i2c => 1) →
    (useq cfg x .prepare).length = 1 + 3 * bit cfg.hasReset + 1 + 12 * n ∧
    (useq cfg x .enable).length = (bit cfg.useChargePump + 1) * n + 1 ∧
    (useq cfg x .disable).length = (1 + bit cfg.useChargePump) * n ∧
    (useq cfg x .unprepare).length = 3 ∧
    (useq cfg x (.setContrast b)).length = n ∧
    (useq cfg x .getContrast).length = 0

/-- R31: one step of the sequencer at index `k` of `op`. An operation without calls is completed at index 0 with no event
(log entry 1). At another index outside the sequence, and while the environment has not answered the call (log entry 3),
it does nothing. A refused buffer ends the operation with `E_NOMEM`. A call answered `Ok`, or one
that cannot fail, moves to the next index, or, after the last, writes the flag and answers. A call answered `Err(e)`
ends the operation with its error and without a flag write, once the data/command line, if it has to be, is restored. -/
def Obligations.SequencerMovesByOne : Prop :=
  ∀ (s : State) (op : Operation) (k : Nat), s.pc = .busy op k →
    ((s.slots op)[k]? = none →
      if k = 0 then Completed s (advance s) op ∧ (advance s).trace = s.trace ∧ (advance s).answers = s.answers
      else advance s = s) ∧
    ∀ sl : Slot, (s.slots op)[k]? = some sl →
      match callAnswers sl s.answers with
      | none => EndsWith s (advance s) .eNomem
      | some [] => advance s = s
      | some (a :: rest) =>
        match a.res with
        | .ok => MovesOn s (advance s) op k (s.slots op).length
        | .err e =>
          match failureOf sl.call e with
          | none => MovesOn s (advance s) op k (s.slots op).length
          | some r => if restoreMissing sl rest = true then advance s = s else EndsWith s (advance s) r

/-- R26: the fault flag is cleared by no step. -/
def Obligations.FaultIsSticky : Prop :=
  ∀ s t : State, step s = .next t → s.fault = true → t.fault = true

/-- R26: the fault flag gates nothing: every instruction does the same with it set. -/
def Obligations.FaultGatesNothing : Prop :=
  ∀ (i : Instr) (s t : State), exec i s = .next t → exec i { s with fault := true } = .next { t with fault := true }

/-- R28: no rule reads the rails: with other rails every instruction gives the same events, answers, flags and lines. -/
def Obligations.RailsAreNotRead : Prop :=
  ∀ (i : Instr) (s t : State) (core second : RailState), exec i s = .next t →
    ∃ core' second', exec i { s with railCore := core, railSecond := second } =
      .next { t with railCore := core', railSecond := second' }

/-- R33: events are only added, time does not go back. -/
def Obligations.TraceOnlyGrows : Prop :=
  ∀ s t : State, step s = .next t → s.trace <+: t.trace ∧ s.responses <+: t.responses ∧ s.now ≤ t.now

/-- R224: the ordinals of the responses and of the errors of attach. -/
def Obligations.CauseCodes : Prop :=
  ∀ (ε : Type) (e : ε) (v : Byte) (what : Resource) (n : Nat) (op : Instr) (p q : Bool),
    responseCode (.ok : Response ε) = 0 ∧ responseCode (.okValue v : Response ε) = 0 ∧
    attachCode (.eResource what) = 1 ∧ responseCode (.eNomem : Response ε) = 2 ∧
    responseCode (.eBus e) = 3 ∧ attachCode (.eCapability n) = 4 ∧
    responseCode (.fMisuse op p q : Response ε) = 5 ∧ responseCode (.eReg e) = 6

/-! ## Time -/

/-- R35: time stamps rise along the trace, and a DELAY(d) takes at least d; kept by every step. When a stamp
is taken is log entry 7. -/
def Obligations.TimeStampsKept : Prop :=
  ∀ s t : State, TraceTimed s → step s = .next t → TraceTimed t

/-- R133, R139: the second and the fourth event that `prepare` adds are the two edges of the reset pulse, and the line
is low for at least 3 microseconds between them. When a stamp is taken is log entry 7. -/
def Obligations.ResetPulseWidth : Prop :=
  ∀ (s t : State), s.prepared = false → s.enabled = false → s.cfg.hasReset = true →
    exec .prepare s = .next t →
    ∀ (low high : Stamped) (k : Nat), t.trace[s.trace.length + 1]? = some low → k = s.trace.length + 3 →
      t.trace[k]? = some high →
      low.ev = .gpio .reset false ∧ high.ev = .gpio .reset true ∧ low.time + 3 ≤ high.time

/-- R184: `enable` answers `Ok` no earlier than 100 ms after the display-on command has gone out. When a stamp is
taken is log entry 7. -/
def Obligations.EnableSettles : Prop :=
  ∀ (s t : State), s.prepared = true → s.enabled = false → exec .enable s = .next t → t.enabled = true →
    ∃ (front : List Stamped) (sent settled : Stamped),
      t.trace = s.trace ++ front ++ [sent, settled] ∧ settled.ev = .delay 100000 ∧
      sent.time + 100000 ≤ settled.time ∧ t.responses = s.responses ++ [⟨settled.time, .ok⟩] ∧
      (front ++ [sent]).map Stamped.ev = sendAll s.cfg.transport (enableBytes s.cfg)

/-- R137: `st.rail[VCORE]` is counted OFF no earlier than 100 ms after the accepted deferred disable (decision D22).
When a stamp is taken is log entry 7. -/
def Obligations.CoreHold : Prop :=
  ∀ (s t : State), s.prepared = true → s.enabled = false → s.railCore = .on → exec .unprepare s = .next t →
    t.railCore = .off →
    ∃ (teardown request hold : Stamped), t.trace = s.trace ++ [teardown, request, hold] ∧
      teardown.ev = .regDis (secondSupply s.cfg) .ok ∧ request.ev = .regDisDefer .vcore 100000 .ok ∧
      hold.ev = .delay 100000 ∧ teardown.time ≤ request.time ∧ request.time + 100000 ≤ hold.time ∧ hold.time = t.now

/-! ## Invariants -/

/-- R253: the transport, the topology, the presence of the reset line and the opcode table are those of attach for the life
of the handle: attach leaves the configuration it was given, and no step, no run of steps and no operation changes it. -/
def Obligations.ConfigurationFixed : Prop :=
  (∀ (cfg : Cfg) (x : Settings) (level : Bool), (State.afterAttach cfg x level : State).cfg = cfg) ∧
  (∀ (n : Nat) (s t : State), after n s = .next t →
    t.cfg.transport = s.cfg.transport ∧ t.cfg.useChargePump = s.cfg.useChargePump ∧
    t.cfg.hasReset = s.cfg.hasReset ∧ t.cfg.opc = s.cfg.opc) ∧
  (∀ (op : Operation) (s t : State), Runs op s t → t.cfg = s.cfg)

/-- R25, R30, R112, R133, R187: the lifecycle flags, the position, the data/command line and the supplies stay legal. -/
def Obligations.InvariantKept : Prop :=
  ∀ s t : State, Inv s → step s = .next t → Inv t

/-- R25, R30, R112: each single call of the sequencer, each admission and each operation as a whole keep the invariant, so
it holds between the calls of one operation too. -/
def Obligations.InvariantKeptByEveryCall : Prop :=
  ∀ s : State, Inv s → Inv (advance s) ∧ ∀ (op : Operation) (t : State), Runs op s t → Inv t

/-- The invariants hold after attach, whatever the configuration, the settings and the reset line's level (R251). -/
def Obligations.InvariantAfterAttach : Prop :=
  ∀ (cfg : Cfg) (x : Settings) (level : Bool),
    ∀ s : State, s = State.afterAttach cfg x level → Inv s ∧ TraceTimed s ∧ TraceFits s ∧ BracketsWhole s

/-- R117, R141, R94: every event stays one that the configuration can produce: the supplies and lines it has, 9-bit
words with tag 0, brackets of one to three bytes, control byte 0xC0 at every even place. -/
def Obligations.TraceFitsKept : Prop :=
  ∀ s t : State, PositionLegal s → TraceFits s → step s = .next t → TraceFits t

/-- R112, R71: on SPI 4-wire the trace stays a run of whole brackets, with nothing else inside one. -/
def Obligations.BracketsKept : Prop :=
  ∀ s t : State, PositionLegal s → BracketsWhole s → step s = .next t → BracketsWhole t

/-! ## The step -/

/-- R34: a request that decodes is taken off the channel, and the step is the admission of its instruction: no downward
call is made. With the steps after it, at most one for each call, or one completion, it is `exec` of the instruction, to
its end or as far as the environment has answered (log entries 1, 4). A wire word of another transport is refused (log
entry 16). -/
def Obligations.StepRunsDecoded : Prop :=
  ∀ (s : State) (r : Request) (rest : List Request) (i : Instr), s.pc = .idle → s.requests = r :: rest →
    decode s.cfg.opc r = .ok i →
    (foreignWord i s.cfg.transport = false → step s = .next (taken i { s with requests := rest })) ∧
    (foreignWord i s.cfg.transport = true → step s = .refused .wrongTransport) ∧
    ∃ n, 1 ≤ n ∧ n ≤ max 1 (s.slots (.instr i)).length + 1 ∧ after n s = exec i { s with requests := rest }

/-- R92, R94: a request word of no operation and a wire word without meaning is a refusal that says why (a command that
is no row is sent, RawCommandRuns); with none there is nothing to do (decision D26; log entry 4). -/
def Obligations.StepWithoutInstruction : Prop :=
  ∀ (s : State), s.pc = .idle →
    (s.requests = [] → step s = .next s) ∧
    (∀ r rest why, s.requests = r :: rest → (∀ c, r ≠ .command c) →
      decode s.cfg.opc r = .error why →
      step s = .refused (.notAnInstruction why))

/-- R31, R34: from a legal state the step of a busy block is one step of its sequencer, which SequencerMovesByOne
describes, and it never faults. -/
def Obligations.BusyStepGoesOn : Prop :=
  ∀ (s : State) (op : Operation) (i : Nat), PositionLegal s → s.pc = .busy op i → step s = .next (advance s)

/-! ## Attach -/

/-- R6, R228: attach gives a block exactly when the board is well-formed. What a board is, is log entry 20. -/
def Obligations.AttachAcceptsExactly : Prop :=
  ∀ (b : Board) (opc : Opcodes) (x : Settings) (contrast : Numeric) (level : Bool),
    (∃ s : State, attach b opc x contrast level = .ok s) ↔
    ∃ t : Transport,
      (b.spi3 = true ↔ t = .spi3) ∧ (b.spi4 = true ↔ t = .spi4) ∧ (b.i2c = true ↔ t = .i2c) ∧
      b.coreSupply = true ∧ (b.panelSupply = true ↔ b.pumpSupply = false) ∧
      (b.dcLine = true ↔ t = .spi4) ∧ (b.addressLine = true → t = .i2c) ∧
      (match t with
        | .spi3 => 9 ∈ b.wordBits
        | .spi4 => 8 ∈ b.wordBits
        | .i2c => 8 ∈ b.wordBits)

/-- R251, R24, R5, R253: what every attach leaves in every field, for whatever level the reset line has (decisions D10,
D12, D17, D23, D36; log entry 11). The clock and the three lists are the model's own fields (log entries 3, 4, 5, 7). -/
def Obligations.AttachLeaves : Prop :=
  ∀ (b : Board) (opc : Opcodes) (x : Settings) (contrast : Numeric) (level : Bool) (s : State),
    attach b opc x contrast level = .ok s →
    s.settings = { x with contrast := BitVec.ofNat 8 contrast.toNat } ∧
    s.prepared = false ∧ s.enabled = false ∧ s.fault = false ∧ s.railCore = .off ∧ s.railSecond = .off ∧
    s.lineDC = true ∧ s.lineReset = level ∧ s.pc = .idle ∧ s.trace = [] ∧
    s.now = 0 ∧ s.requests = [] ∧ s.answers = [] ∧ s.responses = [] ∧
    (b.spi3 = true ↔ s.cfg.transport = .spi3) ∧ (b.spi4 = true ↔ s.cfg.transport = .spi4) ∧
    (b.i2c = true ↔ s.cfg.transport = .i2c) ∧
    s.cfg.hasReset = b.resetLine ∧ s.cfg.useChargePump = b.pumpSupply ∧ s.cfg.opc = opc
end

