-- ==== Sys2Proof/Laws/State.lean ====
section
/-! SUPPORT. One lemma per field per update of State: no later proof unfolds a record update. -/

namespace Sys2Proof.Machine

variable {ε : Type}

/-! ### log -/

@[simp] theorem State.log_cfg (ev : Event ε) (s : State ε) : (s.log ev).cfg = s.cfg := rfl
@[simp] theorem State.log_settings (ev : Event ε) (s : State ε) : (s.log ev).settings = s.settings := rfl
@[simp] theorem State.log_prepared (ev : Event ε) (s : State ε) : (s.log ev).prepared = s.prepared := rfl
@[simp] theorem State.log_enabled (ev : Event ε) (s : State ε) : (s.log ev).enabled = s.enabled := rfl
@[simp] theorem State.log_fault (ev : Event ε) (s : State ε) : (s.log ev).fault = s.fault := rfl
@[simp] theorem State.log_railCore (ev : Event ε) (s : State ε) : (s.log ev).railCore = s.railCore := rfl
@[simp] theorem State.log_railSecond (ev : Event ε) (s : State ε) : (s.log ev).railSecond = s.railSecond := rfl
@[simp] theorem State.log_lineReset (ev : Event ε) (s : State ε) : (s.log ev).lineReset = s.lineReset := rfl
@[simp] theorem State.log_lineDC (ev : Event ε) (s : State ε) : (s.log ev).lineDC = s.lineDC := rfl
@[simp] theorem State.log_pc (ev : Event ε) (s : State ε) : (s.log ev).pc = s.pc := rfl
@[simp] theorem State.log_trace (ev : Event ε) (s : State ε) : (s.log ev).trace = s.trace ++ [⟨s.now, ev⟩] := rfl
@[simp] theorem State.log_now (ev : Event ε) (s : State ε) : (s.log ev).now = s.now := rfl
@[simp] theorem State.log_requests (ev : Event ε) (s : State ε) : (s.log ev).requests = s.requests := rfl
@[simp] theorem State.log_answers (ev : Event ε) (s : State ε) : (s.log ev).answers = s.answers := rfl
@[simp] theorem State.log_responses (ev : Event ε) (s : State ε) : (s.log ev).responses = s.responses := rfl

/-! ### setRail -/

@[simp] theorem State.setRail_cfg (r : Rail) (v : RailState) (s : State ε) : (s.setRail r v).cfg = s.cfg := rfl
@[simp] theorem State.setRail_settings (r : Rail) (v : RailState) (s : State ε) : (s.setRail r v).settings = s.settings := rfl
@[simp] theorem State.setRail_prepared (r : Rail) (v : RailState) (s : State ε) : (s.setRail r v).prepared = s.prepared := rfl
@[simp] theorem State.setRail_enabled (r : Rail) (v : RailState) (s : State ε) : (s.setRail r v).enabled = s.enabled := rfl
@[simp] theorem State.setRail_fault (r : Rail) (v : RailState) (s : State ε) : (s.setRail r v).fault = s.fault := rfl
@[simp] theorem State.setRail_railCore (r : Rail) (v : RailState) (s : State ε) : (s.setRail r v).railCore = (if r = .vcore then v else s.railCore) := rfl
@[simp] theorem State.setRail_railSecond (r : Rail) (v : RailState) (s : State ε) : (s.setRail r v).railSecond = (if r = vsecond s.cfg then v else s.railSecond) := rfl
@[simp] theorem State.setRail_lineReset (r : Rail) (v : RailState) (s : State ε) : (s.setRail r v).lineReset = s.lineReset := rfl
@[simp] theorem State.setRail_lineDC (r : Rail) (v : RailState) (s : State ε) : (s.setRail r v).lineDC = s.lineDC := rfl
@[simp] theorem State.setRail_pc (r : Rail) (v : RailState) (s : State ε) : (s.setRail r v).pc = s.pc := rfl
@[simp] theorem State.setRail_trace (r : Rail) (v : RailState) (s : State ε) : (s.setRail r v).trace = s.trace := rfl
@[simp] theorem State.setRail_now (r : Rail) (v : RailState) (s : State ε) : (s.setRail r v).now = s.now := rfl
@[simp] theorem State.setRail_requests (r : Rail) (v : RailState) (s : State ε) : (s.setRail r v).requests = s.requests := rfl
@[simp] theorem State.setRail_answers (r : Rail) (v : RailState) (s : State ε) : (s.setRail r v).answers = s.answers := rfl
@[simp] theorem State.setRail_responses (r : Rail) (v : RailState) (s : State ε) : (s.setRail r v).responses = s.responses := rfl

/-! ### setLine -/

@[simp] theorem State.setLine_cfg (l : Line) (level : Bool) (s : State ε) : (s.setLine l level).cfg = s.cfg := rfl
@[simp] theorem State.setLine_settings (l : Line) (level : Bool) (s : State ε) : (s.setLine l level).settings = s.settings := rfl
@[simp] theorem State.setLine_prepared (l : Line) (level : Bool) (s : State ε) : (s.setLine l level).prepared = s.prepared := rfl
@[simp] theorem State.setLine_enabled (l : Line) (level : Bool) (s : State ε) : (s.setLine l level).enabled = s.enabled := rfl
@[simp] theorem State.setLine_fault (l : Line) (level : Bool) (s : State ε) : (s.setLine l level).fault = s.fault := rfl
@[simp] theorem State.setLine_railCore (l : Line) (level : Bool) (s : State ε) : (s.setLine l level).railCore = s.railCore := rfl
@[simp] theorem State.setLine_railSecond (l : Line) (level : Bool) (s : State ε) : (s.setLine l level).railSecond = s.railSecond := rfl
@[simp] theorem State.setLine_lineReset (l : Line) (level : Bool) (s : State ε) : (s.setLine l level).lineReset = (if l = .reset then level else s.lineReset) := rfl
@[simp] theorem State.setLine_lineDC (l : Line) (level : Bool) (s : State ε) : (s.setLine l level).lineDC = (if l = .dc then level else s.lineDC) := rfl
@[simp] theorem State.setLine_pc (l : Line) (level : Bool) (s : State ε) : (s.setLine l level).pc = s.pc := rfl
@[simp] theorem State.setLine_trace (l : Line) (level : Bool) (s : State ε) : (s.setLine l level).trace = s.trace := rfl
@[simp] theorem State.setLine_now (l : Line) (level : Bool) (s : State ε) : (s.setLine l level).now = s.now := rfl
@[simp] theorem State.setLine_requests (l : Line) (level : Bool) (s : State ε) : (s.setLine l level).requests = s.requests := rfl
@[simp] theorem State.setLine_answers (l : Line) (level : Bool) (s : State ε) : (s.setLine l level).answers = s.answers := rfl
@[simp] theorem State.setLine_responses (l : Line) (level : Bool) (s : State ε) : (s.setLine l level).responses = s.responses := rfl

/-! ### elapse -/

@[simp] theorem State.elapse_cfg (d : Nat) (s : State ε) : (s.elapse d).cfg = s.cfg := rfl
@[simp] theorem State.elapse_settings (d : Nat) (s : State ε) : (s.elapse d).settings = s.settings := rfl
@[simp] theorem State.elapse_prepared (d : Nat) (s : State ε) : (s.elapse d).prepared = s.prepared := rfl
@[simp] theorem State.elapse_enabled (d : Nat) (s : State ε) : (s.elapse d).enabled = s.enabled := rfl
@[simp] theorem State.elapse_fault (d : Nat) (s : State ε) : (s.elapse d).fault = s.fault := rfl
@[simp] theorem State.elapse_railCore (d : Nat) (s : State ε) : (s.elapse d).railCore = s.railCore := rfl
@[simp] theorem State.elapse_railSecond (d : Nat) (s : State ε) : (s.elapse d).railSecond = s.railSecond := rfl
@[simp] theorem State.elapse_lineReset (d : Nat) (s : State ε) : (s.elapse d).lineReset = s.lineReset := rfl
@[simp] theorem State.elapse_lineDC (d : Nat) (s : State ε) : (s.elapse d).lineDC = s.lineDC := rfl
@[simp] theorem State.elapse_pc (d : Nat) (s : State ε) : (s.elapse d).pc = s.pc := rfl
@[simp] theorem State.elapse_trace (d : Nat) (s : State ε) : (s.elapse d).trace = s.trace := rfl
@[simp] theorem State.elapse_now (d : Nat) (s : State ε) : (s.elapse d).now = s.now + d := rfl
@[simp] theorem State.elapse_requests (d : Nat) (s : State ε) : (s.elapse d).requests = s.requests := rfl
@[simp] theorem State.elapse_answers (d : Nat) (s : State ε) : (s.elapse d).answers = s.answers := rfl
@[simp] theorem State.elapse_responses (d : Nat) (s : State ε) : (s.elapse d).responses = s.responses := rfl

/-! ### consume -/

@[simp] theorem State.consume_cfg (a : Answer ε) (s : State ε) : (s.consume a).cfg = s.cfg := rfl
@[simp] theorem State.consume_settings (a : Answer ε) (s : State ε) : (s.consume a).settings = s.settings := rfl
@[simp] theorem State.consume_prepared (a : Answer ε) (s : State ε) : (s.consume a).prepared = s.prepared := rfl
@[simp] theorem State.consume_enabled (a : Answer ε) (s : State ε) : (s.consume a).enabled = s.enabled := rfl
@[simp] theorem State.consume_fault (a : Answer ε) (s : State ε) : (s.consume a).fault = s.fault := rfl
@[simp] theorem State.consume_railCore (a : Answer ε) (s : State ε) : (s.consume a).railCore = s.railCore := rfl
@[simp] theorem State.consume_railSecond (a : Answer ε) (s : State ε) : (s.consume a).railSecond = s.railSecond := rfl
@[simp] theorem State.consume_lineReset (a : Answer ε) (s : State ε) : (s.consume a).lineReset = s.lineReset := rfl
@[simp] theorem State.consume_lineDC (a : Answer ε) (s : State ε) : (s.consume a).lineDC = s.lineDC := rfl
@[simp] theorem State.consume_pc (a : Answer ε) (s : State ε) : (s.consume a).pc = s.pc := rfl
@[simp] theorem State.consume_trace (a : Answer ε) (s : State ε) : (s.consume a).trace = s.trace := rfl
@[simp] theorem State.consume_now (a : Answer ε) (s : State ε) : (s.consume a).now = s.now + a.took := rfl
@[simp] theorem State.consume_requests (a : Answer ε) (s : State ε) : (s.consume a).requests = s.requests := rfl
@[simp] theorem State.consume_answers (a : Answer ε) (s : State ε) : (s.consume a).answers = s.answers.tail := rfl
@[simp] theorem State.consume_responses (a : Answer ε) (s : State ε) : (s.consume a).responses = s.responses := rfl

/-! ### setPc -/

@[simp] theorem State.setPc_cfg (pc : Pc) (s : State ε) : (s.setPc pc).cfg = s.cfg := rfl
@[simp] theorem State.setPc_settings (pc : Pc) (s : State ε) : (s.setPc pc).settings = s.settings := rfl
@[simp] theorem State.setPc_prepared (pc : Pc) (s : State ε) : (s.setPc pc).prepared = s.prepared := rfl
@[simp] theorem State.setPc_enabled (pc : Pc) (s : State ε) : (s.setPc pc).enabled = s.enabled := rfl
@[simp] theorem State.setPc_fault (pc : Pc) (s : State ε) : (s.setPc pc).fault = s.fault := rfl
@[simp] theorem State.setPc_railCore (pc : Pc) (s : State ε) : (s.setPc pc).railCore = s.railCore := rfl
@[simp] theorem State.setPc_railSecond (pc : Pc) (s : State ε) : (s.setPc pc).railSecond = s.railSecond := rfl
@[simp] theorem State.setPc_lineReset (pc : Pc) (s : State ε) : (s.setPc pc).lineReset = s.lineReset := rfl
@[simp] theorem State.setPc_lineDC (pc : Pc) (s : State ε) : (s.setPc pc).lineDC = s.lineDC := rfl
@[simp] theorem State.setPc_pc (pc : Pc) (s : State ε) : (s.setPc pc).pc = pc := rfl
@[simp] theorem State.setPc_trace (pc : Pc) (s : State ε) : (s.setPc pc).trace = s.trace := rfl
@[simp] theorem State.setPc_now (pc : Pc) (s : State ε) : (s.setPc pc).now = s.now := rfl
@[simp] theorem State.setPc_requests (pc : Pc) (s : State ε) : (s.setPc pc).requests = s.requests := rfl
@[simp] theorem State.setPc_answers (pc : Pc) (s : State ε) : (s.setPc pc).answers = s.answers := rfl
@[simp] theorem State.setPc_responses (pc : Pc) (s : State ε) : (s.setPc pc).responses = s.responses := rfl

/-! ### setContrastReg -/

@[simp] theorem State.setContrastReg_cfg (b : Byte) (s : State ε) : (s.setContrastReg b).cfg = s.cfg := rfl
@[simp] theorem State.setContrastReg_settings (b : Byte) (s : State ε) : (s.setContrastReg b).settings = { s.settings with contrast := b } := rfl
@[simp] theorem State.setContrastReg_prepared (b : Byte) (s : State ε) : (s.setContrastReg b).prepared = s.prepared := rfl
@[simp] theorem State.setContrastReg_enabled (b : Byte) (s : State ε) : (s.setContrastReg b).enabled = s.enabled := rfl
@[simp] theorem State.setContrastReg_fault (b : Byte) (s : State ε) : (s.setContrastReg b).fault = s.fault := rfl
@[simp] theorem State.setContrastReg_railCore (b : Byte) (s : State ε) : (s.setContrastReg b).railCore = s.railCore := rfl
@[simp] theorem State.setContrastReg_railSecond (b : Byte) (s : State ε) : (s.setContrastReg b).railSecond = s.railSecond := rfl
@[simp] theorem State.setContrastReg_lineReset (b : Byte) (s : State ε) : (s.setContrastReg b).lineReset = s.lineReset := rfl
@[simp] theorem State.setContrastReg_lineDC (b : Byte) (s : State ε) : (s.setContrastReg b).lineDC = s.lineDC := rfl
@[simp] theorem State.setContrastReg_pc (b : Byte) (s : State ε) : (s.setContrastReg b).pc = s.pc := rfl
@[simp] theorem State.setContrastReg_trace (b : Byte) (s : State ε) : (s.setContrastReg b).trace = s.trace := rfl
@[simp] theorem State.setContrastReg_now (b : Byte) (s : State ε) : (s.setContrastReg b).now = s.now := rfl
@[simp] theorem State.setContrastReg_requests (b : Byte) (s : State ε) : (s.setContrastReg b).requests = s.requests := rfl
@[simp] theorem State.setContrastReg_answers (b : Byte) (s : State ε) : (s.setContrastReg b).answers = s.answers := rfl
@[simp] theorem State.setContrastReg_responses (b : Byte) (s : State ε) : (s.setContrastReg b).responses = s.responses := rfl

/-! ### setPrepared -/

@[simp] theorem State.setPrepared_cfg (v : Bool) (s : State ε) : (s.setPrepared v).cfg = s.cfg := rfl
@[simp] theorem State.setPrepared_settings (v : Bool) (s : State ε) : (s.setPrepared v).settings = s.settings := rfl
@[simp] theorem State.setPrepared_prepared (v : Bool) (s : State ε) : (s.setPrepared v).prepared = v := rfl
@[simp] theorem State.setPrepared_enabled (v : Bool) (s : State ε) : (s.setPrepared v).enabled = s.enabled := rfl
@[simp] theorem State.setPrepared_fault (v : Bool) (s : State ε) : (s.setPrepared v).fault = s.fault := rfl
@[simp] theorem State.setPrepared_railCore (v : Bool) (s : State ε) : (s.setPrepared v).railCore = s.railCore := rfl
@[simp] theorem State.setPrepared_railSecond (v : Bool) (s : State ε) : (s.setPrepared v).railSecond = s.railSecond := rfl
@[simp] theorem State.setPrepared_lineReset (v : Bool) (s : State ε) : (s.setPrepared v).lineReset = s.lineReset := rfl
@[simp] theorem State.setPrepared_lineDC (v : Bool) (s : State ε) : (s.setPrepared v).lineDC = s.lineDC := rfl
@[simp] theorem State.setPrepared_pc (v : Bool) (s : State ε) : (s.setPrepared v).pc = s.pc := rfl
@[simp] theorem State.setPrepared_trace (v : Bool) (s : State ε) : (s.setPrepared v).trace = s.trace := rfl
@[simp] theorem State.setPrepared_now (v : Bool) (s : State ε) : (s.setPrepared v).now = s.now := rfl
@[simp] theorem State.setPrepared_requests (v : Bool) (s : State ε) : (s.setPrepared v).requests = s.requests := rfl
@[simp] theorem State.setPrepared_answers (v : Bool) (s : State ε) : (s.setPrepared v).answers = s.answers := rfl
@[simp] theorem State.setPrepared_responses (v : Bool) (s : State ε) : (s.setPrepared v).responses = s.responses := rfl

/-! ### setEnabled -/

@[simp] theorem State.setEnabled_cfg (v : Bool) (s : State ε) : (s.setEnabled v).cfg = s.cfg := rfl
@[simp] theorem State.setEnabled_settings (v : Bool) (s : State ε) : (s.setEnabled v).settings = s.settings := rfl
@[simp] theorem State.setEnabled_prepared (v : Bool) (s : State ε) : (s.setEnabled v).prepared = s.prepared := rfl
@[simp] theorem State.setEnabled_enabled (v : Bool) (s : State ε) : (s.setEnabled v).enabled = v := rfl
@[simp] theorem State.setEnabled_fault (v : Bool) (s : State ε) : (s.setEnabled v).fault = s.fault := rfl
@[simp] theorem State.setEnabled_railCore (v : Bool) (s : State ε) : (s.setEnabled v).railCore = s.railCore := rfl
@[simp] theorem State.setEnabled_railSecond (v : Bool) (s : State ε) : (s.setEnabled v).railSecond = s.railSecond := rfl
@[simp] theorem State.setEnabled_lineReset (v : Bool) (s : State ε) : (s.setEnabled v).lineReset = s.lineReset := rfl
@[simp] theorem State.setEnabled_lineDC (v : Bool) (s : State ε) : (s.setEnabled v).lineDC = s.lineDC := rfl
@[simp] theorem State.setEnabled_pc (v : Bool) (s : State ε) : (s.setEnabled v).pc = s.pc := rfl
@[simp] theorem State.setEnabled_trace (v : Bool) (s : State ε) : (s.setEnabled v).trace = s.trace := rfl
@[simp] theorem State.setEnabled_now (v : Bool) (s : State ε) : (s.setEnabled v).now = s.now := rfl
@[simp] theorem State.setEnabled_requests (v : Bool) (s : State ε) : (s.setEnabled v).requests = s.requests := rfl
@[simp] theorem State.setEnabled_answers (v : Bool) (s : State ε) : (s.setEnabled v).answers = s.answers := rfl
@[simp] theorem State.setEnabled_responses (v : Bool) (s : State ε) : (s.setEnabled v).responses = s.responses := rfl

/-! ### setFault -/

@[simp] theorem State.setFault_cfg (s : State ε) : (s.setFault).cfg = s.cfg := rfl
@[simp] theorem State.setFault_settings (s : State ε) : (s.setFault).settings = s.settings := rfl
@[simp] theorem State.setFault_prepared (s : State ε) : (s.setFault).prepared = s.prepared := rfl
@[simp] theorem State.setFault_enabled (s : State ε) : (s.setFault).enabled = s.enabled := rfl
@[simp] theorem State.setFault_fault (s : State ε) : (s.setFault).fault = true := rfl
@[simp] theorem State.setFault_railCore (s : State ε) : (s.setFault).railCore = s.railCore := rfl
@[simp] theorem State.setFault_railSecond (s : State ε) : (s.setFault).railSecond = s.railSecond := rfl
@[simp] theorem State.setFault_lineReset (s : State ε) : (s.setFault).lineReset = s.lineReset := rfl
@[simp] theorem State.setFault_lineDC (s : State ε) : (s.setFault).lineDC = s.lineDC := rfl
@[simp] theorem State.setFault_pc (s : State ε) : (s.setFault).pc = s.pc := rfl
@[simp] theorem State.setFault_trace (s : State ε) : (s.setFault).trace = s.trace := rfl
@[simp] theorem State.setFault_now (s : State ε) : (s.setFault).now = s.now := rfl
@[simp] theorem State.setFault_requests (s : State ε) : (s.setFault).requests = s.requests := rfl
@[simp] theorem State.setFault_answers (s : State ε) : (s.setFault).answers = s.answers := rfl
@[simp] theorem State.setFault_responses (s : State ε) : (s.setFault).responses = s.responses := rfl

/-! ### answer -/

@[simp] theorem State.answer_cfg (r : Response ε) (s : State ε) : (s.answer r).cfg = s.cfg := rfl
@[simp] theorem State.answer_settings (r : Response ε) (s : State ε) : (s.answer r).settings = s.settings := rfl
@[simp] theorem State.answer_prepared (r : Response ε) (s : State ε) : (s.answer r).prepared = s.prepared := rfl
@[simp] theorem State.answer_enabled (r : Response ε) (s : State ε) : (s.answer r).enabled = s.enabled := rfl
@[simp] theorem State.answer_fault (r : Response ε) (s : State ε) : (s.answer r).fault = s.fault := rfl
@[simp] theorem State.answer_railCore (r : Response ε) (s : State ε) : (s.answer r).railCore = s.railCore := rfl
@[simp] theorem State.answer_railSecond (r : Response ε) (s : State ε) : (s.answer r).railSecond = s.railSecond := rfl
@[simp] theorem State.answer_lineReset (r : Response ε) (s : State ε) : (s.answer r).lineReset = s.lineReset := rfl
@[simp] theorem State.answer_lineDC (r : Response ε) (s : State ε) : (s.answer r).lineDC = s.lineDC := rfl
@[simp] theorem State.answer_pc (r : Response ε) (s : State ε) : (s.answer r).pc = .idle := rfl
@[simp] theorem State.answer_trace (r : Response ε) (s : State ε) : (s.answer r).trace = s.trace := rfl
@[simp] theorem State.answer_now (r : Response ε) (s : State ε) : (s.answer r).now = s.now := rfl
@[simp] theorem State.answer_requests (r : Response ε) (s : State ε) : (s.answer r).requests = s.requests := rfl
@[simp] theorem State.answer_answers (r : Response ε) (s : State ε) : (s.answer r).answers = s.answers := rfl
@[simp] theorem State.answer_responses (r : Response ε) (s : State ε) : (s.answer r).responses = s.responses ++ [⟨s.now, r⟩] := rfl

/-! ### takeRequest -/

@[simp] theorem State.takeRequest_cfg (s : State ε) : (s.takeRequest).cfg = s.cfg := rfl
@[simp] theorem State.takeRequest_settings (s : State ε) : (s.takeRequest).settings = s.settings := rfl
@[simp] theorem State.takeRequest_prepared (s : State ε) : (s.takeRequest).prepared = s.prepared := rfl
@[simp] theorem State.takeRequest_enabled (s : State ε) : (s.takeRequest).enabled = s.enabled := rfl
@[simp] theorem State.takeRequest_fault (s : State ε) : (s.takeRequest).fault = s.fault := rfl
@[simp] theorem State.takeRequest_railCore (s : State ε) : (s.takeRequest).railCore = s.railCore := rfl
@[simp] theorem State.takeRequest_railSecond (s : State ε) : (s.takeRequest).railSecond = s.railSecond := rfl
@[simp] theorem State.takeRequest_lineReset (s : State ε) : (s.takeRequest).lineReset = s.lineReset := rfl
@[simp] theorem State.takeRequest_lineDC (s : State ε) : (s.takeRequest).lineDC = s.lineDC := rfl
@[simp] theorem State.takeRequest_pc (s : State ε) : (s.takeRequest).pc = s.pc := rfl
@[simp] theorem State.takeRequest_trace (s : State ε) : (s.takeRequest).trace = s.trace := rfl
@[simp] theorem State.takeRequest_now (s : State ε) : (s.takeRequest).now = s.now := rfl
@[simp] theorem State.takeRequest_requests (s : State ε) : (s.takeRequest).requests = s.requests.tail := rfl
@[simp] theorem State.takeRequest_answers (s : State ε) : (s.takeRequest).answers = s.answers := rfl
@[simp] theorem State.takeRequest_responses (s : State ε) : (s.takeRequest).responses = s.responses := rfl

/-! ### giveRequest -/

@[simp] theorem State.giveRequest_cfg (r : Request) (s : State ε) : (s.giveRequest r).cfg = s.cfg := rfl
@[simp] theorem State.giveRequest_settings (r : Request) (s : State ε) : (s.giveRequest r).settings = s.settings := rfl
@[simp] theorem State.giveRequest_prepared (r : Request) (s : State ε) : (s.giveRequest r).prepared = s.prepared := rfl
@[simp] theorem State.giveRequest_enabled (r : Request) (s : State ε) : (s.giveRequest r).enabled = s.enabled := rfl
@[simp] theorem State.giveRequest_fault (r : Request) (s : State ε) : (s.giveRequest r).fault = s.fault := rfl
@[simp] theorem State.giveRequest_railCore (r : Request) (s : State ε) : (s.giveRequest r).railCore = s.railCore := rfl
@[simp] theorem State.giveRequest_railSecond (r : Request) (s : State ε) : (s.giveRequest r).railSecond = s.railSecond := rfl
@[simp] theorem State.giveRequest_lineReset (r : Request) (s : State ε) : (s.giveRequest r).lineReset = s.lineReset := rfl
@[simp] theorem State.giveRequest_lineDC (r : Request) (s : State ε) : (s.giveRequest r).lineDC = s.lineDC := rfl
@[simp] theorem State.giveRequest_pc (r : Request) (s : State ε) : (s.giveRequest r).pc = .idle := rfl
@[simp] theorem State.giveRequest_trace (r : Request) (s : State ε) : (s.giveRequest r).trace = s.trace := rfl
@[simp] theorem State.giveRequest_now (r : Request) (s : State ε) : (s.giveRequest r).now = s.now := rfl
@[simp] theorem State.giveRequest_requests (r : Request) (s : State ε) : (s.giveRequest r).requests = r :: s.requests := rfl
@[simp] theorem State.giveRequest_answers (r : Request) (s : State ε) : (s.giveRequest r).answers = s.answers := rfl
@[simp] theorem State.giveRequest_responses (r : Request) (s : State ε) : (s.giveRequest r).responses = s.responses := rfl

end Sys2Proof.Machine
end

