-- ==== Sys2Proof/Laws/Ops.lean ====
section
/-! SUPPORT. Everything one downward call can do: what it leaves alone, what it does when it succeeds, and the ways it
fails. Later proofs cite these instead of unfolding `perform`. -/

namespace Sys2Proof.Machine

variable {ε : Type}

@[simp] theorem State.abort_eq (e : Response ε) (s : State ε) : s.abort e = s.answer e := rfl

@[simp] theorem State.misuse_eq (op : Instr) (s : State ε) :
    s.misuse op = s.setFault.answer (.fMisuse op s.prepared s.enabled) := rfl

/-- What no downward call changes, and that the trace and the clock only grow. -/
structure CallFrame (s t : State ε) : Prop where
  cfg : t.cfg = s.cfg
  settings : t.settings = s.settings
  prepared : t.prepared = s.prepared
  enabled : t.enabled = s.enabled
  fault : t.fault = s.fault
  pc : t.pc = s.pc
  requests : t.requests = s.requests
  responses : t.responses = s.responses
  trace : s.trace <+: t.trace
  now : s.now ≤ t.now

theorem CallFrame.refl (s : State ε) : CallFrame s s :=
  ⟨rfl, rfl, rfl, rfl, rfl, rfl, rfl, rfl, List.prefix_refl _, le_refl _⟩

theorem CallFrame.trans {s t u : State ε} (h : CallFrame s t) (k : CallFrame t u) : CallFrame s u :=
  ⟨k.cfg.trans h.cfg, k.settings.trans h.settings, k.prepared.trans h.prepared, k.enabled.trans h.enabled,
    k.fault.trans h.fault, k.pc.trans h.pc, k.requests.trans h.requests, k.responses.trans h.responses,
    h.trace.trans k.trace, h.now.trans k.now⟩

theorem CallFrame.log (ev : Event ε) (s : State ε) : CallFrame s (s.log ev) :=
  ⟨rfl, rfl, rfl, rfl, rfl, rfl, rfl, rfl, List.prefix_append _ _, le_refl _⟩

theorem CallFrame.consume (a : Answer ε) (s : State ε) : CallFrame s (s.consume a) :=
  ⟨rfl, rfl, rfl, rfl, rfl, rfl, rfl, rfl, List.prefix_refl _, Nat.le_add_right _ _⟩

theorem CallFrame.elapse (d : Nat) (s : State ε) : CallFrame s (s.elapse d) :=
  ⟨rfl, rfl, rfl, rfl, rfl, rfl, rfl, rfl, List.prefix_refl _, Nat.le_add_right _ _⟩

theorem CallFrame.setRail (r : Rail) (v : RailState) (s : State ε) : CallFrame s (s.setRail r v) :=
  ⟨rfl, rfl, rfl, rfl, rfl, rfl, rfl, rfl, List.prefix_refl _, le_refl _⟩

theorem CallFrame.setLine (l : Line) (v : Bool) (s : State ε) : CallFrame s (s.setLine l v) :=
  ⟨rfl, rfl, rfl, rfl, rfl, rfl, rfl, rfl, List.prefix_refl _, le_refl _⟩

/-- Whether a call has a result that can be `Err` (00_scope.md R11). -/
def Call.canFail : Call → Bool
  | .regEnable _ => true
  | .regDisable _ => true
  | .regDisableDeferred _ _ => true
  | .gpioSet _ _ => false
  | .delay _ => false
  | .delayThenOff _ _ => false
  | .xfer9 _ => true
  | .xfer8 _ => true

/-- The effect of a call that succeeded. -/
def Call.okEffect (c : Call) (s : State ε) : State ε :=
  match c with
  | .regEnable r => (s.setRail r .on).log (.regEn r .ok)
  | .regDisable r => (s.setRail r .off).log (.regDis r .ok)
  | .regDisableDeferred r d => s.log (.regDisDefer r d .ok)
  | .gpioSet l level => (s.setLine l level).log (.gpio l level)
  | .delay d => (s.elapse d).log (.delay d)
  | .delayThenOff d r => ((s.elapse d).log (.delay d)).setRail r .off
  | .xfer9 ws => s.log (.xfer9 ws .ok)
  | .xfer8 bs => s.log (.xfer8 bs .ok)

theorem Call.okEffect_frame (c : Call) (s : State ε) : CallFrame s (c.okEffect s) := by
  cases c
  case regEnable r => exact (CallFrame.setRail r .on s).trans (CallFrame.log _ _)
  case regDisable r => exact (CallFrame.setRail r .off s).trans (CallFrame.log _ _)
  case regDisableDeferred r d => exact CallFrame.log _ _
  case gpioSet l level => exact (CallFrame.setLine l level s).trans (CallFrame.log _ _)
  case delay d => exact (CallFrame.elapse d s).trans (CallFrame.log _ _)
  case delayThenOff d r =>
    exact ((CallFrame.elapse d s).trans (CallFrame.log _ _)).trans (CallFrame.setRail r .off _)
  case xfer9 ws => exact CallFrame.log _ _
  case xfer8 bs => exact CallFrame.log _ _

/-- The ways a call that the environment answered with `err e` fails: a regulator call, a transfer, and an SPI 4-wire
transfer whose line is restored by a further answer `b`. -/
inductive FailedCall (rd : Bool) (e : ε) (s : State ε) : Call → Response ε → State ε → Prop
  | regEnable (r) : FailedCall rd e s (.regEnable r) (.eReg e) (s.log (.regEn r (.err e)))
  | regDisable (r) : FailedCall rd e s (.regDisable r) (.eReg e) (s.log (.regDis r (.err e)))
  | regDisableDeferred (r d) :
      FailedCall rd e s (.regDisableDeferred r d) (.eReg e) (s.log (.regDisDefer r d (.err e)))
  | xfer9 (ws) (h : rd = false) : FailedCall rd e s (.xfer9 ws) (.eBus e) (s.log (.xfer9 ws (.err e)))
  | xfer8 (bs) (h : rd = false) : FailedCall rd e s (.xfer8 bs) (.eBus e) (s.log (.xfer8 bs (.err e)))
  | xfer9Restored (ws) (b : Answer ε) (rest : List (Answer ε)) (h : rd = true) (ha : s.answers = b :: rest) :
      FailedCall rd e s (.xfer9 ws) (.eBus e)
        ((((s.log (.xfer9 ws (.err e))).consume b).setLine .dc true).log (.gpio .dc true))
  | xfer8Restored (bs) (b : Answer ε) (rest : List (Answer ε)) (h : rd = true) (ha : s.answers = b :: rest) :
      FailedCall rd e s (.xfer8 bs) (.eBus e)
        ((((s.log (.xfer8 bs (.err e))).consume b).setLine .dc true).log (.gpio .dc true))

theorem FailedCall.frame {rd : Bool} {e : ε} {s t : State ε} {c : Call} {x : Response ε}
    (h : FailedCall rd e s c x t) : CallFrame s t := by
  cases h
  case xfer9Restored b _ _ _ =>
    exact ((CallFrame.log _ s).trans (CallFrame.consume b _)).trans
      ((CallFrame.setLine .dc true _).trans (CallFrame.log _ _))
  case xfer8Restored b _ _ _ =>
    exact ((CallFrame.log _ s).trans (CallFrame.consume b _)).trans
      ((CallFrame.setLine .dc true _).trans (CallFrame.log _ _))
  all_goals exact CallFrame.log _ _

theorem regulatorDone_done_iff {ev : Event ε} {res : Res ε} {f : State ε → State ε} {s t : State ε} :
    regulatorDone ev res f s = .done t ↔ res = .ok ∧ t = (f s).log ev := by
  cases res <;> simp [regulatorDone, eq_comm]

theorem transferDone_done_iff {ev : Event ε} {res : Res ε} {rd : Bool} {s t : State ε} :
    transferDone ev res rd s = .done t ↔ res = .ok ∧ t = s.log ev := by
  cases res with
  | ok => simp [transferDone, eq_comm]
  | err e =>
    simp only [transferDone, restoreThenFail, reduceCtorEq, false_and, iff_false]
    split
    · split <;> simp
    · simp

/-- A call is done exactly when it could not fail or was answered `ok`, and then it has its effect. -/
theorem callDone_done_iff {c : Call} {rd : Bool} {a : Answer ε} {s t : State ε} :
    callDone c rd a s = .done t ↔ (c.canFail = true → a.res = .ok) ∧ t = c.okEffect s := by
  obtain ⟨took, res⟩ := a
  cases c <;> cases res <;>
    simp only [callDone, Call.canFail, Call.okEffect, regulatorDone_done_iff, transferDone_done_iff, id,
      Attempt.done.injEq, true_implies, Bool.false_eq_true, false_implies, true_and, reduceCtorEq, false_and]
  all_goals exact eq_comm

/-- A call fails only with an error the environment gave it. -/
theorem callDone_fails {c : Call} {rd : Bool} {a : Answer ε} {s t : State ε} {x : Response ε}
    (h : callDone c rd a s = .fails x t) : ∃ e, a.res = .err e ∧ FailedCall rd e s c x t := by
  obtain ⟨took, res⟩ := a
  cases res with
  | ok => cases c <;> simp [callDone, regulatorDone, transferDone] at h
  | err e =>
    refine ⟨e, rfl, ?_⟩
    cases c
    case regEnable r =>
      simp only [callDone, regulatorDone, Attempt.fails.injEq] at h
      obtain ⟨rfl, rfl⟩ := h
      exact .regEnable r
    case regDisable r =>
      simp only [callDone, regulatorDone, Attempt.fails.injEq] at h
      obtain ⟨rfl, rfl⟩ := h
      exact .regDisable r
    case regDisableDeferred r d =>
      simp only [callDone, regulatorDone, Attempt.fails.injEq] at h
      obtain ⟨rfl, rfl⟩ := h
      exact .regDisableDeferred r d
    case gpioSet l v => simp [callDone] at h
    case delay d => simp [callDone] at h
    case delayThenOff d r => simp [callDone] at h
    case xfer9 ws =>
      cases rd with
      | false =>
        simp only [callDone, transferDone, Bool.false_eq_true, if_false, Attempt.fails.injEq] at h
        obtain ⟨rfl, rfl⟩ := h
        exact .xfer9 ws rfl
      | true =>
        simp only [callDone, transferDone, if_true, restoreThenFail, State.log_answers] at h
        split at h
        · cases h
        · rename_i b rest hb
          simp only [Attempt.fails.injEq] at h
          obtain ⟨rfl, rfl⟩ := h
          exact .xfer9Restored ws b rest rfl hb
    case xfer8 bs =>
      cases rd with
      | false =>
        simp only [callDone, transferDone, Bool.false_eq_true, if_false, Attempt.fails.injEq] at h
        obtain ⟨rfl, rfl⟩ := h
        exact .xfer8 bs rfl
      | true =>
        simp only [callDone, transferDone, if_true, restoreThenFail, State.log_answers] at h
        split at h
        · cases h
        · rename_i b rest hb
          simp only [Attempt.fails.injEq] at h
          obtain ⟨rfl, rfl⟩ := h
          exact .xfer8Restored bs b rest rfl hb

/-- The state a call is made in: the place's allocation has been granted, if it has one. -/
inductive Granted (sl : Slot) (s : State ε) : State ε → Prop
  | noBuffer (h : sl.alloc = false) : Granted sl s s
  | buffer (a : Answer ε) (rest : List (Answer ε)) (h : sl.alloc = true) (ha : s.answers = a :: rest) (hr : a.res = .ok) :
      Granted sl s (s.consume a)

theorem Granted.frame {sl : Slot} {s u : State ε} (h : Granted sl s u) : CallFrame s u := by
  cases h
  · exact CallFrame.refl s
  · exact CallFrame.consume _ s

theorem Granted.lines {sl : Slot} {s u : State ε} (h : Granted sl s u) :
    u.lineDC = s.lineDC ∧ u.lineReset = s.lineReset ∧ u.railCore = s.railCore ∧ u.railSecond = s.railSecond ∧
      u.trace = s.trace := by
  cases h <;> exact ⟨rfl, rfl, rfl, rfl, rfl⟩

theorem makeCall_done {c : Call} {rd : Bool} {s t : State ε} (h : makeCall c rd s = .done t) :
    ∃ a rest, s.answers = a :: rest ∧ (c.canFail = true → a.res = .ok) ∧ t = c.okEffect (s.consume a) := by
  unfold makeCall at h
  split at h
  · cases h
  · rename_i a rest ha
    obtain ⟨hr, ht⟩ := callDone_done_iff.mp h
    exact ⟨a, rest, ha, hr, ht⟩

theorem makeCall_fails {c : Call} {rd : Bool} {s t : State ε} {x : Response ε} (h : makeCall c rd s = .fails x t) :
    ∃ a rest e, s.answers = a :: rest ∧ a.res = .err e ∧ FailedCall rd e (s.consume a) c x t := by
  unfold makeCall at h
  split at h
  · cases h
  · rename_i a rest ha
    obtain ⟨e, he, hf⟩ := callDone_fails h
    exact ⟨a, rest, e, ha, he, hf⟩

/-- Everything `perform` does when it is done. -/
theorem perform_done {sl : Slot} {s t : State ε} (h : perform sl s = .done t) :
    ∃ u a rest, Granted sl s u ∧ u.answers = a :: rest ∧ (sl.call.canFail = true → a.res = .ok) ∧
      t = sl.call.okEffect (u.consume a) := by
  unfold perform at h
  split at h
  · rename_i hal
    split at h
    · cases h
    · rename_i b rest hb
      split at h
      · cases h
      · rename_i hok
        obtain ⟨a, rest', ha, hr, ht⟩ := makeCall_done h
        exact ⟨_, a, rest', .buffer b rest hal hb hok, ha, hr, ht⟩
  · rename_i hal
    obtain ⟨a, rest', ha, hr, ht⟩ := makeCall_done h
    exact ⟨s, a, rest', .noBuffer (by simpa using hal), ha, hr, ht⟩

/-- Everything `perform` does when it fails: the allocation was refused, or the call failed. -/
theorem perform_fails {sl : Slot} {s t : State ε} {x : Response ε} (h : perform sl s = .fails x t) :
    (sl.alloc = true ∧ x = .eNomem ∧ ∃ a rest e, s.answers = a :: rest ∧ a.res = .err e ∧ t = s.consume a) ∨
    (∃ u a rest e, Granted sl s u ∧ u.answers = a :: rest ∧ a.res = .err e ∧
      FailedCall sl.restoreDC e (u.consume a) sl.call x t) := by
  unfold perform at h
  split at h
  · rename_i hal
    split at h
    · cases h
    · rename_i b rest hb
      split at h
      · rename_i e he
        simp only [Attempt.fails.injEq] at h
        exact .inl ⟨hal, h.1.symm, b, rest, e, hb, he, h.2.symm⟩
      · rename_i hok
        obtain ⟨a, rest', e, ha, he, hf⟩ := makeCall_fails h
        exact .inr ⟨_, a, rest', e, .buffer b rest hal hb hok, ha, he, hf⟩
  · rename_i hal
    obtain ⟨a, rest', e, ha, he, hf⟩ := makeCall_fails h
    exact .inr ⟨s, a, rest', e, .noBuffer (by simpa using hal), ha, he, hf⟩

theorem perform_done_frame {sl : Slot} {s t : State ε} (h : perform sl s = .done t) : CallFrame s t := by
  obtain ⟨u, a, rest, hg, -, -, rfl⟩ := perform_done h
  exact (hg.frame.trans (CallFrame.consume a u)).trans (Call.okEffect_frame _ _)

theorem perform_fails_frame {sl : Slot} {s t : State ε} {x : Response ε} (h : perform sl s = .fails x t) :
    CallFrame s t := by
  obtain ⟨-, -, a, rest, e, -, -, rfl⟩ | ⟨u, a, rest, e, hg, -, -, hf⟩ := perform_fails h
  · exact CallFrame.consume a s
  · exact (hg.frame.trans (CallFrame.consume a u)).trans hf.frame

/-- A place without allocation whose call is answered. -/
theorem perform_plain_ok {c : Call} {rd : Bool} {s : State ε} {a : Answer ε} {rest : List (Answer ε)}
    (ha : s.answers = a :: rest) (hr : c.canFail = true → a.res = .ok) :
    perform ⟨false, c, rd⟩ s = .done (c.okEffect (s.consume a)) := by
  simp only [perform, Bool.false_eq_true, if_false, makeCall, ha]
  exact callDone_done_iff.mpr ⟨hr, rfl⟩

/-- The first place of a SEND whose allocation is granted and whose call is answered. -/
theorem perform_buffer_ok {c : Call} {rd : Bool} {s : State ε} {a b : Answer ε} {rest : List (Answer ε)}
    (ha : s.answers = a :: b :: rest) (hg : a.res = .ok) (hr : c.canFail = true → b.res = .ok) :
    perform ⟨true, c, rd⟩ s = .done (c.okEffect ((s.consume a).consume b)) := by
  simp only [perform, if_true, ha, hg, makeCall, State.consume_answers, List.tail_cons]
  exact callDone_done_iff.mpr ⟨hr, rfl⟩

/-- A refused allocation (40_transport.md R114). -/
theorem perform_buffer_refused {c : Call} {rd : Bool} {s : State ε} {a : Answer ε} {rest : List (Answer ε)} {e : ε}
    (ha : s.answers = a :: rest) (hg : a.res = .err e) :
    perform ⟨true, c, rd⟩ s = .fails .eNomem (s.consume a) := by
  simp [perform, ha, hg]

end Sys2Proof.Machine
end

