-- ==== Sys2Proof/Laws/PerInstr.lean ====
section
/-! SUPPORT. Statements that hold of every instruction, one lemma per constructor. EncodedWidth: under any opcode table
an instruction's encoding is as wide as its row of spec/opcode_table.json says (column "bits"). -/

namespace Sys2Proof.Laws.EncodedWidth

/-- The width of an instruction's row, as spec/opcode_table.json gives it. -/
def rowBits : Instr → Nat
  | .prepare => 11
  | .enable => 11
  | .disable => 11
  | .unprepare => 11
  | .setContrast _ => 11
  | .getContrast => 11
  | .setMuxRatio _ => 16
  | .setDisplayOffset _ => 16
  | .setStartLine _ => 8
  | .setSegRemap _ => 8
  | .setComScanDir _ => 8
  | .setComPins _ _ => 16
  | .setContrastCmd _ => 16
  | .setPrecharge _ _ => 16
  | .setVcomh _ => 16
  | .entireDisplayOn => 8
  | .setNormalInverse _ => 8
  | .setClock _ _ => 16
  | .chargePumpEnable => 16
  | .displayOn => 8
  | .displayOff => 8
  | .chargePumpDisable => 16
  | .w9 _ => 9
  | .w8 _ => 8
  | .w16 _ => 16

/-- The encoding of `i` is as wide as its row. -/
def Statement (i : Instr) : Prop := ∀ opc : Opcodes, requestBits (encode opc i) = rowBits i

theorem prepare : Statement .prepare := fun _ => rfl
theorem enable : Statement .enable := fun _ => rfl
theorem disable : Statement .disable := fun _ => rfl
theorem unprepare : Statement .unprepare := fun _ => rfl
theorem setContrast (b : Byte) : Statement (.setContrast b) := fun _ => rfl
theorem getContrast : Statement .getContrast := fun _ => rfl
theorem setMuxRatio (m : Byte) : Statement (.setMuxRatio m) := fun _ => rfl
theorem setDisplayOffset (o : Byte) : Statement (.setDisplayOffset o) := fun _ => rfl
theorem setStartLine (line : BitVec 7) : Statement (.setStartLine line) := fun _ => rfl
theorem setSegRemap (remap : Bool) : Statement (.setSegRemap remap) := fun _ => rfl
theorem setComScanDir (invert : Bool) : Statement (.setComScanDir invert) := fun _ => rfl
theorem setComPins (lrRemap seqPin : Bool) : Statement (.setComPins lrRemap seqPin) := fun _ => rfl
theorem setContrastCmd (c : Byte) : Statement (.setContrastCmd c) := fun _ => rfl
theorem setPrecharge (phase2 phase1 : BitVec 4) : Statement (.setPrecharge phase2 phase1) := fun _ => rfl
theorem setVcomh (v : Byte) : Statement (.setVcomh v) := fun _ => rfl
theorem entireDisplayOn : Statement .entireDisplayOn := fun _ => rfl
theorem setNormalInverse (inverse : Bool) : Statement (.setNormalInverse inverse) := fun _ => rfl
theorem setClock (frequency divider : BitVec 4) : Statement (.setClock frequency divider) := fun _ => rfl
theorem chargePumpEnable : Statement .chargePumpEnable := fun _ => rfl
theorem displayOn : Statement .displayOn := fun _ => rfl
theorem displayOff : Statement .displayOff := fun _ => rfl
theorem chargePumpDisable : Statement .chargePumpDisable := fun _ => rfl
theorem w9 (b : Byte) : Statement (.w9 b) := fun _ => rfl
theorem w8 (b : Byte) : Statement (.w8 b) := fun _ => rfl
theorem w16 (b : Byte) : Statement (.w16 b) := fun _ => rfl

end Sys2Proof.Laws.EncodedWidth
end

