-- ==== Sys2Proof/Laws/Sequencer.lean ====
section
/-! SUPPORT. Everything one step of the sequencer can do, the admission, running on, `step` and its runs, and the
packaged induction: what every admission and every `advance` keep, every `step` keeps. -/

namespace Sys2Proof.Machine

variable {ε : Type}

@[simp] theorem drive_zero (s : State ε) : drive 0 s = s := rfl
@[simp] theorem drive_succ (n : Nat) (s : State ε) : drive (n + 1) s = drive n (advance s) := rfl

theorem advance_idle {s : State ε} (h : s.pc = .idle) : advance s = s := by
  simp [advance, h]

theorem drive_idle {s : State ε} (n : Nat) (h : s.pc = .idle) : drive n s = s := by
  induction n with
  | zero => rfl
  | succ n ih => rw [drive_succ, advance_idle h, ih]

/-- What every call keeps, running on keeps. -/
theorem drive_keeps {P : State ε → Prop} (hP : ∀ s, P s → P (advance s)) (n : Nat) {s : State ε} (h : P s) :
    P (drive n s) := by
  induction n generalizing s with
  | zero => exact h
  | succ n ih => exact ih (hP s h)

/-- Everything `advance` can do: nothing, the completion of an operation without calls, a failed call, a call that is
not the last, the last call with the completion. -/
theorem advance_cases (s : State ε) :
    advance s = s ∨
    (∃ op, s.pc = .busy op 0 ∧ s.slots op = [] ∧ advance s = complete op s) ∨
    ∃ op i sl, s.pc = .busy op i ∧ (s.slots op)[i]? = some sl ∧
      ((∃ x t, perform sl s = .fails x t ∧ advance s = t.answer x) ∨
       (∃ t, perform sl s = .done t ∧ i + 1 < (s.slots op).length ∧ advance s = t.setPc (.busy op (i + 1))) ∨
       (∃ t, perform sl s = .done t ∧ i + 1 = (s.slots op).length ∧ advance s = complete op t)) := by
  rcases hpc : s.pc with _ | ⟨op, i⟩
  · exact .inl (advance_idle hpc)
  · rcases hsl : (s.slots op)[i]? with _ | sl
    · by_cases hi : i = 0
      · subst hi
        exact .inr (.inl ⟨op, rfl, by simpa using hsl, by simp [advance, hpc, hsl]⟩)
      · exact .inl (by simp [advance, hpc, hsl, hi])
    · rcases hp : perform sl s with _ | ⟨x, t⟩ | t
      · exact .inl (by simp [advance, hpc, hsl, hp])
      · refine .inr (.inr ⟨op, i, sl, rfl, hsl, .inl ⟨x, t, hp, by simp [advance, hpc, hsl, hp]⟩⟩)
      · refine .inr (.inr ⟨op, i, sl, rfl, hsl, .inr ?_⟩)
        have hlt : i < (s.slots op).length := (List.getElem?_eq_some_iff.mp hsl).1
        by_cases h : i + 1 < (s.slots op).length
        · exact .inl ⟨t, hp, h, by simp [advance, hpc, hsl, hp, afterCall, h]⟩
        · exact .inr ⟨t, hp, by omega, by simp [advance, hpc, hsl, hp, afterCall, h]⟩

/-- The completion of an operation without calls. -/
theorem advance_empty {s : State ε} {op : Operation} (hpc : s.pc = .busy op 0) (hsl : s.slots op = []) :
    advance s = complete op s := by
  simp [advance, hpc, hsl]

/-- A call that is done: on to the next, or the completion. -/
theorem advance_done {s t : State ε} {op : Operation} {i : Nat} {sl : Slot} (hpc : s.pc = .busy op i)
    (hsl : (s.slots op)[i]? = some sl) (hp : perform sl s = .done t) :
    advance s = afterCall op i (s.slots op).length t := by
  simp [advance, hpc, hsl, hp]

/-- A call that failed. -/
theorem advance_fails {s t : State ε} {op : Operation} {i : Nat} {sl : Slot} {x : Response ε} (hpc : s.pc = .busy op i)
    (hsl : (s.slots op)[i]? = some sl) (hp : perform sl s = .fails x t) : advance s = t.answer x := by
  simp [advance, hpc, hsl, hp]

/-- What the completion of an instruction leaves alone. -/
theorem complete_frame (op : Operation) (s : State ε) :
    (complete op s).cfg = s.cfg ∧ (complete op s).settings = s.settings ∧ (complete op s).fault = s.fault ∧
    (complete op s).railCore = s.railCore ∧ (complete op s).railSecond = s.railSecond ∧
    (complete op s).lineReset = s.lineReset ∧ (complete op s).lineDC = s.lineDC ∧
    (complete op s).trace = s.trace ∧ (complete op s).now = s.now ∧ (complete op s).requests = s.requests ∧
    (complete op s).answers = s.answers ∧ (complete op s).pc = .idle := by
  rcases op with i | c
  · cases i <;> exact ⟨rfl, rfl, rfl, rfl, rfl, rfl, rfl, rfl, rfl, rfl, rfl, rfl⟩
  · exact ⟨rfl, rfl, rfl, rfl, rfl, rfl, rfl, rfl, rfl, rfl, rfl, rfl⟩

/-- A completion gives exactly one response. -/
theorem complete_responses (op : Operation) (s : State ε) :
    ∃ r, (complete op s).responses = s.responses ++ [⟨s.now, r⟩] := by
  rcases op with i | c
  · cases i <;> exact ⟨_, rfl⟩
  · exact ⟨_, rfl⟩

/-- The sequence of an instruction follows the configuration and the settings only. -/
theorem slots_congr {s t : State ε} (hc : t.cfg = s.cfg) (hx : t.settings = s.settings) (op : Operation) :
    t.slots op = s.slots op := by
  simp only [State.slots, hc, hx]

/-- What no step of the sequencer changes; the trace and the clock only grow. -/
theorem advance_frame (s : State ε) :
    (advance s).cfg = s.cfg ∧ (advance s).settings = s.settings ∧ (advance s).fault = s.fault ∧
    (advance s).requests = s.requests ∧ s.trace <+: (advance s).trace ∧ s.now ≤ (advance s).now := by
  obtain h | ⟨op, -, -, h⟩ | ⟨op, i, sl, -, -, ⟨x, t, hp, h⟩ | ⟨t, hp, -, h⟩ | ⟨t, hp, -, h⟩⟩ := advance_cases s
  · simp [h]
  · have g := complete_frame op s
    rw [h, g.1, g.2.1, g.2.2.1, g.2.2.2.2.2.2.2.1, g.2.2.2.2.2.2.2.2.1, g.2.2.2.2.2.2.2.2.2.1]
    simp
  · have f := perform_fails_frame hp
    rw [h]
    exact ⟨f.cfg, f.settings, f.fault, f.requests, f.trace, f.now⟩
  · have f := perform_done_frame hp
    rw [h]
    exact ⟨f.cfg, f.settings, f.fault, f.requests, f.trace, f.now⟩
  · have f := perform_done_frame hp
    have g := complete_frame op t
    rw [h, g.1, g.2.1, g.2.2.1, g.2.2.2.2.2.2.2.1, g.2.2.2.2.2.2.2.2.1, g.2.2.2.2.2.2.2.2.2.1]
    exact ⟨f.cfg, f.settings, f.fault, f.requests, f.trace, f.now⟩

/-- The state in which an admitted instruction's sequence is expanded: `set_contrast` has stored its argument
(43_protocol.md R186). -/
def entered (op : Operation) (s : State ε) : State ε :=
  match op with
  | .instr (.setContrast b) => s.setContrastReg b
  | _ => s

/-- Every meaning is the execution of its instruction. -/
theorem exec_eq (i : Instr) (s : State) : exec i s = execute (.instr i) s := by
  cases i <;> rfl

@[simp] theorem execRaw_eq (c : Command) (s : State ε) : execRaw c s = execute (.raw c) s := rfl

/-- Everything an admission can do when it answers a next state: the block was idle, and the operation is admitted, or it
is a lifecycle operation and a misuse. -/
theorem accept_next_cases {op : Operation} {s t : State ε} (h : accept op s = .next t) :
    s.pc = .idle ∧ ((admitted op s = true ∧ t = (entered op s).begun op) ∨
      (∃ i, op = .instr i ∧ admitted op s = false ∧ t = s.misuse i)) := by
  rcases hpc : s.pc with _ | ⟨op', k⟩ <;> simp only [accept, hpc, reduceCtorEq] at h
  refine ⟨rfl, ?_⟩
  rcases op with i | c
  · cases i <;> simp only [acceptInstr, lifecycle, wireWord, Host.Outcome.next.injEq] at h
    case prepare | enable | disable | unprepare =>
      split at h <;> rename_i ha
      · exact .inl ⟨ha, h.symm⟩
      · exact .inr ⟨_, rfl, by simpa [admitted, admittedInstr] using ha, h.symm⟩
    case w9 | w8 | w16 =>
      split at h
      · rename_i ht
        exact .inl ⟨by simp [admitted, admittedInstr, ht], by simpa [entered] using h.symm⟩
      · cases h
    all_goals exact .inl ⟨rfl, h.symm⟩
  · exact .inl ⟨rfl, by simpa [entered] using h.symm⟩

/-- What an idle block answers to an operation it admits. -/
theorem accept_admitted {op : Operation} {s : State ε} (hpc : s.pc = .idle) (ha : admitted op s = true) :
    accept op s = .next ((entered op s).begun op) := by
  rcases op with i | c
  · cases i <;> simp_all [accept, acceptInstr, lifecycle, wireWord, admitted, admittedInstr, entered]
  · simp [accept, hpc, entered]

/-- An admission never faults. -/
theorem accept_ne_fault (op : Operation) (s : State ε) (f : Fault) : accept op s ≠ .fault f := by
  rcases hpc : s.pc with _ | ⟨op', k⟩
  · rcases op with i | c
    · cases i <;> simp only [accept, hpc, acceptInstr, wireWord, ne_eq, reduceCtorEq, not_false_eq_true]
      all_goals split <;> simp
    · simp [accept, hpc]
  · simp [accept, hpc]

@[simp] theorem State.begun_slots (op op' : Operation) (s : State ε) : (s.begun op').slots op = s.slots op := rfl
@[simp] theorem State.begun_steps (op op' : Operation) (s : State ε) : (s.begun op').steps op = s.steps op := rfl
@[simp] theorem State.begun_pc (op : Operation) (s : State ε) : (s.begun op).pc = .busy op 0 := rfl

theorem settle_idle {s : State ε} (h : s.pc = .idle) : settle s = s := by
  simp [settle, h]

theorem settle_busy {s : State ε} {op : Operation} {i : Nat} (h : s.pc = .busy op i) :
    settle s = drive (s.steps op - i) s := by
  simp [settle, h]

/-- Running on from the admission. -/
theorem settle_begun (op : Operation) (s : State ε) : settle (s.begun op) = drive (s.steps op) (s.begun op) := rfl

/-- Everything a whole operation can do when it answers a next state. -/
theorem execute_next_cases {op : Operation} {s t : State ε} (h : execute op s = .next t) :
    s.pc = .idle ∧ ((admitted op s = true ∧ t = settle ((entered op s).begun op)) ∨
      (∃ i, op = .instr i ∧ admitted op s = false ∧ t = s.misuse i)) := by
  unfold execute at h
  split at h <;> rename_i ha <;> simp only [Host.Outcome.next.injEq, reduceCtorEq] at h
  subst h
  obtain ⟨hpc, ⟨hok, rfl⟩ | ⟨i, rfl, hno, rfl⟩⟩ := accept_next_cases ha
  · exact ⟨hpc, .inl ⟨hok, rfl⟩⟩
  · exact ⟨hpc, .inr ⟨i, rfl, hno, settle_idle rfl⟩⟩

/-- The same of `exec`. -/
theorem exec_next_cases {i : Instr} {s t : State} (h : exec i s = .next t) :
    s.pc = .idle ∧ ((admitted (.instr i) s = true ∧ t = settle ((entered (.instr i) s).begun (.instr i))) ∨
      (admitted (.instr i) s = false ∧ t = s.misuse i)) := by
  obtain ⟨hpc, h | ⟨j, hj, hno, h⟩⟩ := execute_next_cases (exec_eq i s ▸ h)
  · exact ⟨hpc, .inl h⟩
  · cases hj
    exact ⟨hpc, .inr ⟨hno, h⟩⟩

/-- An admitted operation is begun and run. -/
theorem execute_admitted {op : Operation} {s : State ε} (hpc : s.pc = .idle) (ha : admitted op s = true) :
    execute op s = .next (settle ((entered op s).begun op)) := by
  simp [execute, accept_admitted hpc ha]

/-- The same of `exec`. -/
theorem exec_admitted {i : Instr} {s : State} (hpc : s.pc = .idle) (ha : admitted (.instr i) s = true) :
    exec i s = .next (settle ((entered (.instr i) s).begun (.instr i))) := by
  rw [exec_eq, execute_admitted hpc ha]

/-- A raw command is always admitted; it is begun when the block is idle. -/
theorem execRaw_next_cases {c : Command} {s t : State ε} (h : execRaw c s = .next t) :
    s.pc = .idle ∧ t = settle (s.begun (.raw c)) := by
  obtain ⟨hpc, ⟨-, rfl⟩ | ⟨i, hi, -⟩⟩ := execute_next_cases h
  · exact ⟨hpc, rfl⟩
  · cases hi

/-- Every controller command is admitted whatever the lifecycle state, stores nothing, and completes with `Ok`. -/
theorem command_facts {i : Instr} (h : i.layer = .command) (s : State ε) :
    admitted (.instr i) s = true ∧ entered (.instr i) s = s ∧ (∀ t : State ε, complete (.instr i) t = t.answer .ok) := by
  cases i <;> simp [Instr.layer] at h <;> exact ⟨rfl, rfl, fun _ => rfl⟩

/-- Every controller command but a charge-pump command without the charge pump is SEND of its bytes. -/
theorem command_slots {i : Instr} {c : Command} {s : State ε} (hc : commandOf s.cfg.opc i = some c)
    (hp : s.cfg.useChargePump = true ∨ (i ≠ .chargePumpEnable ∧ i ≠ .chargePumpDisable)) :
    s.slots (.instr i) = send s.cfg.transport c := by
  cases i <;> simp [commandOf, encode] at hc <;> subst hc <;>
    simp_all [State.slots, sequenceOf, useq, sendCommand, commandOf, encode, pumpOn, pumpOff]

/-- A raw command is SEND of its bytes. -/
@[simp] theorem raw_slots (c : Command) (s : State ε) : s.slots (.raw c) = send s.cfg.transport c := rfl

/-- Everything `step` can do when it answers a next state: nothing, an admission, a step of the operation in progress. -/
theorem step_next_cases {s t : State} (h : step s = .next t) :
    (s.pc = .idle ∧ s.requests = [] ∧ t = s) ∨
    (s.pc = .idle ∧ ∃ r rest op, s.requests = r :: rest ∧ accept op s.takeRequest = .next t ∧
      ((∃ i, op = .instr i ∧ decode s.cfg.opc r = .ok i) ∨
       (∃ c why, op = .raw c ∧ r = .command c ∧ decode s.cfg.opc r = .error why))) ∨
    (∃ op i, s.pc = .busy op i ∧ i < s.steps op ∧ t = advance s) := by
  unfold step at h
  split at h
  · rename_i hpc
    unfold fetch at h
    split at h
    · rename_i hr
      exact .inl ⟨hpc, hr, by simpa using h.symm⟩
    · rename_i r rest hr
      split at h
      · rename_i why hd
        cases r <;> simp only [noInstruction, reduceCtorEq] at h
        exact .inr (.inl ⟨hpc, _, rest, _, hr, h, .inr ⟨_, why, rfl, rfl, hd⟩⟩)
      · rename_i i hd
        exact .inr (.inl ⟨hpc, r, rest, _, hr, h, .inl ⟨i, rfl, hd⟩⟩)
  · rename_i op i hpc
    unfold goOn at h
    split at h
    · rename_i hlt
      exact .inr (.inr ⟨op, i, hpc, hlt, by simpa using h.symm⟩)
    · cases h

/-- A request that decodes is admitted by the step. -/
theorem step_admits {s : State} {r : Request} {rest : List Request} {i : Instr} (hpc : s.pc = .idle)
    (hr : s.requests = r :: rest) (hd : decode s.cfg.opc r = .ok i) : step s = accept (.instr i) s.takeRequest := by
  simp [step, hpc, fetch, hr, hd]

/-- A command that is no row is admitted by the step as a raw command. -/
theorem step_admits_raw {s : State} {c : Command} {rest : List Request} {why : DecodeError} (hpc : s.pc = .idle)
    (hr : s.requests = .command c :: rest) (hd : decode s.cfg.opc (.command c) = .error why) :
    step s = accept (.raw c) s.takeRequest := by
  simp [step, hpc, fetch, hr, hd, noInstruction]

/-- From a position inside the sequence a step is one step of the sequencer. -/
theorem step_busy {s : State} {op : Operation} {i : Nat} (hpc : s.pc = .busy op i) (hi : i < s.steps op) :
    step s = .next (advance s) := by
  simp [step, hpc, goOn, hi]

/-! ## Runs -/

@[simp] theorem after_zero (s : State) : after 0 s = .next s := rfl

theorem after_succ {s t : State} (n : Nat) (h : step s = .next t) : after (n + 1) s = after n t := by
  have h' : core.step s = .next t := h
  simp only [after, Host.Core.run, h']
  rfl

theorem after_one (s : State) : after 1 s = step s := by
  have h' : core.step s = step s := rfl
  simp only [after, Host.Core.run, h']
  cases step s <;> rfl

/-- A step that changes nothing can be repeated. -/
theorem drive_fixed {s : State ε} (h : advance s = s) (n : Nat) : drive n s = s := by
  induction n with
  | zero => rfl
  | succ n ih => rw [drive_succ, h, ih]

/-- Where a step of the sequencer leaves it: unchanged, idle, or at the next call of the same operation. -/
theorem advance_position {s : State ε} {op : Operation} {i : Nat} (hpc : s.pc = .busy op i) :
    advance s = s ∨ (advance s).pc = .idle ∨
      ((advance s).pc = .busy op (i + 1) ∧ i + 1 < (s.slots op).length ∧ ∀ o, (advance s).slots o = s.slots o) := by
  obtain h | ⟨op', -, -, h⟩ | ⟨op', k, sl, hk, -, ⟨x, t, -, h⟩ | ⟨t, hp, hlt, h⟩ | ⟨t, -, -, h⟩⟩ := advance_cases s
  · exact .inl h
  · exact .inr (.inl (by rw [h]; exact (complete_frame op' s).2.2.2.2.2.2.2.2.2.2.2))
  · exact .inr (.inl (by rw [h]; rfl))
  · rw [hpc] at hk
    cases hk
    have f := perform_done_frame hp
    exact .inr (.inr ⟨by rw [h]; rfl, hlt, fun o => by rw [h]; exact slots_congr f.cfg f.settings o⟩)
  · exact .inr (.inl (by rw [h]; exact (complete_frame op' t).2.2.2.2.2.2.2.2.2.2.2))

/-- Running on from a position inside the sequence is a run of `step`. -/
theorem after_drive (n : Nat) {s : State} {op : Operation} {i : Nat} (hpc : s.pc = .busy op i)
    (hi : i < s.steps op) (hn : n = s.steps op - i) : ∃ k, k ≤ n ∧ after k s = .next (drive n s) := by
  induction n generalizing s i with
  | zero => omega
  | succ n ih =>
    obtain h | h | ⟨h, hlt, hs⟩ := advance_position hpc
    · exact ⟨0, by omega, by rw [after_zero, drive_fixed h]⟩
    · exact ⟨1, by omega, by rw [after_one, step_busy hpc hi, drive_succ, drive_idle n h]⟩
    · have hsteps : (advance s).steps op = s.steps op := by simp [State.steps, hs]
      have hle : (s.slots op).length ≤ s.steps op := Nat.le_max_right _ _
      obtain ⟨k, hk, he⟩ := ih h (by omega) (by omega)
      exact ⟨k + 1, by omega, by rw [after_succ k (step_busy hpc hi), he, drive_succ]⟩

/-- A block in a legal position runs its operation to the end, or as far as the environment has answered. -/
theorem after_settle {s : State} {op : Operation} {i : Nat} (hpc : s.pc = .busy op i) (hi : i < s.steps op) :
    ∃ k, k ≤ s.steps op - i ∧ after k s = .next (settle s) := by
  rw [settle_busy hpc]
  exact after_drive _ hpc hi rfl

/-- The sequence of an operation does not depend on what its admission stores. -/
theorem entered_steps (op : Operation) (s : State ε) : (entered op s).steps op = s.steps op := by
  rcases op with i | c
  · cases i <;> rfl
  · rfl

/-- A step that admits an operation and the steps after it are the whole operation. -/
theorem after_execute {s u : State} {op : Operation} (h : step s = accept op u) :
    ∃ n, 1 ≤ n ∧ n ≤ u.steps op + 1 ∧ after n s = execute op u := by
  rcases ha : accept op u with t | f | r
  · obtain ⟨hpc, ⟨-, ht⟩ | ⟨i, -, -, ht⟩⟩ := accept_next_cases ha
    · have hb : t.pc = .busy op 0 := by rw [ht]; rfl
      have hst : t.steps op = u.steps op := by rw [ht, State.begun_steps, entered_steps]
      have hpos : 0 < t.steps op := Nat.lt_of_lt_of_le Nat.one_pos (Nat.le_max_left _ _)
      obtain ⟨k, hk, he⟩ := after_settle hb hpos
      refine ⟨k + 1, by omega, by omega, ?_⟩
      rw [after_succ k (h.trans ha), he]
      simp [execute, ha]
    · refine ⟨1, by omega, by omega, ?_⟩
      rw [after_one, h]
      simp [execute, ha, settle_idle (s := t) (by rw [ht]; rfl)]
  · exact absurd ha (accept_ne_fault op u f)
  · exact ⟨1, by omega, by omega, by rw [after_one, h]; simp [execute, ha]⟩

/-! ## What every step keeps -/

/-- The packaged induction: a property that taking a request, a misuse, the admission of an operation and every step of
the sequencer keep is kept by `step`. -/
theorem step_keeps {P : State → Prop} (hadv : ∀ s, P s → P (advance s))
    (htake : ∀ s, P s → s.pc = .idle → P s.takeRequest)
    (hmis : ∀ i s, P s → s.pc = .idle → P (s.misuse i))
    (hbegin : ∀ op s, P s → s.pc = .idle → admitted op s = true → P ((entered op s).begun op))
    {s t : State} (hs : P s) (h : step s = .next t) : P t := by
  obtain ⟨-, -, rfl⟩ | ⟨hpc, r, rest, op, -, hx, -⟩ | ⟨op, i, -, -, rfl⟩ := step_next_cases h
  · exact hs
  · obtain ⟨hpc', ⟨ha, rfl⟩ | ⟨i, -, -, rfl⟩⟩ := accept_next_cases hx
    · exact hbegin op _ (htake s hs hpc) hpc' ha
    · exact hmis i _ (htake s hs hpc) hpc'
  · exact hadv s hs

/-- What an admitted operation's entry and every step of the sequencer keep, the whole operation keeps. -/
theorem settle_keeps {P : State ε → Prop} (hadv : ∀ s, P s → P (advance s)) {s : State ε} (h : P s) : P (settle s) := by
  unfold settle
  split
  · exact h
  · exact drive_keeps hadv _ h

end Sys2Proof.Machine
end

