-- ==== Sys2Proof/Laws/Run.lean ====
section
/-! SUPPORT. Running a sequence whose calls the environment answers with `ok`: the state after it, place by place. -/

namespace Sys2Proof.Machine

variable {ε : Type}

/-- Use up the next answer. -/
def State.draw (s : State ε) : State ε :=
  match s.answers with
  | [] => s
  | a :: _ => s.consume a

/-- How many answers a place of a sequence asks for when all goes well. -/
def Slot.draws (sl : Slot) : Nat := if sl.alloc then 2 else 1

/-- A place whose allocation and call went well. -/
def Slot.run (sl : Slot) (s : State ε) : State ε :=
  sl.call.okEffect (if sl.alloc then s.draw.draw else s.draw)

/-- Places that all went well, one after another. -/
def runSlots : List Slot → State ε → State ε
  | [], s => s
  | sl :: sls, s => runSlots sls (sl.run s)

/-- How many answers a list of places asks for when all goes well. -/
def drawsOf : List Slot → Nat
  | [] => 0
  | sl :: sls => sl.draws + drawsOf sls

@[simp] theorem runSlots_nil (s : State ε) : runSlots [] s = s := rfl
@[simp] theorem runSlots_cons (sl : Slot) (sls : List Slot) (s : State ε) :
    runSlots (sl :: sls) s = runSlots sls (sl.run s) := rfl
@[simp] theorem drawsOf_nil : drawsOf [] = 0 := rfl
@[simp] theorem drawsOf_cons (sl : Slot) (sls : List Slot) : drawsOf (sl :: sls) = sl.draws + drawsOf sls := rfl

theorem runSlots_append (xs ys : List Slot) (s : State ε) : runSlots (xs ++ ys) s = runSlots ys (runSlots xs s) := by
  induction xs generalizing s with
  | nil => rfl
  | cons x xs ih => simp [ih]

theorem drawsOf_append (xs ys : List Slot) : drawsOf (xs ++ ys) = drawsOf xs + drawsOf ys := by
  induction xs with
  | nil => simp
  | cons x xs ih => simp [ih, Nat.add_assoc]

theorem State.draw_cons {s : State ε} {a : Answer ε} {rest : List (Answer ε)} (h : s.answers = a :: rest) :
    s.draw = s.consume a := by
  simp [State.draw, h]

theorem State.draw_frame (s : State ε) : CallFrame s s.draw := by
  unfold State.draw
  split
  · exact CallFrame.refl s
  · exact CallFrame.consume _ s

theorem Slot.run_frame (sl : Slot) (s : State ε) : CallFrame s (sl.run s) := by
  unfold Slot.run
  split
  · exact (s.draw_frame.trans (State.draw_frame _)).trans (Call.okEffect_frame _ _)
  · exact s.draw_frame.trans (Call.okEffect_frame _ _)

theorem runSlots_frame (sls : List Slot) (s : State ε) : CallFrame s (runSlots sls s) := by
  induction sls generalizing s with
  | nil => exact CallFrame.refl s
  | cons sl sls ih => exact (sl.run_frame s).trans (ih _)

theorem Call.okEffect_answers (c : Call) (s : State ε) : (c.okEffect s).answers = s.answers := by
  cases c <;> rfl

theorem Slot.run_answers {sl : Slot} {s : State ε} {oks rest : List (Answer ε)} (ha : s.answers = oks ++ rest)
    (hl : oks.length = sl.draws) : (sl.run s).answers = rest := by
  unfold Slot.run
  rw [Call.okEffect_answers]
  cases hal : sl.alloc with
  | true =>
    simp only [Slot.draws, hal, if_true] at hl
    obtain ⟨a, b, rfl⟩ := List.length_eq_two.mp hl
    simp only [if_true]
    have h1 : s.draw = s.consume a := State.draw_cons (rest := b :: rest) (by simpa using ha)
    rw [h1, State.draw_cons (a := b) (rest := rest) (by simp [ha])]
    simp [ha]
  | false =>
    simp only [Slot.draws, hal, Bool.false_eq_true, if_false] at hl
    obtain ⟨a, rfl⟩ := List.length_eq_one_iff.mp hl
    simp only [Bool.false_eq_true, if_false]
    rw [State.draw_cons (a := a) (rest := rest) (by simpa using ha)]
    simp [ha]

/-- A place whose answers are all `ok` is done, with its effect. -/
theorem perform_ok {sl : Slot} {s : State ε} {oks rest : List (Answer ε)} (ha : s.answers = oks ++ rest)
    (hl : oks.length = sl.draws) (hok : ∀ a ∈ oks, a.res = .ok) : perform sl s = .done (sl.run s) := by
  obtain ⟨al, c, rd⟩ := sl
  cases al with
  | true =>
    simp only [Slot.draws, if_true] at hl
    obtain ⟨a, b, rfl⟩ := List.length_eq_two.mp hl
    have h1 : s.answers = a :: b :: rest := by simpa using ha
    rw [perform_buffer_ok h1 (hok a (by simp)) (fun _ => hok b (by simp))]
    simp only [Slot.run, if_true]
    rw [State.draw_cons h1, State.draw_cons (a := b) (rest := rest) (by simp [h1])]
  | false =>
    simp only [Slot.draws, Bool.false_eq_true, if_false] at hl
    obtain ⟨a, rfl⟩ := List.length_eq_one_iff.mp hl
    have h1 : s.answers = a :: rest := by simpa using ha
    rw [perform_plain_ok h1 (fun _ => hok a (by simp))]
    simp only [Slot.run, Bool.false_eq_true, if_false]
    rw [State.draw_cons h1]

theorem State.draw_setPc (s : State ε) (p : Pc) : (s.setPc p).draw = s.draw.setPc p := by
  unfold State.draw
  simp only [State.setPc_answers]
  split <;> rfl

theorem Call.okEffect_setPc (c : Call) (s : State ε) (p : Pc) : c.okEffect (s.setPc p) = (c.okEffect s).setPc p := by
  cases c <;> rfl

theorem Slot.run_setPc (sl : Slot) (s : State ε) (p : Pc) : sl.run (s.setPc p) = (sl.run s).setPc p := by
  unfold Slot.run
  split <;> simp only [State.draw_setPc, Call.okEffect_setPc]

theorem runSlots_setPc (sls : List Slot) (s : State ε) (p : Pc) :
    runSlots sls (s.setPc p) = (runSlots sls s).setPc p := by
  induction sls generalizing s with
  | nil => rfl
  | cons sl sls ih => simp only [runSlots_cons, Slot.run_setPc, ih]

theorem State.setPc_setPc (s : State ε) (p q : Pc) : (s.setPc p).setPc q = s.setPc q := rfl

theorem State.setPc_self {s : State ε} {p : Pc} (h : s.pc = p) : s.setPc p = s := by
  subst h; rfl

theorem complete_setPc (op : Operation) (s : State ε) (p : Pc) : complete op (s.setPc p) = complete op s := by
  rcases op with i | c
  · cases i <;> rfl
  · rfl

theorem State.answer_setPc (s : State ε) (x : Response ε) (p : Pc) : (s.setPc p).answer x = s.answer x := rfl

/-- Running through places that all go well and are not the last: the sequencer stands after them. -/
theorem drive_through {op : Operation} {sls more : List Slot} {s : State ε} {i : Nat} {oks rest : List (Answer ε)}
    (hpc : s.pc = .busy op i) (hs : (s.slots op).drop i = sls ++ more) (hm : more ≠ [])
    (ha : s.answers = oks ++ rest) (hl : oks.length = drawsOf sls) (hok : ∀ a ∈ oks, a.res = .ok) :
    drive sls.length s = (runSlots sls s).setPc (.busy op (i + sls.length)) ∧ (runSlots sls s).answers = rest := by
  induction sls generalizing s i oks with
  | nil =>
    simp only [drawsOf_nil, List.length_eq_zero_iff] at hl
    subst hl
    exact ⟨(State.setPc_self hpc).symm, by simpa using ha⟩
  | cons sl sls ih =>
    simp only [drawsOf_cons] at hl
    obtain ⟨xs, ys, rfl, hx⟩ : ∃ xs ys, oks = xs ++ ys ∧ xs.length = sl.draws :=
      ⟨oks.take sl.draws, oks.drop sl.draws, (List.take_append_drop _ _).symm, by simp; omega⟩
    have hy : ys.length = drawsOf sls := by simp at hl; omega
    have ha' : s.answers = xs ++ (ys ++ rest) := by simpa using ha
    have hp := perform_ok ha' hx (fun a h => hok a (by simp [h]))
    have hget : (s.slots op)[i]? = some sl := by
      have := congrArg List.head? hs
      simpa [List.head?_drop] using this
    have hrest : (s.slots op).drop (i + 1) = sls ++ more := by
      have := congrArg List.tail hs
      simpa [List.tail_drop] using this
    have hlt : i + 1 < (s.slots op).length := by
      have := congrArg List.length hrest
      simp at this
      have : 0 < more.length := List.length_pos_iff.mpr hm
      omega
    have hadv : advance s = (sl.run s).setPc (.busy op (i + 1)) := by
      rw [advance_done hpc hget hp, afterCall, if_pos hlt]
    have f := sl.run_frame s
    have hslots : ((sl.run s).setPc (.busy op (i + 1))).slots op = s.slots op :=
      slots_congr (by simpa using f.cfg) (by simpa using f.settings) op
    have hans : ((sl.run s).setPc (.busy op (i + 1))).answers = ys ++ rest := by
      simpa using Slot.run_answers ha' hx
    obtain ⟨h1, h2⟩ := ih (s := (sl.run s).setPc (.busy op (i + 1))) (i := i + 1) (oks := ys) rfl
      (by rw [hslots]; exact hrest) hans hy (fun a h => hok a (by simp [h]))
    rw [runSlots_setPc] at h1 h2
    refine ⟨?_, by simpa using h2⟩
    rw [List.length_cons, drive_succ, hadv, h1, State.setPc_setPc, runSlots_cons]
    congr 2
    omega

/-- Running a sequence to its end with every answer `ok`. -/
theorem drive_to_end {op : Operation} {sls : List Slot} {s : State ε} {i : Nat} {oks rest : List (Answer ε)}
    (hpc : s.pc = .busy op i) (hs : (s.slots op).drop i = sls) (hne : sls ≠ [])
    (ha : s.answers = oks ++ rest) (hl : oks.length = drawsOf sls) (hok : ∀ a ∈ oks, a.res = .ok) :
    drive sls.length s = complete op (runSlots sls s) ∧ (runSlots sls s).answers = rest := by
  induction sls generalizing s i oks with
  | nil => exact absurd rfl hne
  | cons sl sls ih =>
    simp only [drawsOf_cons] at hl
    obtain ⟨xs, ys, rfl, hx⟩ : ∃ xs ys, oks = xs ++ ys ∧ xs.length = sl.draws :=
      ⟨oks.take sl.draws, oks.drop sl.draws, (List.take_append_drop _ _).symm, by simp; omega⟩
    have hy : ys.length = drawsOf sls := by simp at hl; omega
    have ha' : s.answers = xs ++ (ys ++ rest) := by simpa using ha
    have hp := perform_ok ha' hx (fun a h => hok a (by simp [h]))
    have hget : (s.slots op)[i]? = some sl := by
      have := congrArg List.head? hs
      simpa [List.head?_drop] using this
    have hrest : (s.slots op).drop (i + 1) = sls := by
      have := congrArg List.tail hs
      simpa [List.tail_drop] using this
    have hlen := congrArg List.length hrest
    simp only [List.length_drop] at hlen
    have hiLt : i < (s.slots op).length := (List.getElem?_eq_some_iff.mp hget).1
    have f := sl.run_frame s
    cases sls with
    | nil =>
      have hnot : ¬ i + 1 < (s.slots op).length := by simp at hlen; omega
      have hys : ys = [] := by simpa using hy
      subst hys
      refine ⟨?_, by simpa using Slot.run_answers ha' hx⟩
      simp only [List.length_cons, List.length_nil, drive_succ, drive_zero, runSlots_cons, runSlots_nil]
      rw [advance_done hpc hget hp, afterCall, if_neg hnot]
    | cons sl' sls' =>
      have hlt : i + 1 < (s.slots op).length := by simp at hlen; omega
      have hadv : advance s = (sl.run s).setPc (.busy op (i + 1)) := by
        rw [advance_done hpc hget hp, afterCall, if_pos hlt]
      have hslots : ((sl.run s).setPc (.busy op (i + 1))).slots op = s.slots op :=
        slots_congr (by simpa using f.cfg) (by simpa using f.settings) op
      have hans : ((sl.run s).setPc (.busy op (i + 1))).answers = ys ++ rest := by
        simpa using Slot.run_answers ha' hx
      obtain ⟨h1, h2⟩ := ih (s := (sl.run s).setPc (.busy op (i + 1))) (i := i + 1) (oks := ys) rfl
        (by rw [hslots]; exact hrest) (by simp) hans hy (fun a h => hok a (by simp [h]))
      rw [runSlots_setPc] at h1 h2
      refine ⟨?_, by simpa using h2⟩
      rw [List.length_cons, drive_succ, hadv, h1, complete_setPc]
      rfl

/-- An operation that is begun and whose answers are all `ok` completes. -/
theorem settle_ok {op : Operation} {s : State ε} {oks rest : List (Answer ε)} (ha : s.answers = oks ++ rest)
    (hl : oks.length = drawsOf (s.slots op)) (hok : ∀ a ∈ oks, a.res = .ok) :
    settle (s.begun op) = complete op (runSlots (s.slots op) s) ∧ (runSlots (s.slots op) s).answers = rest := by
  by_cases h0 : s.slots op = []
  · have hsteps : s.steps op = 1 := by simp [State.steps, h0]
    rw [h0] at hl ⊢
    simp only [drawsOf_nil, List.length_eq_zero_iff] at hl
    subst hl
    refine ⟨?_, by simpa using ha⟩
    rw [settle_begun, hsteps, drive_succ, drive_zero, advance_empty (State.begun_pc op s) h0]
    exact complete_setPc op s _
  · have hsteps : s.steps op = (s.slots op).length := Nat.max_eq_right (List.length_pos_iff.mpr h0)
    obtain ⟨h1, h2⟩ := drive_to_end (op := op) (sls := s.slots op) (s := s.begun op) (i := 0) rfl rfl h0 ha hl hok
    rw [State.begun, runSlots_setPc] at h1 h2
    exact ⟨by rw [settle_begun, hsteps, State.begun, h1, complete_setPc], by simpa using h2⟩

/-- An operation that is begun and whose place after `sls` fails, all before it having gone well, ends with that error. -/
theorem settle_fails {op : Operation} {sls more : List Slot} {sl : Slot} {s t : State ε} {x : Response ε}
    {oks rest : List (Answer ε)} (hs : s.slots op = sls ++ sl :: more) (ha : s.answers = oks ++ rest)
    (hl : oks.length = drawsOf sls) (hok : ∀ a ∈ oks, a.res = .ok)
    (hp : perform sl ((runSlots sls s).setPc (.busy op sls.length)) = .fails x t) :
    settle (s.begun op) = t.answer x := by
  obtain ⟨h1, -⟩ := drive_through (op := op) (sls := sls) (more := sl :: more) (s := s.begun op) (i := 0)
    rfl hs (by simp) ha hl hok
  rw [State.begun, runSlots_setPc, State.setPc_setPc, Nat.zero_add] at h1
  have hsplit : ∀ (m n : Nat) (u : State ε), drive (m + n) u = drive n (drive m u) := by
    intro m n u
    induction m generalizing u with
    | zero => simp
    | succ m ih => rw [Nat.succ_add, drive_succ, drive_succ, ih]
  have hlen : s.steps op = sls.length + (more.length + 1) := by simp [State.steps, hs]; omega
  have f := runSlots_frame sls s
  have hsl2 : ((runSlots sls s).setPc (.busy op sls.length)).slots op = s.slots op :=
    slots_congr (by simpa using f.cfg) (by simpa using f.settings) op
  have hget : (((runSlots sls s).setPc (.busy op sls.length)).slots op)[sls.length]? = some sl := by
    rw [hsl2, hs]
    simp
  rw [settle_begun, State.begun, hlen, hsplit, h1, drive_succ, advance_fails rfl hget hp, drive_idle _ rfl]

end Sys2Proof.Machine
end

