-- ==== Sys2Proof/Tests/Slice0.lean ====
section
/-! SUPPORT. Tests with expected results from spec/95_test_vectors.md and from the encodings of spec/30_encoding.md, and
for every statement with hypotheses a concrete case that meets them (names witness_…). -/

namespace Sys2Proof.Tests

open Sys2Proof Sys2Proof.Machine Sys2Proof.Spec

/-! ## Helpers -/

/-- `n` answers `ok`, each after one microsecond. -/
def oks (n : Nat) : List Answer := List.replicate n ⟨1, .ok⟩

/-- An answer `Err(e)`. -/
def bad (e : ErrVal) : Answer := ⟨1, .err e⟩

/-- A block right after attach with the settings S_A of 95_test_vectors.md, and the environment's answers. -/
def block (t : Transport) (line pump : Bool) (answers : List Answer) : State :=
  { State.afterAttach ⟨t, line, pump, defaultOpcodes⟩ resetSettings false with answers := answers }

/-- The same block PREPARED, with the rails and the reset line as `prepare` leaves them. -/
def preparedBlock (t : Transport) (line pump : Bool) (answers : List Answer) : State :=
  { block t line pump answers with prepared := true, railCore := .on, railSecond := .on, lineReset := line }

/-- The same block ENABLED. -/
def enabledBlock (t : Transport) (line pump : Bool) (answers : List Answer) : State :=
  { preparedBlock t line pump answers with enabled := true }

/-- A block on SPI 4-wire inside the bracket of `DISPLAY_ON`: the line is at the command level, the transfer is next. -/
def insideBracketBlock : State :=
  { block .spi4 false false (oks 2) with
    pc := .busy (.instr .displayOn) 1, lineDC := false, trace := [⟨0, .gpio .dc false⟩] }

/-- A PREPARED block that waits for the end of the core-logic hold of `unprepare`, which the environment now answers. -/
def waitingBlock : State :=
  { preparedBlock .i2c true false (oks 1) with pc := .busy (.instr .unprepare) 2, railSecond := .off }

/-- A block on I2C that is asked for the raw command of vector T3. -/
def rawBlock (answers : List Answer) : State :=
  { block .i2c false false answers with requests := [.command (.c2 0x21#8 0x00#8 0x7F#8)] }

/-- Whether an outcome is a next state with a property. -/
def holds (o : Host.Outcome State Fault Refusal) (p : State → Bool) : Bool :=
  match o with
  | .next t => p t
  | .fault _ => false
  | .refused _ => false

/-- The events of the state an instruction leaves. -/
def eventsOf (i : Instr) (s : State) : List Event :=
  match exec i s with
  | .next t => t.trace.map Stamped.ev
  | .fault _ => []
  | .refused _ => []

/-- The responses of the state an instruction leaves. -/
def answersOf (i : Instr) (s : State) : List Response :=
  match exec i s with
  | .next t => t.responses.map Reply.rsp
  | .fault _ => []
  | .refused _ => []

theorem grants_of {s : State} {n : Nat} {rest : List Answer} (h : s.answers = oks n ++ rest) : Grants s n rest :=
  ⟨oks n, h, by simp [oks], by simp [oks]⟩

theorem fails_of {s : State} {n m : Nat} {e : ErrVal} {rest : List Answer}
    (h : s.answers = oks n ++ bad e :: oks m ++ rest) : FailsAfter s n e m rest :=
  ⟨bad e, oks m, rfl, by simp [oks], grants_of (by simpa using h)⟩

/-! ## Well-formedness -/

/-- 42_regdecode.md R153: line 0x45 has the byte of line 0x05. -/
theorem test_start_line_bit_six_refused : (Instr.setStartLine 0x45#7).wellFormed = false := by decide

theorem test_start_line_63_accepted : (Instr.setStartLine 0x3F#7).wellFormed = true := by decide

/-! ## Decoding: words written out from 30_encoding.md R81 (selector, argument), R88 to R90, R84 to R86 -/

theorem test_decode_prepare : decode defaultOpcodes (.host 0b000_00000000#11) = .ok .prepare := by decide
theorem test_decode_enable_ignores_arg : decode defaultOpcodes (.host 0b001_11111111#11) = .ok .enable := by decide
theorem test_decode_disable : decode defaultOpcodes (.host 0b010_00000000#11) = .ok .disable := by decide
theorem test_decode_unprepare : decode defaultOpcodes (.host 0b011_00000000#11) = .ok .unprepare := by decide
theorem test_decode_set_contrast :
    decode defaultOpcodes (.host 0b100_11001000#11) = .ok (.setContrast 200#8) := by decide
theorem test_decode_get_contrast : decode defaultOpcodes (.host 0b101_00000000#11) = .ok .getContrast := by decide
theorem test_decode_reserved_selector :
    decode defaultOpcodes (.host 0b110_00000000#11) = .error .reservedSelector ∧
      decode defaultOpcodes (.host 0b111_11111111#11) = .error .reservedSelector := by decide
theorem test_decode_mux_ratio :
    decode defaultOpcodes (.command (.c1 0b10101000#8 0b00111111#8)) = .ok (.setMuxRatio 63#8) := by decide
theorem test_decode_display_offset :
    decode defaultOpcodes (.command (.c1 0b11010011#8 0b00011111#8)) = .ok (.setDisplayOffset 31#8) := by decide
theorem test_decode_start_line :
    decode defaultOpcodes (.command (.c0 0b01111111#8)) = .ok (.setStartLine 63#7) := by decide
theorem test_decode_seg_remap :
    decode defaultOpcodes (.command (.c0 0b10100000#8)) = .ok (.setSegRemap false) ∧
      decode defaultOpcodes (.command (.c0 0b10100001#8)) = .ok (.setSegRemap true) := by decide
theorem test_decode_com_scan_dir :
    decode defaultOpcodes (.command (.c0 0b11000000#8)) = .ok (.setComScanDir false) ∧
      decode defaultOpcodes (.command (.c0 0b11001000#8)) = .ok (.setComScanDir true) := by decide
theorem test_decode_com_pins :
    decode defaultOpcodes (.command (.c1 0b11011010#8 0b00010010#8)) = .ok (.setComPins false false) ∧
      decode defaultOpcodes (.command (.c1 0b11011010#8 0b00000010#8)) = .ok (.setComPins false true) ∧
      decode defaultOpcodes (.command (.c1 0b11011010#8 0b00110010#8)) = .ok (.setComPins true false) := by decide
theorem test_decode_com_pins_reserved_bit :
    decode defaultOpcodes (.command (.c1 0b11011010#8 0b10010010#8)) = .error .noSuchCommand := by decide
theorem test_decode_contrast_command :
    decode defaultOpcodes (.command (.c1 0b10000001#8 0b10101111#8)) = .ok (.setContrastCmd 0xAF#8) := by decide
/-- Phase 2 is the high nibble (V33). -/
theorem test_decode_precharge :
    decode defaultOpcodes (.command (.c1 0b11011001#8 0b11110001#8)) = .ok (.setPrecharge 15#4 1#4) := by decide
theorem test_decode_vcomh :
    decode defaultOpcodes (.command (.c1 0b11011011#8 0b01000000#8)) = .ok (.setVcomh 0x40#8) := by decide
theorem test_decode_entire_display_on :
    decode defaultOpcodes (.command (.c0 0b10100101#8)) = .ok .entireDisplayOn := by decide
theorem test_decode_normal_inverse :
    decode defaultOpcodes (.command (.c0 0b10100110#8)) = .ok (.setNormalInverse false) ∧
      decode defaultOpcodes (.command (.c0 0b10100111#8)) = .ok (.setNormalInverse true) := by decide
/-- The frequency is the high nibble (V42). -/
theorem test_decode_clock :
    decode defaultOpcodes (.command (.c1 0b11010101#8 0b00000001#8)) = .ok (.setClock 0#4 1#4) := by decide
theorem test_decode_charge_pump :
    decode defaultOpcodes (.command (.c1 0b10001101#8 0b00010100#8)) = .ok .chargePumpEnable ∧
      decode defaultOpcodes (.command (.c1 0b10001101#8 0b00010000#8)) = .ok .chargePumpDisable := by decide
theorem test_decode_display_on_off :
    decode defaultOpcodes (.command (.c0 0b10101111#8)) = .ok .displayOn ∧
      decode defaultOpcodes (.command (.c0 0b10101110#8)) = .ok .displayOff := by decide
theorem test_decode_no_such_command :
    decode defaultOpcodes (.command (.c0 0b10100100#8)) = .error .noSuchCommand ∧
      decode defaultOpcodes (.command (.c2 0x21#8 0x00#8 0x7F#8)) = .error .noSuchCommand := by decide
theorem test_decode_w9 : decode defaultOpcodes (.word9 0b0_11001000#9) = .ok (.w9 200#8) := by decide
theorem test_decode_w9_data_tag : decode defaultOpcodes (.word9 0b1_11001000#9) = .error .dataTag := by decide
theorem test_decode_w8 : decode defaultOpcodes (.word8 0b11001000#8) = .ok (.w8 200#8) := by decide
theorem test_decode_w16 :
    decode defaultOpcodes (.word16 0b11000000_11001000#16) = .ok (.w16 200#8) := by decide
theorem test_decode_w16_control_byte :
    decode defaultOpcodes (.word16 0b00000000_11001000#16) = .error .otherControlByte := by decide

/-- Table words: the request words of 95_test_vectors.md section 6, and one of each other width. -/
theorem test_table_words :
    decodeTableWord 16 0x4C8 = some (.setContrast 200#8) ∧ decodeTableWord 11 0x1FF = some .enable ∧
      decodeTableWord 9 0x0C8 = some (.w9 200#8) ∧ decodeTableWord 8 0xAF = some .displayOn ∧
      decodeTableWord 16 0xD580 = some (.setClock 8#4 0#4) ∧ decodeTableWord 16 0xC0AF = some (.w16 0xAF#8) ∧
      decodeTableWord 16 0x600 = none := by decide

/-! ## The register-configuration decoder -/

/-- The settings S_C of 95_test_vectors.md section 3. -/
def settingsC : Settings :=
  { resetSettings with
    height := 16#32, comOffset := 0x1F#32, displayStartLine := 0x45#32, comScanInvert := false, comLrRemap := true
    contrast := 0xFF#8, prechargePhase1 := 0x12#32, prechargePhase2 := 3#32, vcomhDeselect := 0x35#32
    inverseDisplay := true, clockDivideRatio := 16#32, oscillatorFrequency := 15#32 }

theorem test_init_cmds_S_C :
    (initCmds settingsC).map (commandBytes defaultOpcodes) =
      [[0xA8, 0x0F], [0xD3, 0x1F], [0x45], [0xA1], [0xC0], [0xDA, 0x32], [0x81, 0xFF], [0xD9, 0x32], [0xDB, 0x35],
       [0xA5], [0xA7], [0xD5, 0xFF]] := by decide

/-- The wraps of V13 (`height` 0) and V43 (clock ratio 0). -/
theorem test_wraps_at_zero :
    commandBytes defaultOpcodes (cmdMuxRatio { resetSettings with height := 0#32 }) = [0xA8#8, 0xFF#8] ∧
      commandBytes defaultOpcodes
        (cmdClock { resetSettings with clockDivideRatio := 0#32, oscillatorFrequency := 0#32 }) = [0xD5#8, 0x0F#8] := by
  decide

/-! ## Controller commands: one transfer each (R111 to R113), bytes of the vectors V10 to V46 -/

theorem test_set_mux_ratio : eventsOf (.setMuxRatio 0x3F#8) (block .spi3 false false (oks 2)) =
    [.xfer9 [0x0A8#9, 0x03F#9] .ok] := by decide
theorem test_set_display_offset : eventsOf (.setDisplayOffset 0xFF#8) (block .i2c false false (oks 2)) =
    [.xfer8 [0xC0#8, 0xD3#8, 0xC0#8, 0xFF#8] .ok] := by decide
theorem test_set_start_line : eventsOf (.setStartLine 0x3F#7) (block .spi4 false false (oks 4)) =
    [.gpio .dc false, .xfer8 [0x7F#8] .ok, .gpio .dc true] := by decide
theorem test_set_seg_remap : eventsOf (.setSegRemap true) (block .spi3 false false (oks 2)) =
    [.xfer9 [0x0A1#9] .ok] := by decide
/-- The opcode 0xC0 equals the control byte (V4). -/
theorem test_set_com_scan_dir : eventsOf (.setComScanDir false) (block .i2c false false (oks 2)) =
    [.xfer8 [0xC0#8, 0xC0#8] .ok] := by decide
/-- V28: `com_seq_pin_cfg` = 1, `com_lr_remap` = 0. -/
theorem test_set_com_pins : eventsOf (.setComPins false true) (block .spi3 false false (oks 2)) =
    [.xfer9 [0x0DA#9, 0x002#9] .ok] := by decide
theorem test_set_contrast_command : eventsOf (.setContrastCmd 0xAF#8) (block .spi4 false false (oks 4)) =
    [.gpio .dc false, .xfer8 [0x81#8, 0xAF#8] .ok, .gpio .dc true] := by decide
theorem test_set_contrast_command_stores_nothing :
    holds (exec (.setContrastCmd 0xAF#8) (block .i2c false false (oks 2)))
      (fun t => t.settings.contrast = 0x7F#8) = true := by decide
theorem test_set_precharge : eventsOf (.setPrecharge 1#4 15#4) (block .i2c false false (oks 2)) =
    [.xfer8 [0xC0#8, 0xD9#8, 0xC0#8, 0x1F#8] .ok] := by decide
theorem test_set_vcomh : eventsOf (.setVcomh 0x35#8) (block .spi3 false false (oks 2)) =
    [.xfer9 [0x0DB#9, 0x035#9] .ok] := by decide
theorem test_entire_display_on : eventsOf .entireDisplayOn (block .i2c false false (oks 2)) =
    [.xfer8 [0xC0#8, 0xA5#8] .ok] := by decide
theorem test_set_normal_inverse : eventsOf (.setNormalInverse true) (block .spi3 false false (oks 2)) =
    [.xfer9 [0x0A7#9] .ok] := by decide
theorem test_set_clock : eventsOf (.setClock 8#4 0#4) (block .i2c false false (oks 2)) =
    [.xfer8 [0xC0#8, 0xD5#8, 0xC0#8, 0x80#8] .ok] := by decide
theorem test_charge_pump_enable : eventsOf .chargePumpEnable (block .spi3 false true (oks 2)) =
    [.xfer9 [0x08D#9, 0x014#9] .ok] := by decide
theorem test_display_on : eventsOf .displayOn (block .spi3 false false (oks 2)) = [.xfer9 [0x0AF#9] .ok] := by decide
/-- V8: the transfer of display-off fails on SPI 4-wire, the line is restored. -/
theorem test_display_off_fails :
    eventsOf .displayOff (block .spi4 false false (oks 2 ++ [bad 7] ++ oks 1)) =
        [.gpio .dc false, .xfer8 [0xAE#8] (.err 7), .gpio .dc true] ∧
      answersOf .displayOff (block .spi4 false false (oks 2 ++ [bad 7] ++ oks 1)) = [.eBus 7] := by decide
/-- V9: the allocation is refused. -/
theorem test_display_off_no_memory :
    eventsOf .displayOff (block .spi4 false false [bad 7]) = [] ∧
      answersOf .displayOff (block .spi4 false false [bad 7]) = [.eNomem] := by decide
theorem test_charge_pump_disable : eventsOf .chargePumpDisable (block .i2c false true (oks 2)) =
    [.xfer8 [0xC0#8, 0x8D#8, 0xC0#8, 0x10#8] .ok] := by decide
/-- 41_power.md R141: without the charge pump no charge-pump command is sent. -/
theorem test_no_pump_no_command :
    eventsOf .chargePumpEnable (block .spi3 false false (oks 2)) = [] ∧
      eventsOf .chargePumpDisable (block .spi3 false false (oks 2)) = [] := by decide

/-! ## Raw commands (30_encoding.md R83, R96): vectors V1, V7 and V3 -/

theorem test_raw_c0 :
    holds (execRaw (.c0 0x00#8) (block .spi3 false false (oks 2)))
      (fun t => t.trace.map Stamped.ev = [.xfer9 [0x000#9] .ok] && t.responses.map Reply.rsp = [.ok]) = true := by decide
theorem test_raw_c2 :
    holds (execRaw (.c2 0x21#8 0xFF#8 0x01#8) (block .i2c false false (oks 2)))
      (fun t => t.trace.map Stamped.ev = [.xfer8 [0xC0#8, 0x21#8, 0xC0#8, 0xFF#8, 0xC0#8, 0x01#8] .ok]) = true := by
  decide
theorem test_raw_c1 :
    holds (execRaw (.c1 0x80#8 0x80#8) (block .spi4 false false (oks 4)))
      (fun t => t.trace.map Stamped.ev = [.gpio .dc false, .xfer8 [0x80#8, 0x80#8] .ok, .gpio .dc true]) = true := by
  decide
/-- The step admits it, and sends nothing yet. -/
theorem test_raw_admitted :
    holds (step (rawBlock (oks 2))) (fun t => t.pc = .busy (.raw (.c2 0x21#8 0x00#8 0x7F#8)) 0 && t.trace = []) = true := by
  decide

/-! ## Wire words -/

theorem test_w9 : eventsOf (.w9 0xFF#8) (block .spi3 false false (oks 1)) = [.xfer9 [0x0FF#9] .ok] := by decide
theorem test_w8 : eventsOf (.w8 0xFF#8) (block .spi4 false false (oks 3)) =
    [.gpio .dc false, .xfer8 [0xFF#8] .ok, .gpio .dc true] := by decide
theorem test_w16 : eventsOf (.w16 0xFF#8) (block .i2c false false (oks 1)) = [.xfer8 [0xC0#8, 0xFF#8] .ok] := by decide

/-! ## Host operations -/

/-- Program P2's `prepare` on I2C without a reset line, with settings S_A: 14 events, rails ON, PREPARED. -/
theorem test_prepare_i2c :
    (eventsOf .prepare (block .i2c false true (oks 26))).take 4 =
        [.regEn .vcore .ok, .regEn .vcp .ok, .xfer8 [0xC0#8, 0xA8#8, 0xC0#8, 0x3F#8] .ok,
         .xfer8 [0xC0#8, 0xD3#8, 0xC0#8, 0x00#8] .ok] ∧
      (eventsOf .prepare (block .i2c false true (oks 26))).length = 14 := by decide
/-- V53: with a reset line, the second enable fails: five events, the first rail stays ON. -/
theorem test_prepare_second_enable_fails :
    eventsOf .prepare (block .spi3 true false (oks 4 ++ [bad 3])) =
        [.regEn .vcore .ok, .gpio .reset false, .delay 3, .gpio .reset true, .regEn .vpanel (.err 3)] ∧
      holds (exec .prepare (block .spi3 true false (oks 4 ++ [bad 3])))
        (fun t => t.railCore = .on && t.railSecond = .off && !t.prepared && t.lineReset) = true := by decide
/-- V71. -/
theorem test_enable :
    eventsOf .enable (preparedBlock .spi3 true true (oks 5)) =
        [.xfer9 [0x08D#9, 0x014#9] .ok, .xfer9 [0x0AF#9] .ok, .delay 100000] ∧
      holds (exec .enable (preparedBlock .spi3 true true (oks 5))) (fun t => t.enabled) = true := by decide
/-- V109. -/
theorem test_enable_misuse :
    answersOf .enable (block .spi3 true true []) = [.fMisuse .enable false false] ∧
      holds (exec .enable (block .spi3 true true [])) (fun t => t.fault && !t.enabled) = true := by decide
/-- V77. -/
theorem test_disable :
    eventsOf .disable (enabledBlock .i2c true true (oks 4)) =
        [.xfer8 [0xC0#8, 0xAE#8] .ok, .xfer8 [0xC0#8, 0x8D#8, 0xC0#8, 0x10#8] .ok] ∧
      holds (exec .disable (enabledBlock .i2c true true (oks 4))) (fun t => !t.enabled && t.prepared) = true := by decide
/-- V105. -/
theorem test_disable_fails_stays_enabled :
    holds (exec .disable (enabledBlock .i2c true true (oks 1 ++ [bad 5])))
      (fun t => t.enabled && t.responses.map Reply.rsp = [.eBus 5]) = true := by decide
/-- V55. -/
theorem test_unprepare :
    eventsOf .unprepare (preparedBlock .i2c true false (oks 3)) =
        [.regDis .vpanel .ok, .regDisDefer .vcore 100000 .ok, .delay 100000] ∧
      holds (exec .unprepare (preparedBlock .i2c true false (oks 3)))
        (fun t => !t.prepared && t.railCore = .off && t.railSecond = .off && t.lineReset) = true := by decide
/-- V107. -/
theorem test_unprepare_deferred_fails :
    holds (exec .unprepare (preparedBlock .i2c true false (oks 1 ++ [bad 2])))
      (fun t => t.prepared && t.railCore = .on && t.railSecond = .off &&
        t.responses.map Reply.rsp = [.eReg 2]) = true := by decide
/-- T10 on I2C. -/
theorem test_set_contrast_200 :
    eventsOf (.setContrast 200#8) (enabledBlock .i2c true false (oks 2)) =
        [.xfer8 [0xC0#8, 0x81#8, 0xC0#8, 0xC8#8] .ok] ∧
      holds (exec (.setContrast 200#8) (enabledBlock .i2c true false (oks 2)))
        (fun t => t.settings.contrast = 200#8) = true := by decide
/-- V82: the store is kept when the transfer fails. -/
theorem test_set_contrast_kept :
    holds (exec (.setContrast 255#8) (block .spi3 true false (oks 1 ++ [bad 4])))
      (fun t => t.settings.contrast = 255#8 && t.responses.map Reply.rsp = [.eBus 4]) = true := by decide
theorem test_get_contrast :
    answersOf .getContrast (block .spi4 true false []) = [.okValue 0x7F#8] ∧
      eventsOf .getContrast (block .spi4 true false []) = [] := by decide

/-! ## The step -/

/-- One step admits, the next makes the one call (10_state.md R34), which waits for its second answer here (93 U12). -/
theorem test_step_admits_then_calls :
    holds (step { block .i2c false false (oks 2) with requests := [.command (.c0 0xAF#8)] })
        (fun t => t.pc = .busy (.instr .displayOn) 0 && t.trace = [] && t.answers.length = 2) = true ∧
      holds (step { block .i2c false false (oks 1) with pc := .busy (.instr .displayOn) 0 })
        (fun t => t.pc = .busy (.instr .displayOn) 0 && t.trace = []) = true ∧
      holds (step { block .i2c false false (oks 2) with pc := .busy (.instr .displayOn) 0 })
        (fun t => t.pc = .idle && t.trace.length = 1) = true := by decide

/-- Inside a bracket a step makes one call, not the rest of the operation. -/
theorem test_step_is_one_call :
    holds (step insideBracketBlock)
      (fun t => t.pc = .busy (.instr .displayOn) 2 && t.trace.length = 2 && t.responses = []) = true := by decide

/-- `get_contrast` has no call: its admission and its completion are two steps. -/
theorem test_step_completes :
    holds (step { block .spi4 true false [] with requests := [.host 0x500#11] })
        (fun t => t.pc = .busy (.instr .getContrast) 0 && t.responses = []) = true ∧
      holds (step { block .spi4 true false [] with pc := .busy (.instr .getContrast) 0 })
        (fun t => t.pc = .idle && t.responses.map Reply.rsp = [.okValue 0x7F#8] && t.trace = []) = true := by decide

theorem test_step_reserved_selector :
    step { block .i2c false false [] with requests := [.host 0x600#11] } =
      .refused (.notAnInstruction .reservedSelector) := rfl

/-- From reset, a placed word is the instruction the next step begins. -/
theorem test_fetch_word :
    holds (step (State.reset.withFetchWord 16 0x4C8)) (fun t => t.pc = .busy (.instr (.setContrast 200#8)) 0) = true ∧
      holds (step (State.reset.withFetchWord 9 0x0C8)) (fun t => t.pc = .busy (.instr (.w9 200#8)) 0) = true ∧
      holds (step (State.reset.withFetchWord 16 0x500)) (fun t => t.pc = .busy (.instr .getContrast) 0) = true := by decide

/-! ## Attach -/

/-- A board with I2C and the charge-pump supply. -/
def boardI2c : Board := ⟨false, false, true, true, false, true, true, false, true, [8]⟩

theorem test_attach_accepts :
    (attach boardI2c defaultOpcodes resetSettings 0x1C8#32 true : Except AttachError State) =
      .ok (State.afterAttach ⟨.i2c, true, true, defaultOpcodes⟩ { resetSettings with contrast := 0xC8#8 } true) := rfl

/-- 00_scope.md R6 (2) and (5). -/
theorem test_attach_refuses :
    (attach { boardI2c with panelSupply := true } defaultOpcodes resetSettings 0#32 true : Except AttachError State) =
        .error (.eResource .secondSupply) ∧
      (attach { boardI2c with wordBits := [9] } defaultOpcodes resetSettings 0#32 true : Except AttachError State) =
        .error (.eCapability 8) :=
  ⟨rfl, rfl⟩

/-! ## Every statement's hypotheses are met -/

theorem witness_DecodeOfEncode : (Instr.setStartLine 63#7).wellFormed = true := by decide

theorem witness_EncodeOfDecode :
    (Instr.setComPins true false).layer ≠ .hostOperation ∧
      decode defaultOpcodes (.command (.c1 0xDA#8 0x32#8)) = .ok (.setComPins true false) ∧
      (Instr.w16 0xAF#8).layer ≠ .hostOperation ∧ decode defaultOpcodes (.word16 0xC0AF#16) = .ok (.w16 0xAF#8) := by
  decide

theorem witness_TableWordsDecode :
    (Instr.w16 0xFF#8).wellFormed = true ∧ (∀ b, Instr.w16 0xFF#8 ≠ .w9 b) ∧ (∀ b, Instr.w16 0xFF#8 ≠ .w8 b) :=
  ⟨rfl, by simp, by simp⟩

/-- The second clause of NineBitWords, at the largest byte; the third, on a sequence that has words. -/
theorem witness_NineBitWords :
    encode defaultOpcodes (.w9 0xFF#8) = .word9 0x0FF#9 ∧
      words9 (sequenceOf ⟨.spi3, false, true, defaultOpcodes⟩ resetSettings (.instr .enable)) =
        [0x08D#9, 0x014#9, 0x0AF#9] := by decide

theorem witness_UnreadSettings : ∃ t, exec .prepare (block .i2c false true (oks 26)) = .next t := ⟨_, rfl⟩

theorem witness_CommandOnSpi3 :
    tableBytes (block .spi3 false false []).cfg (.setPrecharge 15#4 15#4) = some [0xD9#8, 0xFF#8] ∧
      (block .spi3 false false (oks 2)).cfg.transport = .spi3 ∧ (block .spi3 false false (oks 2)).pc = .idle ∧
      (block .spi3 false false (oks 2)).answers = ⟨1, .ok⟩ :: ⟨1, .ok⟩ :: [] := by decide

theorem witness_CommandOnSpi4 :
    tableBytes (block .spi3 false false []).cfg (.setStartLine 127#7) = some [0x7F#8] ∧
      (block .spi4 false false (oks 4)).cfg.transport = .spi4 ∧ (block .spi4 false false (oks 4)).pc = .idle ∧
      (block .spi4 false false (oks 4)).answers = ⟨1, .ok⟩ :: ⟨1, .ok⟩ :: ⟨1, .ok⟩ :: ⟨1, .ok⟩ :: [] := by decide

theorem witness_CommandOnI2c :
    tableBytes (block .spi3 false false []).cfg (.setComPins true true) = some [0xDA#8, 0x22#8] ∧
      (block .i2c false false (oks 2)).cfg.transport = .i2c ∧ (block .i2c false false (oks 2)).pc = .idle ∧
      (block .i2c false false (oks 2)).answers = ⟨1, .ok⟩ :: ⟨1, .ok⟩ :: [] := by decide

theorem witness_AllocationRefused :
    tableBytes (block .spi3 false false []).cfg .displayOff = some [0xAE#8] ∧ (block .spi4 false false [bad 7]).pc = .idle ∧
      (block .spi4 false false [bad 7]).answers = bad 7 :: [] ∧ (bad 7).res = .err 7 := by decide

/-- On each of the three transports. -/
theorem witness_TransferFails :
    tableBytes (block .spi3 false false []).cfg .displayOff = some [0xAE#8] ∧
      ((block .spi3 false false (oks 1 ++ [bad 7])).pc = .idle ∧
        FailsAfter (block .spi3 false false (oks 1 ++ [bad 7])) (drawsBeforeTransfer .spi3) 7
          (drawsAfterFailure .spi3) []) ∧
      ((block .i2c false false (oks 1 ++ [bad 7])).pc = .idle ∧
        FailsAfter (block .i2c false false (oks 1 ++ [bad 7])) (drawsBeforeTransfer .i2c) 7
          (drawsAfterFailure .i2c) []) ∧
      ((block .spi4 false false (oks 2 ++ bad 7 :: oks 1)).pc = .idle ∧
        FailsAfter (block .spi4 false false (oks 2 ++ bad 7 :: oks 1)) (drawsBeforeTransfer .spi4) 7
          (drawsAfterFailure .spi4) []) :=
  ⟨rfl, ⟨rfl, fails_of rfl⟩, ⟨rfl, fails_of rfl⟩, rfl, fails_of rfl⟩

/-- The three clauses, one for each transport. -/
theorem witness_WireWordsRun :
    ((block .spi3 false false (oks 1)).pc = .idle ∧ (block .spi3 false false (oks 1)).cfg.transport = .spi3 ∧
        (block .spi3 false false (oks 1)).answers = ⟨1, .ok⟩ :: []) ∧
      ((block .i2c false false (oks 1)).pc = .idle ∧ (block .i2c false false (oks 1)).cfg.transport = .i2c ∧
        (block .i2c false false (oks 1)).answers = ⟨1, .ok⟩ :: []) ∧
      ((block .spi4 false false (oks 3)).pc = .idle ∧ (block .spi4 false false (oks 3)).cfg.transport = .spi4 ∧
        (block .spi4 false false (oks 3)).answers = ⟨1, .ok⟩ :: ⟨1, .ok⟩ :: ⟨1, .ok⟩ :: []) := by decide

/-- The clauses of a wire word on another transport. -/
theorem witness_WireWordsRun_elsewhere :
    State.reset.pc = .idle ∧ State.reset.cfg.transport ≠ .spi3 ∧ State.reset.cfg.transport ≠ .spi4 ∧
      (block .spi3 false false []).pc = .idle ∧ (block .spi3 false false []).cfg.transport ≠ .i2c := by decide

/-- A command and a raw command begun, and a command in progress. -/
theorem witness_CommandFrame :
    (Operation.instr .displayOn).layer ≠ .hostOperation ∧ (Operation.raw (.c0 0#8)).layer ≠ .hostOperation ∧
      (∃ t, Runs (.instr .displayOn) (block .i2c false false (oks 2)) t) ∧
      (∃ t, Runs (.raw (.c0 0#8)) (block .i2c false false (oks 2)) t) ∧
      (∃ t, Runs (.instr .displayOn) insideBracketBlock t) ∧
      (PositionLegal (block .i2c false false (oks 2)) ∧ (block .i2c false false (oks 2)).cfg.transport ≠ .spi4) :=
  ⟨by decide, by decide, ⟨_, .inl rfl⟩, ⟨_, .inl rfl⟩, ⟨_, .inr (.inr ⟨1, rfl, rfl⟩)⟩, fun op i h => (by cases h), by decide⟩

/-- The three clauses: all answered, the transfer fails, the buffer is refused. -/
theorem witness_RawCommandRuns :
    (rawBlock (oks 2)).pc = .idle ∧ (rawBlock (oks 2)).requests = .command (.c2 0x21#8 0x00#8 0x7F#8) :: [] ∧
      decode (rawBlock (oks 2)).cfg.opc (.command (.c2 0x21#8 0x00#8 0x7F#8)) = .error .noSuchCommand ∧
      Grants (rawBlock (oks 2)) (sendDraws (rawBlock (oks 2)).cfg.transport) [] ∧
      FailsAfter (rawBlock (oks 1 ++ [bad 7])) (drawsBeforeTransfer .i2c) 7 (drawsAfterFailure .i2c) [] ∧
      FailsAfter (rawBlock [bad 7]) 0 7 0 [] :=
  ⟨rfl, rfl, rfl, grants_of rfl, fails_of rfl, fails_of rfl⟩

theorem witness_PumpCommandElsewhere :
    (block .spi3 false false []).cfg.useChargePump = false ∧ (block .spi3 false false []).pc = .idle := by decide

theorem witness_PrepareCompletes :
    (block .spi4 true false (oks 53)).pc = .idle ∧ (block .spi4 true false (oks 53)).prepared = false ∧
      (block .spi4 true false (oks 53)).enabled = false ∧
      Grants (block .spi4 true false (oks 53))
        (powerOnCalls (block .spi4 true false (oks 53)).cfg +
          12 * sendDraws (block .spi4 true false (oks 53)).cfg.transport) [] :=
  ⟨rfl, rfl, rfl, grants_of rfl⟩

/-- The same without a reset line. -/
theorem witness_PrepareCompletes_no_line :
    (block .i2c false true (oks 26)).pc = .idle ∧ (block .i2c false true (oks 26)).prepared = false ∧
      (block .i2c false true (oks 26)).enabled = false ∧
      Grants (block .i2c false true (oks 26))
        (powerOnCalls (block .i2c false true (oks 26)).cfg +
          12 * sendDraws (block .i2c false true (oks 26)).cfg.transport) [] :=
  ⟨rfl, rfl, rfl, grants_of rfl⟩

/-- Both clauses. -/
theorem witness_PowerOnFailures :
    ((block .spi3 true false [bad 3]).pc = .idle ∧ (block .spi3 true false [bad 3]).prepared = false ∧
        (block .spi3 true false [bad 3]).enabled = false ∧ (block .spi3 true false [bad 3]).answers = bad 3 :: []) ∧
      ((block .spi3 true false (oks 4 ++ [bad 3])).pc = .idle ∧
        Grants (block .spi3 true false (oks 4 ++ [bad 3]))
          (powerOnCalls (block .spi3 true false (oks 4 ++ [bad 3])).cfg - 1) (bad 3 :: []) ∧ (bad 3).res = .err 3) :=
  ⟨⟨rfl, rfl, rfl, rfl⟩, rfl, grants_of rfl, rfl⟩

/-- Both clauses, at the first command and at the twelfth (V80, V103). -/
theorem witness_InitStopsAtFirstFailure :
    ((initBytes defaultOpcodes resetSettings)[0]? = some [0xA8#8, 0x3F#8] ∧
        (initBytes defaultOpcodes resetSettings)[11]? = some [0xD5#8, 0x80#8]) ∧
      FailsAfter (block .spi4 true false (oks (5 + 11 * 4 + 2) ++ bad 7 :: oks 1))
        (5 + 11 * sendDraws .spi4 + drawsBeforeTransfer .spi4) 7 (drawsAfterFailure .spi4) [] ∧
      FailsAfter (block .i2c false false (oks (2 + 0 * 2 + 1) ++ [bad 7]))
        (2 + 0 * sendDraws .i2c + drawsBeforeTransfer .i2c) 7 (drawsAfterFailure .i2c) [] ∧
      FailsAfter (block .i2c false false (oks 2 ++ [bad 7])) (2 + 0 * sendDraws .i2c) 7 0 [] ∧
      FailsAfter (block .i2c false false (oks (2 + 11 * 2) ++ [bad 7])) (2 + 11 * sendDraws .i2c) 7 0 [] :=
  ⟨by decide, fails_of rfl, fails_of rfl, fails_of rfl, fails_of rfl⟩

/-- With the charge pump and without. -/
theorem witness_EnableCompletes :
    (preparedBlock .spi4 true true (oks 9)).pc = .idle ∧ (preparedBlock .spi4 true true (oks 9)).prepared = true ∧
      (preparedBlock .spi4 true true (oks 9)).enabled = false ∧
      Grants (preparedBlock .spi4 true true (oks 9))
        ((enableBytes (preparedBlock .spi4 true true (oks 9)).cfg).length * sendDraws .spi4 + 1) [] ∧
      Grants (preparedBlock .i2c true false (oks 3))
        ((enableBytes (preparedBlock .i2c true false (oks 3)).cfg).length * sendDraws .i2c + 1) [] :=
  ⟨rfl, rfl, rfl, grants_of rfl, grants_of rfl⟩

theorem witness_DisableCompletes :
    (enabledBlock .i2c true true (oks 4)).pc = .idle ∧ (enabledBlock .i2c true true (oks 4)).prepared = true ∧
      (enabledBlock .i2c true true (oks 4)).enabled = true ∧
      Grants (enabledBlock .i2c true true (oks 4))
        ((disableBytes (enabledBlock .i2c true true (oks 4)).cfg).length * sendDraws .i2c) [] :=
  ⟨rfl, rfl, rfl, grants_of rfl⟩

/-- At the first command and at the second (V74, V75). -/
theorem witness_EnableStopsAtFirstError :
    (enableBytes (preparedBlock .i2c true true []).cfg)[0]? = some [0x8D#8, 0x14#8] ∧
      FailsAfter (preparedBlock .i2c true true (oks 1 ++ [bad 7])) (0 * sendDraws .i2c + drawsBeforeTransfer .i2c) 7
        (drawsAfterFailure .i2c) [] ∧
      (enableBytes (preparedBlock .spi4 true true []).cfg)[1]? = some [0xAF#8] ∧
      FailsAfter (preparedBlock .spi4 true true (oks 6 ++ bad 7 :: oks 1))
        (1 * sendDraws .spi4 + drawsBeforeTransfer .spi4) 7 (drawsAfterFailure .spi4) [] ∧
      FailsAfter (preparedBlock .i2c true true [bad 7]) (0 * sendDraws .i2c) 7 0 [] ∧
      FailsAfter (preparedBlock .spi4 true true (oks 4 ++ [bad 7])) (1 * sendDraws .spi4) 7 0 [] :=
  ⟨rfl, fails_of rfl, rfl, fails_of rfl, fails_of rfl, fails_of rfl⟩

/-- At the first command and at the second (V78, V105). -/
theorem witness_DisableStopsAtFirstError :
    (disableBytes (enabledBlock .i2c true true []).cfg)[0]? = some [0xAE#8] ∧
      FailsAfter (enabledBlock .i2c true true (oks 1 ++ [bad 7])) (0 * sendDraws .i2c + drawsBeforeTransfer .i2c) 7
        (drawsAfterFailure .i2c) [] ∧
      (disableBytes (enabledBlock .spi3 true true []).cfg)[1]? = some [0x8D#8, 0x10#8] ∧
      FailsAfter (enabledBlock .spi3 true true (oks 3 ++ [bad 7])) (1 * sendDraws .spi3 + drawsBeforeTransfer .spi3) 7
        (drawsAfterFailure .spi3) [] ∧
      FailsAfter (enabledBlock .i2c true true [bad 7]) (0 * sendDraws .i2c) 7 0 [] ∧
      FailsAfter (enabledBlock .spi3 true true (oks 2 ++ [bad 7])) (1 * sendDraws .spi3) 7 0 [] :=
  ⟨rfl, fails_of rfl, rfl, fails_of rfl, fails_of rfl, fails_of rfl⟩

theorem witness_UnprepareCompletes :
    (preparedBlock .i2c true false (oks 3)).pc = .idle ∧ (preparedBlock .i2c true false (oks 3)).prepared = true ∧
      (preparedBlock .i2c true false (oks 3)).enabled = false ∧
      (preparedBlock .i2c true false (oks 3)).answers = ⟨1, .ok⟩ :: ⟨1, .ok⟩ :: ⟨1, .ok⟩ :: [] := by decide

/-- Both clauses (V106, V107). -/
theorem witness_PowerOffFailures :
    ((preparedBlock .i2c true false [bad 2]).pc = .idle ∧ (preparedBlock .i2c true false [bad 2]).prepared = true ∧
        (preparedBlock .i2c true false [bad 2]).enabled = false ∧
        FailsAfter (preparedBlock .i2c true false [bad 2]) 0 2 0 []) ∧
      ((preparedBlock .i2c true false (oks 1 ++ [bad 2])).pc = .idle ∧
        FailsAfter (preparedBlock .i2c true false (oks 1 ++ [bad 2])) 1 2 0 []) :=
  ⟨⟨rfl, rfl, rfl, fails_of rfl⟩, rfl, fails_of rfl⟩

/-- A host operation in a state that admits it, and in one that does not. -/
theorem witness_AdmissionTable :
    Instr.prepare.layer = .hostOperation ∧ State.reset.pc = .idle ∧
      admittedWhen .prepare State.reset.prepared State.reset.enabled = true ∧
      admittedWhen .enable State.reset.prepared State.reset.enabled = false := by decide

/-- One state for each of the four clauses; the first of them is the block of V110. -/
theorem witness_MisuseOnlyRaisesFault :
    ((preparedBlock .i2c true false []).pc = .idle ∧
        ¬((preparedBlock .i2c true false []).prepared = false ∧ (preparedBlock .i2c true false []).enabled = false)) ∧
      (State.reset.pc = .idle ∧ ¬(State.reset.prepared = true ∧ State.reset.enabled = false) ∧
        ¬(State.reset.prepared = true ∧ State.reset.enabled = true)) := by decide

/-- Begun and ended at once, and ended by a later step. -/
theorem witness_FlagsFollowSuccess :
    (∃ t, Runs (.instr .disable) (enabledBlock .i2c true true (oks 4)) t ∧
        t.enabled ≠ (enabledBlock .i2c true true (oks 4)).enabled) ∧
      (∃ t, Runs (.instr .unprepare) waitingBlock t ∧ t.prepared ≠ waitingBlock.prepared) :=
  ⟨⟨_, .inl rfl, by decide⟩, _, .inr (.inr ⟨2, rfl, rfl⟩), by decide⟩

/-- A run of `set_contrast`, of `unprepare` (begun, and in progress), of `get_contrast`, of a raw command, and of another
on a transport without a data/command line. -/
theorem witness_InstructionFrame :
    (∃ t, Runs (.instr (.setContrast 9#8)) (block .spi4 true false (oks 4)) t) ∧
      (∃ t, Runs (.instr .unprepare) (preparedBlock .spi4 true false (oks 3)) t) ∧
      (waitingBlock.pc ≠ .idle ∧ ∃ t, Runs (.instr .unprepare) waitingBlock t) ∧
      (∃ t, Runs (.instr .getContrast) (block .spi4 true false []) t) ∧
      (∃ t, Runs (.raw (.c0 0#8)) (block .spi4 true false (oks 4)) t) ∧
      (∃ t, Runs (.instr .enable) (preparedBlock .i2c true false (oks 3)) t) ∧
      (PositionLegal (preparedBlock .i2c true false (oks 3)) ∧
        (preparedBlock .i2c true false (oks 3)).cfg.transport ≠ .spi4) :=
  ⟨⟨_, .inl rfl⟩, ⟨_, .inl rfl⟩, ⟨by decide, _, .inr (.inr ⟨2, rfl, rfl⟩)⟩, ⟨_, .inl rfl⟩, ⟨_, .inl rfl⟩, ⟨_, .inl rfl⟩,
    fun op i h => (by cases h), by decide⟩

theorem witness_SetContrastCompletes :
    (block .spi4 true false (oks 4)).pc = .idle ∧
      Grants (block .spi4 true false (oks 4)) (sendDraws (block .spi4 true false (oks 4)).cfg.transport) [] :=
  ⟨rfl, grants_of rfl⟩

/-- Both clauses (V82, V83). -/
theorem witness_SetContrastKeepsStore :
    ((block .spi3 true false [bad 4]).pc = .idle ∧ FailsAfter (block .spi3 true false [bad 4]) 0 4 0 []) ∧
      ((block .spi3 true false (oks 1 ++ [bad 4])).pc = .idle ∧
        FailsAfter (block .spi3 true false (oks 1 ++ [bad 4])) (drawsBeforeTransfer .spi3) 4
          (drawsAfterFailure .spi3) []) :=
  ⟨⟨rfl, fails_of rfl⟩, rfl, fails_of rfl⟩

theorem witness_GetContrastAnswers : State.reset.pc = .idle := rfl

theorem witness_StoredContrastReachesInit :
    (∃ t, exec (.setContrast 16#8) (block .i2c false true (oks 2)) = .next t) ∧ 11 ≠ 6 := ⟨⟨_, rfl⟩, by decide⟩

theorem witness_OneOperationAtATime : insideBracketBlock.pc ≠ .idle := by decide

/-- A run that ends, a run that waits, and a later run that ends. -/
theorem witness_AnswersExactlyOnce :
    (∃ t, Runs (.instr .displayOn) (block .i2c true false (oks 2)) t ∧ t.pc = .idle) ∧
      (∃ t, Runs (.instr .displayOn) (block .i2c true false []) t ∧ t.pc ≠ .idle) ∧
      (∃ t, Runs (.instr .displayOn) (block .i2c true false (oks 2)) t ∧ t.pc ≠ .idle) ∧
      (∃ t, Runs (.instr .unprepare) waitingBlock t ∧ t.pc = .idle) :=
  ⟨⟨_, .inl rfl, by decide⟩, ⟨_, .inl rfl, by decide⟩, ⟨_, .inr (.inl rfl), by decide⟩, ⟨_, .inr (.inr ⟨2, rfl, rfl⟩), by decide⟩⟩

theorem witness_EveryInstructionEnds :
    2 * ((block .i2c true false (oks 7)).slots (.instr .unprepare)).length + 1 ≤
        (block .i2c true false (oks 7)).answers.length ∧
      ∃ t, begins (.instr .unprepare) (block .i2c true false (oks 7)) = .next t := ⟨by decide, _, rfl⟩

/-- In the order of the clauses: an operation without calls; an index outside the sequence; a refused buffer; no answer; a call answered `Ok` and not
the last, and the last; a call that cannot fail although its answer is an error; a failed call, and one whose line is not
restored yet. -/
theorem witness_SequencerMovesByOne :
    (({ block .i2c true false [] with pc := .busy (.instr .getContrast) 0 } : State).slots (.instr .getContrast))[0]? =
        none ∧
    (({ insideBracketBlock with pc := .busy (.instr .displayOn) 3 } : State).slots (.instr .displayOn))[3]? = none ∧
      callAnswers ⟨true, .gpioSet .dc false, false⟩ [bad 7] = none ∧
      callAnswers ⟨true, .gpioSet .dc false, false⟩ (oks 1) = some [] ∧
      (insideBracketBlock.pc = .busy (.instr .displayOn) 1 ∧
        (insideBracketBlock.slots (.instr .displayOn))[1]? = some ⟨false, .xfer8 [0xAF#8], true⟩ ∧
        callAnswers ⟨false, .xfer8 [0xAF#8], true⟩ insideBracketBlock.answers = some (⟨1, .ok⟩ :: oks 1)) ∧
      (waitingBlock.pc = .busy (.instr .unprepare) 2 ∧ (waitingBlock.slots (.instr .unprepare)).length = 3) ∧
      failureOf (.gpioSet .dc true) 7 = none ∧ failureOf (.xfer8 [0xAF#8]) 7 = some (.eBus 7) ∧
      restoreMissing ⟨false, .xfer8 [0xAF#8], true⟩ [] = true ∧
      restoreMissing ⟨false, .xfer8 [0xAF#8], true⟩ (oks 1) = false := by decide

theorem witness_FaultIsSticky :
    ∃ t, step { State.reset with fault := true, requests := [.host 0x100#11] } = .next t := ⟨_, rfl⟩

theorem witness_FaultGatesNothing : ∃ t, exec .prepare (block .i2c false true (oks 26)) = .next t := ⟨_, rfl⟩

theorem witness_RailsAreNotRead : ∃ t, exec .unprepare (preparedBlock .i2c true false (oks 3)) = .next t := ⟨_, rfl⟩

theorem witness_TraceOnlyGrows : ∃ t, step insideBracketBlock = .next t ∧ t.trace.length = 2 := ⟨_, rfl, by decide⟩

theorem witness_TimeStampsKept : TraceTimed insideBracketBlock ∧ ∃ t, step insideBracketBlock = .next t :=
  ⟨by simp [TraceTimed, Timed, insideBracketBlock, leastGap, block, State.afterAttach], ⟨_, rfl⟩⟩

theorem witness_ConfigurationFixed :
    (∃ t, after 2 insideBracketBlock = .next t) ∧ ∃ t, Runs (.instr .displayOn) insideBracketBlock t :=
  ⟨⟨_, rfl⟩, _, .inr (.inr ⟨1, rfl, rfl⟩)⟩

theorem witness_ResetPulseWidth :
    (block .i2c true true (oks 29)).prepared = false ∧ (block .i2c true true (oks 29)).enabled = false ∧
      (block .i2c true true (oks 29)).cfg.hasReset = true ∧
      ∃ t, exec .prepare (block .i2c true true (oks 29)) = .next t ∧
        t.trace[(block .i2c true true (oks 29)).trace.length + 1]? = some ⟨2, .gpio .reset false⟩ ∧
        t.trace[(block .i2c true true (oks 29)).trace.length + 3]? = some ⟨7, .gpio .reset true⟩ :=
  ⟨rfl, rfl, rfl, _, rfl, by decide, by decide⟩

theorem witness_EnableSettles :
    (preparedBlock .spi4 true true (oks 9)).prepared = true ∧ (preparedBlock .spi4 true true (oks 9)).enabled = false ∧
      ∃ t, exec .enable (preparedBlock .spi4 true true (oks 9)) = .next t ∧ t.enabled = true :=
  ⟨rfl, rfl, _, rfl, by decide⟩

theorem witness_CoreHold :
    (preparedBlock .i2c true false (oks 3)).prepared = true ∧ (preparedBlock .i2c true false (oks 3)).enabled = false ∧
      (preparedBlock .i2c true false (oks 3)).railCore = .on ∧
      ∃ t, exec .unprepare (preparedBlock .i2c true false (oks 3)) = .next t ∧ t.railCore = .off :=
  ⟨rfl, rfl, rfl, _, rfl, by decide⟩

theorem insideBracket_position : PositionLegal insideBracketBlock := by
  intro op i h
  cases h
  decide

theorem insideBracket_inv : Inv insideBracketBlock := by
  refine ⟨?_, insideBracket_position, ?_, ?_, ?_⟩
  · unfold LifecycleLegal; decide
  · unfold DcLineLegal; decide
  · intro h; cases h
  · intro i h; cases h

theorem witness_InvariantKept : Inv insideBracketBlock ∧ ∃ t, step insideBracketBlock = .next t :=
  ⟨insideBracket_inv, ⟨_, rfl⟩⟩

theorem witness_InvariantKeptByEveryCall :
    Inv insideBracketBlock ∧ advance insideBracketBlock ≠ insideBracketBlock ∧
      ∃ t, Runs (.instr .displayOn) insideBracketBlock t :=
  ⟨insideBracket_inv, by decide, _, .inr (.inr ⟨1, rfl, rfl⟩)⟩

/-- The second clause: an operation in progress. -/
theorem witness_EveryInstructionEnds_busy :
    2 * (({ insideBracketBlock with answers := oks 7 } : State).slots (.instr .displayOn)).length + 1 ≤
        ({ insideBracketBlock with answers := oks 7 } : State).answers.length ∧
      PositionLegal ({ insideBracketBlock with answers := oks 7 } : State) := ⟨by decide, insideBracket_position⟩

theorem witness_TraceFitsKept :
    PositionLegal insideBracketBlock ∧ TraceFits insideBracketBlock ∧ ∃ t, step insideBracketBlock = .next t :=
  ⟨insideBracket_position, by unfold TraceFits; decide, ⟨_, rfl⟩⟩

theorem witness_BracketsKept :
    PositionLegal insideBracketBlock ∧ BracketsWhole insideBracketBlock ∧
      insideBracketBlock.cfg.transport = .spi4 ∧ ∃ t, step insideBracketBlock = .next t :=
  ⟨insideBracket_position, fun _ => by decide, rfl, ⟨_, rfl⟩⟩

/-- A host operation; and a wire word of another transport. -/
theorem witness_StepRunsDecoded :
    (State.reset.withFetchWord 16 0x500).pc = .idle ∧
      (State.reset.withFetchWord 16 0x500).requests = .host 0x500#11 :: [] ∧
      decode (State.reset.withFetchWord 16 0x500).cfg.opc (.host 0x500#11) = .ok .getContrast ∧
      foreignWord .getContrast .i2c = false ∧ foreignWord (.w9 0xAF#8) resetCfg.transport = true ∧
      decode resetCfg.opc (.word9 0x0AF#9) = .ok (.w9 0xAF#8) := by decide

/-- Both clauses. -/
theorem witness_StepWithoutInstruction :
    (State.reset.pc = .idle ∧ State.reset.requests = []) ∧
      (State.reset.withFetchWord 16 0x700).requests = .host 0x700#11 :: [] ∧
      decode (State.reset.withFetchWord 16 0x700).cfg.opc (.host 0x700#11) = .error .reservedSelector ∧
      (∀ c, Request.host 0x700#11 ≠ .command c) := ⟨by decide, by decide, by decide, fun c h => by cases h⟩

theorem witness_BusyStepGoesOn : PositionLegal insideBracketBlock ∧ insideBracketBlock.pc = .busy (.instr .displayOn) 1 :=
  ⟨insideBracket_position, rfl⟩

theorem witness_AttachAcceptsExactly :
    ∃ s : State, attach boardI2c defaultOpcodes resetSettings 0x1C8#32 true = .ok s := ⟨_, rfl⟩

theorem witness_AttachLeaves :
    (attach boardI2c defaultOpcodes resetSettings 0x1C8#32 true : Except AttachError State) =
      .ok (State.afterAttach ⟨.i2c, true, true, defaultOpcodes⟩ { resetSettings with contrast := 0xC8#8 } true) := rfl

end Sys2Proof.Tests
end

section
/-! Attach (00_scope.md R6, 60_exceptions.md R228): what each of its two checks accepts, and when it gives a block. -/

namespace Sys2Proof.Machine

/-- R6 (1): the transport found is the one that is bound, and it is bound alone: the truth table of the three
bindings. -/
theorem transportOf_eq_some_iff (b : Board) (t : Transport) :
    transportOf b = some t ↔
      (b.spi3 = true ↔ t = .spi3) ∧ (b.spi4 = true ↔ t = .spi4) ∧ (b.i2c = true ↔ t = .i2c) := by
  unfold transportOf
  cases t <;> cases b.spi3 <;> cases b.spi4 <;> cases b.i2c <;> decide

/-- One check of `boardProblem`: it passes, and nothing after it is wrong. -/
theorem check_eq_none_iff (fails : Prop) [Decidable fails] (e : AttachError) (later : Option AttachError) :
    (if fails then some e else later) = none ↔ ¬fails ∧ later = none := by
  split <;> simp [*]

/-- R6 (2) to (5): a board has no problem for a transport exactly when every check passes, in whatever order they are
made (log entry 20). -/
theorem boardProblem_eq_none_iff (b : Board) (t : Transport) :
    boardProblem b t = none ↔
      b.coreSupply = true ∧ (b.panelSupply = true ↔ b.pumpSupply = false) ∧
      (b.dcLine = true ↔ t = .spi4) ∧ (b.addressLine = true → t = .i2c) ∧ wordWidth t ∈ b.wordBits := by
  have supplies : b.panelSupply ≠ b.pumpSupply ↔ (b.panelSupply = true ↔ b.pumpSupply = false) := by
    cases b.panelSupply <;> cases b.pumpSupply <;> decide
  have line : b.dcLine = decide (t = .spi4) ↔ (b.dcLine = true ↔ t = .spi4) := by
    rw [Bool.eq_iff_iff, decide_eq_true_iff]
  simp only [boardProblem, check_eq_none_iff]
  simp [← supplies, ← line]

/-- Attach gives a block exactly when one transport is found and the board has no problem for it. -/
theorem attach_ok_iff {ε : Type} (b : Board) (opc : Opcodes) (x : Settings) (contrast : Numeric) (level : Bool) :
    (∃ s : State ε, attach b opc x contrast level = .ok s) ↔
      ∃ t, transportOf b = some t ∧ boardProblem b t = none := by
  unfold attach
  cases transportOf b with
  | none => simp
  | some t => cases h : boardProblem b t <;> simp [h]

/-- Settles O59: attach makes two checks, and each accepts what R6 says. -/
theorem attachAcceptsExactly : Obligations.AttachAcceptsExactly := by
  intro b opc x contrast level
  rw [attach_ok_iff]
  refine exists_congr fun t => ?_
  rw [transportOf_eq_some_iff, boardProblem_eq_none_iff, and_assoc, and_assoc]
  cases t <;> rfl

end Sys2Proof.Machine
end

section
/-! The admission in the words of 44_lifecycle.md R200 (`taken`, `foreignWord`), `Runs` as an induction, and the single
step of a decoded request and of a busy block. -/

namespace Sys2Proof.Machine

open Sys2Proof.Spec

variable {ε : Type}

/-- While the environment has not answered, nothing happens. -/
theorem advance_waits {s : State ε} {op : Operation} {i : Nat} {sl : Slot} (hpc : s.pc = .busy op i)
    (hsl : (s.slots op)[i]? = some sl) (hp : perform sl s = .waits) : advance s = s := by
  simp [advance, hpc, hsl, hp]

/-- Past the end of a sequence, but for the completion of an empty one, nothing happens. -/
theorem advance_outside {s : State ε} {op : Operation} {i : Nat} (hpc : s.pc = .busy op i)
    (hsl : (s.slots op)[i]? = none) (hi : i ≠ 0) : advance s = s := by
  simp [advance, hpc, hsl, hi]

/-- The whole of an operation, `exec` or SEND of a raw command, is its execution. -/
theorem begins_eq (op : Operation) (s : State) : begins op s = execute op s := by
  cases op with
  | instr i => exact exec_eq i s
  | raw c => rfl

/-- An idle block answers the misuse to a host operation that is not admitted. -/
theorem accept_misuse {i : Instr} {s : State ε} (hpc : s.pc = .idle) (hl : i.layer = .hostOperation)
    (hno : admitted (.instr i) s = false) : accept (.instr i) s = .next (s.misuse i) := by
  cases i <;> simp [Instr.layer] at hl <;>
    simp_all [accept, acceptInstr, lifecycle, admitted, admittedInstr]

/-- A wire word that is not admitted is refused. -/
theorem accept_wrongTransport {i : Instr} {s : State ε} (hpc : s.pc = .idle) (hl : i.layer = .wireWord)
    (hno : admitted (.instr i) s = false) : accept (.instr i) s = .refused .wrongTransport := by
  cases i <;> simp [Instr.layer] at hl <;>
    simp_all [accept, acceptInstr, wireWord, admitted, admittedInstr]

/-- The same of `exec`. -/
theorem exec_misuse {i : Instr} {s : State} (hpc : s.pc = .idle) (hl : i.layer = .hostOperation)
    (hno : admitted (.instr i) s = false) : exec i s = .next (s.misuse i) := by
  simp only [exec_eq, execute, accept_misuse hpc hl hno]
  rw [settle_idle rfl]

/-- Only a host operation answers a next state where it is not admitted. -/
theorem layer_of_exec_not_admitted {i : Instr} {s t : State} (h : exec i s = .next t) (hpc : s.pc = .idle)
    (hno : admitted (.instr i) s = false) : i.layer = .hostOperation := by
  cases hl : i.layer with
  | hostOperation => rfl
  | command =>
    obtain ⟨ha, -⟩ := command_facts hl s
    simp [ha] at hno
  | wireWord => simp [exec_eq, execute, accept_wrongTransport hpc hl hno] at h

/-- Admission in the words of the rules: the table of R200, and for a wire word its own transport. -/
theorem admitted_instr_eq (i : Instr) (s : State) :
    admitted (.instr i) s =
      (admittedWhen i s.prepared s.enabled && !foreignWord i s.cfg.transport) := by
  cases i <;>
    simp [admitted, admittedInstr, admittedWhen, foreignWord, admitsPrepare, admitsEnable, admitsDisable,
      admitsUnprepare]

/-- Only a wire word can be foreign. -/
theorem layer_of_foreignWord {i : Instr} {t : Transport} (h : foreignWord i t = true) : i.layer = .wireWord := by
  cases i <;> simp [foreignWord] at h <;> rfl

/-- Only a host operation can be misused. -/
theorem layer_of_not_admittedWhen {i : Instr} {p e : Bool} (h : admittedWhen i p e = false) :
    i.layer = .hostOperation := by
  cases i <;> simp [admittedWhen] at h <;> rfl

/-- The state in which an admitted instruction is begun, field by field. -/
theorem entered_begun_eq (i : Instr) (s : State) :
    (entered (.instr i) s).begun (.instr i) =
      { s with settings := storedBy i s.settings, pc := .busy (.instr i) 0 } := by
  cases i <;> rfl

/-- The misuse, field by field. -/
theorem misuse_eq_ended (i : Instr) (s : State) :
    s.misuse i = ended { s with fault := true } [] s.now s.answers (.fMisuse i s.prepared s.enabled) := by
  simp [State.misuse, State.setFault, State.answer, ended]

/-- The admission of an instruction that is no foreign wire word. -/
theorem accept_eq_taken {i : Instr} {s : State} (hpc : s.pc = .idle) (hf : foreignWord i s.cfg.transport = false) :
    accept (.instr i) s = .next (taken i s) := by
  have ha : admitted (.instr i) s = admittedWhen i s.prepared s.enabled := by simp [admitted_instr_eq, hf]
  cases hw : admittedWhen i s.prepared s.enabled with
  | true => rw [accept_admitted hpc (ha.trans hw), entered_begun_eq, taken, if_pos hw]
  | false =>
    rw [accept_misuse hpc (layer_of_not_admittedWhen hw) (ha.trans hw), misuse_eq_ended, taken, if_neg (by simp [hw])]

/-- The admission of a foreign wire word. -/
theorem accept_foreignWord {i : Instr} {s : State} (hpc : s.pc = .idle) (hf : foreignWord i s.cfg.transport = true) :
    accept (.instr i) s = .refused .wrongTransport :=
  accept_wrongTransport hpc (layer_of_foreignWord hf) (by simp [admitted_instr_eq, hf])

/-- The packaged induction of `step_keeps`, for an operation as a whole, its admission, and a step that goes on with it. -/
theorem runs_keeps {P : State → Prop} (hadv : ∀ s, P s → P (advance s))
    (hmis : ∀ i s, P s → s.pc = .idle → P (s.misuse i))
    (hbegin : ∀ op s, P s → s.pc = .idle → admitted op s = true → P ((entered op s).begun op))
    {op : Operation} {s t : State} (hs : P s) (h : Runs op s t) : P t := by
  rcases h with h | h | ⟨k, hk, h⟩
  · rw [begins_eq] at h
    obtain ⟨hpc, ⟨ha, rfl⟩ | ⟨i, -, -, rfl⟩⟩ := execute_next_cases h
    · exact settle_keeps hadv (hbegin op s hs hpc ha)
    · exact hmis i s hs hpc
  · obtain ⟨hpc, ⟨ha, rfl⟩ | ⟨i, -, -, rfl⟩⟩ := accept_next_cases h
    · exact hbegin op s hs hpc ha
    · exact hmis i s hs hpc
  · obtain ⟨hpc, -, -⟩ | ⟨hpc, -⟩ | ⟨-, -, -, -, rfl⟩ := step_next_cases h
    · simp [hpc] at hk
    · simp [hpc] at hk
    · exact hadv s hs

/-- Settles O58: a legal position is inside the sequence. -/
theorem busyStepGoesOn : Obligations.BusyStepGoesOn := by
  intro s op i hlegal hpc
  exact step_busy hpc (hlegal op i hpc).1

/-- Settles O56: the step is the admission, and the steps after it are the whole operation (`after_execute`). -/
theorem stepRunsDecoded : Obligations.StepRunsDecoded := by
  intro s r rest i hpc hr hd
  have hu : s.takeRequest = { s with requests := rest } := by simp [State.takeRequest, hr]
  have hstep : step s = accept (.instr i) { s with requests := rest } := hu ▸ step_admits hpc hr hd
  refine ⟨fun hf => ?_, fun hf => ?_, ?_⟩
  · exact hstep.trans (accept_eq_taken hpc hf)
  · exact hstep.trans (accept_foreignWord hpc hf)
  · obtain ⟨n, hpos, hn, h⟩ := after_execute hstep
    exact ⟨n, hpos, hn, h.trans (exec_eq i _).symm⟩

end Sys2Proof.Machine
end

section
/-! The places of the sequences: where the data/command line stands between them, and which of them touch a rail or the
reset line. -/

namespace Sys2Proof.Machine

variable {ε : Type}

/-! ## What a sequence is made of -/

/-- A property of lists of places that the three wire forms have and that joining lists and acquiring the buffer keep:
everything made of SENDs has it. -/
structure SendClosed (P : List Slot → Prop) : Prop where
  nil : P []
  append : ∀ {xs ys}, P xs → P ys → P (xs ++ ys)
  buffer : ∀ {xs}, P xs → P (withBuffer xs)
  spi3 : ∀ bytes, P (sendSpi3 bytes)
  spi4 : ∀ bytes, P (sendSpi4 bytes)
  i2c : ∀ bytes, P (sendI2c bytes)

section SendClosed

variable {P : List Slot → Prop}

theorem SendClosed.send (h : SendClosed P) (t : Transport) (c : Command) : P (send t c) := by
  cases t with
  | spi3 => exact h.buffer (h.spi3 c.bytes)
  | spi4 => exact h.buffer (h.spi4 c.bytes)
  | i2c => exact h.buffer (h.i2c c.bytes)

theorem SendClosed.sendCommand (h : SendClosed P) (cfg : Cfg) (i : Instr) : P (sendCommand cfg i) := by
  unfold Machine.sendCommand
  split
  · exact h.send _ _
  · exact h.nil

theorem SendClosed.pumpOn (h : SendClosed P) (cfg : Cfg) : P (pumpOn cfg) := by
  unfold Machine.pumpOn
  split
  · exact h.sendCommand _ _
  · exact h.nil

theorem SendClosed.pumpOff (h : SendClosed P) (cfg : Cfg) : P (pumpOff cfg) := by
  unfold Machine.pumpOff
  split
  · exact h.sendCommand _ _
  · exact h.nil

theorem SendClosed.initSeq (h : SendClosed P) (cfg : Cfg) (x : Settings) : P (initSeq cfg x) := by
  unfold Machine.initSeq
  induction initCmds x with
  | nil => exact h.nil
  | cons i is ih => exact h.append (h.sendCommand cfg i) ih

/-- Every sequence but those of `prepare` and `unprepare` is made of SENDs and the settle delay. -/
theorem SendClosed.sequenceOf (h : SendClosed P) (hdelay : P [plain (.delay settleTime)]) (cfg : Cfg) (x : Settings)
    {op : Operation} (hp : op ≠ .instr .prepare) (hu : op ≠ .instr .unprepare) : P (sequenceOf cfg x op) := by
  rcases op with i | c
  · cases i
    case prepare => exact absurd rfl hp
    case unprepare => exact absurd rfl hu
    case enable => exact h.append (h.append (h.pumpOn cfg) (h.sendCommand cfg _)) hdelay
    case disable => exact h.append (h.sendCommand cfg _) (h.pumpOff cfg)
    case getContrast => exact h.nil
    case chargePumpEnable => exact h.pumpOn cfg
    case chargePumpDisable => exact h.pumpOff cfg
    case w9 b => exact h.spi3 [b]
    case w8 b => exact h.spi4 [b]
    case w16 b => exact h.i2c [b]
    all_goals
      simp only [Machine.sequenceOf, useq, contrastUpdate]
      exact h.sendCommand cfg _
  · exact h.send _ _

end SendClosed

/-! ## The data/command line along a sequence -/

/-- Whether the line is at the command level once the call of a place has succeeded, if it stood there before it as
`insideBracket` says. -/
def Slot.leavesInside (sl : Slot) : Bool :=
  match sl.call with
  | .gpioSet .dc level => !level
  | _ => sl.insideBracket

/-- A list of places that fits the line, which is at the command level at its start exactly if `inside`: each place is
reached as its place in the bracket says, a buffer is acquired outside a bracket only, and at the end the line is back. -/
def BracketsFrom (inside : Bool) : List Slot → Prop
  | [] => inside = false
  | sl :: rest =>
    sl.insideBracket = inside ∧ (sl.alloc = true → inside = false) ∧ BracketsFrom sl.leavesInside rest

theorem BracketsFrom.append {b : Bool} {xs ys : List Slot} (hx : BracketsFrom b xs) (hy : BracketsFrom false ys) :
    BracketsFrom b (xs ++ ys) := by
  induction xs generalizing b with
  | nil =>
    cases hx
    exact hy
  | cons x xs ih =>
    obtain ⟨hin, hal, hrest⟩ := hx
    exact ⟨hin, hal, ih hrest⟩

/-- What a place of a fitting list asks of the line, and what the next place, or the end, finds. -/
theorem BracketsFrom.getElem? {b : Bool} {xs : List Slot} (h : BracketsFrom b xs) {i : Nat} {sl : Slot}
    (hi : xs[i]? = some sl) :
    (sl.alloc = true → sl.insideBracket = false) ∧
      (xs[i + 1]?.map Slot.insideBracket).getD false = sl.leavesInside := by
  induction xs generalizing b i with
  | nil => simp at hi
  | cons x xs ih =>
    obtain ⟨hin, hal, hrest⟩ := h
    cases i with
    | succ i => exact ih hrest hi
    | zero =>
      obtain rfl : x = sl := by simpa using hi
      refine ⟨fun ha => hin.trans (hal ha), ?_⟩
      cases xs with
      | nil => exact hrest.symm
      | cons y ys => exact hrest.1

theorem bracketsFrom_sendClosed : SendClosed (BracketsFrom false) where
  nil := rfl
  append := BracketsFrom.append
  buffer {xs} h := by
    cases xs with
    | nil => rfl
    | cons x xs =>
      obtain ⟨hin, -, hrest⟩ := h
      exact ⟨hin, fun _ => rfl, hrest⟩
  spi3 _ := ⟨rfl, by simp, rfl⟩
  spi4 _ := ⟨rfl, by simp, rfl, by simp, rfl, by simp, rfl⟩
  i2c _ := ⟨rfl, by simp, rfl⟩

theorem powerOn_brackets (cfg : Cfg) : BracketsFrom false (powerOn cfg) := by
  unfold powerOn
  split <;> simp [resetPulse, plain, BracketsFrom, Slot.insideBracket, Slot.leavesInside]

theorem powerOff_brackets (cfg : Cfg) : BracketsFrom false (powerOff cfg) := by
  simp [powerOff, deferredDisableCore, plain, BracketsFrom, Slot.insideBracket, Slot.leavesInside]

/-- Every sequence fits the data/command line (40_transport.md R112). -/
theorem sequenceOf_brackets (cfg : Cfg) (x : Settings) (op : Operation) :
    BracketsFrom false (sequenceOf cfg x op) := by
  by_cases hp : op = .instr .prepare
  · subst hp
    exact (powerOn_brackets cfg).append (bracketsFrom_sendClosed.initSeq cfg x)
  by_cases hu : op = .instr .unprepare
  · subst hu
    exact powerOff_brackets cfg
  exact bracketsFrom_sendClosed.sequenceOf ⟨rfl, by simp [plain], rfl⟩ cfg x hp hu

/-- The line after a call that succeeded. -/
theorem okEffect_lineDC {sl : Slot} {s : State ε} (h : s.lineDC = !sl.insideBracket) :
    (sl.call.okEffect s).lineDC = !sl.leavesInside := by
  obtain ⟨al, c, rd⟩ := sl
  cases c
  case gpioSet l level =>
    cases l with
    | reset => simpa [Call.okEffect, Slot.insideBracket, Slot.leavesInside] using h
    | dc => simp [Call.okEffect, Slot.leavesInside]
  all_goals exact h

/-- After a call that failed the line is at the data level: only a transfer can fail inside a bracket, and it restores the
line (40_transport.md R112, decision D21). -/
theorem FailedCall.lineDC {sl : Slot} {e : ε} {s t : State ε} {x : Response ε}
    (hf : FailedCall sl.restoreDC e s sl.call x t) (h : s.lineDC = !sl.insideBracket) : t.lineDC = true := by
  obtain ⟨al, c, rd⟩ := sl
  cases hf
  case xfer9Restored => simp
  case xfer8Restored => simp
  case xfer8 hrd =>
    cases hrd
    exact h
  all_goals exact h

theorem perform_done_lineDC {sl : Slot} {s t : State ε} (h : s.lineDC = !sl.insideBracket)
    (hp : perform sl s = .done t) : t.lineDC = !sl.leavesInside := by
  obtain ⟨u, a, rest, hg, -, -, rfl⟩ := perform_done hp
  exact okEffect_lineDC (hg.lines.1.trans h)

theorem perform_fails_lineDC {sl : Slot} {s t : State ε} {x : Response ε} (h : s.lineDC = !sl.insideBracket)
    (hal : sl.alloc = true → sl.insideBracket = false) (hp : perform sl s = .fails x t) : t.lineDC = true := by
  obtain ⟨ha, -, a, rest, e, -, -, rfl⟩ | ⟨u, a, rest, e, hg, -, -, hf⟩ := perform_fails hp
  · simpa [hal ha] using h
  · exact hf.lineDC (hg.lines.1.trans h)

/-! ## The rails and the reset line along a sequence -/

/-- A call that touches no rail and not the reset line. -/
def Call.keepsPower : Call → Bool
  | .regEnable _ => false
  | .regDisable _ => false
  | .regDisableDeferred _ _ => true
  | .gpioSet .reset _ => false
  | .gpioSet .dc _ => true
  | .delay _ => true
  | .delayThenOff _ _ => false
  | .xfer9 _ => true
  | .xfer8 _ => true

/-- The same of every place of a list. -/
def KeepPower (xs : List Slot) : Prop := ∀ sl ∈ xs, sl.call.keepsPower = true

theorem keepPower_sendClosed : SendClosed KeepPower where
  nil := by simp [KeepPower]
  append hx hy := fun sl h => (List.mem_append.mp h).elim (hx sl) (hy sl)
  buffer {xs} h := by
    cases xs with
    | nil => exact h
    | cons x xs => simpa [KeepPower, withBuffer] using h
  spi3 _ := by simp [KeepPower, sendSpi3, Call.keepsPower]
  spi4 _ := by simp [KeepPower, sendSpi4, Call.keepsPower]
  i2c _ := by simp [KeepPower, sendI2c, Call.keepsPower]

/-- No sequence but those of `prepare` and `unprepare` touches a rail or the reset line. -/
theorem sequenceOf_keepPower (cfg : Cfg) (x : Settings) {op : Operation} (hp : op ≠ .instr .prepare)
    (hu : op ≠ .instr .unprepare) : KeepPower (sequenceOf cfg x op) :=
  keepPower_sendClosed.sequenceOf (by simp [KeepPower, plain, Call.keepsPower]) cfg x hp hu

/-- Two states with the same rails and the same level of the reset line. -/
structure SamePower (s t : State ε) : Prop where
  railCore : t.railCore = s.railCore
  railSecond : t.railSecond = s.railSecond
  lineReset : t.lineReset = s.lineReset

theorem Call.okEffect_samePower {c : Call} (h : c.keepsPower = true) (s : State ε) :
    SamePower s (c.okEffect s) := by
  cases c
  case gpioSet l level =>
    cases l with
    | reset => simp [Call.keepsPower] at h
    | dc => exact ⟨rfl, rfl, rfl⟩
  case regEnable | regDisable | delayThenOff => simp [Call.keepsPower] at h
  all_goals exact ⟨rfl, rfl, rfl⟩

/-- A failed call changes no belief about a rail (10_state.md R28, 41_power.md R140) and not the reset line. -/
theorem FailedCall.samePower {rd : Bool} {c : Call} {e : ε} {s t : State ε} {x : Response ε}
    (h : FailedCall rd e s c x t) : SamePower s t := by
  cases h <;> exact ⟨rfl, rfl, rfl⟩

theorem perform_fails_samePower {sl : Slot} {s t : State ε} {x : Response ε} (h : perform sl s = .fails x t) :
    SamePower s t := by
  obtain ⟨-, -, a, rest, e, -, -, rfl⟩ | ⟨u, a, rest, e, hg, -, -, hf⟩ := perform_fails h
  · exact ⟨rfl, rfl, rfl⟩
  · obtain ⟨-, hreset, hcore, hsecond, -⟩ := hg.lines
    have h := hf.samePower
    exact ⟨h.railCore.trans hcore, h.railSecond.trans hsecond, h.lineReset.trans hreset⟩

/-- A place that is done has the effect of its call on a state with the rails and the reset line of before. -/
theorem perform_done_power {sl : Slot} {s t : State ε} (h : perform sl s = .done t) :
    ∃ u, t = sl.call.okEffect u ∧ SamePower s u ∧ u.cfg = s.cfg := by
  obtain ⟨u, a, rest, hg, -, -, rfl⟩ := perform_done h
  obtain ⟨-, hreset, hcore, hsecond, -⟩ := hg.lines
  exact ⟨_, rfl, ⟨hcore, hsecond, hreset⟩, hg.frame.cfg⟩

theorem perform_done_samePower {sl : Slot} {s t : State ε} (hk : sl.call.keepsPower = true)
    (h : perform sl s = .done t) : SamePower s t := by
  obtain ⟨u, rfl, hu, -⟩ := perform_done_power h
  have ht := Call.okEffect_samePower hk u
  exact ⟨ht.railCore.trans hu.railCore, ht.railSecond.trans hu.railSecond, ht.lineReset.trans hu.lineReset⟩

theorem complete_samePower (op : Operation) (s : State ε) : SamePower s (complete op s) := by
  obtain ⟨-, -, -, hcore, hsecond, hreset, -⟩ := complete_frame op s
  exact ⟨hcore, hsecond, hreset⟩

end Sys2Proof.Machine
end

section
/-! The block's invariant (10_state.md R25, R30, 40_transport.md R112, 41_power.md R133, 43_protocol.md R187): each of
its four parts is kept by a step of the sequencer, and the whole by a misuse, by an admission, and so by every step. -/

namespace Sys2Proof.Machine

variable {ε : Type}

/-! ## Position -/

/-- The admission check reads the two flags and the configuration. -/
theorem admitted_congr {s t : State ε} (hc : t.cfg = s.cfg) (hp : t.prepared = s.prepared)
    (he : t.enabled = s.enabled) (op : Operation) : admitted op t = admitted op s := by
  cases op with
  | raw c => rfl
  | instr i =>
    cases i <;>
      simp [admitted, admittedInstr, admitsPrepare, admitsEnable, admitsDisable, admitsUnprepare, hc, hp, he]

theorem positionLegal_idle {s : State ε} (h : s.pc = .idle) : PositionLegal s := by
  intro op i hpc
  simp [h] at hpc

/-- One operation at a time is in progress, so its own position is all there is to check. -/
theorem positionLegal_of_busy {s : State ε} {op : Operation} {i : Nat} (hpc : s.pc = .busy op i)
    (hi : i < s.steps op) (ha : admitted op s = true) : PositionLegal s := by
  intro op' i' hpc'
  rw [hpc] at hpc'
  cases hpc'
  exact ⟨hi, ha⟩

/-- Before its first call an operation stands inside its sequence. -/
theorem zero_lt_steps (op : Operation) (s : State ε) : 0 < s.steps op :=
  Nat.lt_of_lt_of_le Nat.one_pos (Nat.le_max_left _ _)

theorem complete_pc (op : Operation) (s : State ε) : (complete op s).pc = .idle := by
  obtain ⟨-, -, -, -, -, -, -, -, -, -, -, hpc⟩ := complete_frame op s
  exact hpc

theorem complete_lineDC (op : Operation) (s : State ε) : (complete op s).lineDC = s.lineDC := by
  obtain ⟨-, -, -, -, -, -, hdc, -⟩ := complete_frame op s
  exact hdc

theorem advance_positionLegal {s : State ε} (h : PositionLegal s) : PositionLegal (advance s) := by
  obtain h' | ⟨op, -, -, h'⟩ | ⟨op, i, sl, hpc, -, ⟨x, t, -, h'⟩ | ⟨t, hp, hlt, h'⟩ | ⟨t, -, -, h'⟩⟩ :=
    advance_cases s <;> rw [h']
  · exact h
  · exact positionLegal_idle (complete_pc op s)
  · exact positionLegal_idle rfl
  · have f := perform_done_frame hp
    have hslots : (t.setPc (.busy op (i + 1))).slots op = s.slots op := slots_congr f.cfg f.settings op
    have hadm : admitted op (t.setPc (.busy op (i + 1))) = admitted op s :=
      admitted_congr f.cfg f.prepared f.enabled op
    refine positionLegal_of_busy rfl ?_ (hadm.trans (h op i hpc).2)
    rw [State.steps, hslots]
    exact Nat.lt_of_lt_of_le hlt (Nat.le_max_right _ _)
  · exact positionLegal_idle (complete_pc op t)

/-! ## Lifecycle flags -/

/-- The completion of an admitted operation keeps `enabled` under `prepared`. -/
theorem complete_lifecycleLegal {op : Operation} {s : State ε} (h : LifecycleLegal s) (ha : admitted op s = true) :
    LifecycleLegal (complete op s) := by
  cases op with
  | raw c => exact h
  | instr i =>
    cases i
    case prepare => exact fun _ => rfl
    case enable =>
      simp only [admitted, admittedInstr, admitsEnable, Bool.and_eq_true] at ha
      exact fun _ => ha.1
    case disable => simp [LifecycleLegal, complete, completeInstr]
    case unprepare =>
      simp only [admitted, admittedInstr, admitsUnprepare, Bool.and_eq_true, Bool.not_eq_true'] at ha
      simp [LifecycleLegal, complete, completeInstr, ha.2]
    all_goals exact h

theorem lifecycleLegal_congr {s t : State ε} (hp : t.prepared = s.prepared) (he : t.enabled = s.enabled)
    (h : LifecycleLegal s) : LifecycleLegal t := by
  unfold LifecycleLegal
  rw [hp, he]
  exact h

theorem advance_lifecycleLegal {s : State ε} (hpos : PositionLegal s) (h : LifecycleLegal s) :
    LifecycleLegal (advance s) := by
  obtain h' | ⟨op, hpc, -, h'⟩ | ⟨op, i, sl, hpc, -, ⟨x, t, hp, h'⟩ | ⟨t, hp, -, h'⟩ | ⟨t, hp, -, h'⟩⟩ :=
    advance_cases s <;> rw [h']
  · exact h
  · exact complete_lifecycleLegal h (hpos op 0 hpc).2
  · have f := perform_fails_frame hp
    exact lifecycleLegal_congr f.prepared f.enabled h
  · have f := perform_done_frame hp
    exact lifecycleLegal_congr f.prepared f.enabled h
  · have f := perform_done_frame hp
    refine complete_lifecycleLegal (lifecycleLegal_congr f.prepared f.enabled h) ?_
    rw [admitted_congr f.cfg f.prepared f.enabled]
    exact (hpos op i hpc).2

/-! ## The data/command line -/

theorem insideBracket_idle {s : State ε} (h : s.pc = .idle) : s.insideBracket = false := by
  simp [State.insideBracket, State.slotAtPc, h]

theorem insideBracket_busy {s : State ε} {op : Operation} {i : Nat} (h : s.pc = .busy op i) :
    s.insideBracket = ((s.slots op)[i]?.map Slot.insideBracket).getD false := by
  simp only [State.insideBracket, State.slotAtPc, h]
  cases (s.slots op)[i]? <;> rfl

theorem dcLineLegal_idle {s : State ε} (hpc : s.pc = .idle) (h : s.lineDC = true) : DcLineLegal s := by
  rw [DcLineLegal, insideBracket_idle hpc, h]
  rfl

/-- A sequence is entered outside a bracket. -/
theorem begun_insideBracket (op : Operation) (s : State ε) : (s.begun op).insideBracket = false := by
  rw [insideBracket_busy (State.begun_pc op s), State.begun_slots]
  have hb : BracketsFrom false (s.slots op) := sequenceOf_brackets s.cfg s.settings op
  cases hsl : s.slots op with
  | nil => rfl
  | cons sl rest =>
    rw [hsl] at hb
    exact hb.1

theorem advance_dcLineLegal {s : State ε} (h : DcLineLegal s) : DcLineLegal (advance s) := by
  obtain h' | ⟨op, hpc, hsl, h'⟩ | ⟨op, i, sl, hpc, hsl, hcases⟩ := advance_cases s
  · rwa [h']
  · rw [h']
    refine dcLineLegal_idle (complete_pc op s) ?_
    rw [complete_lineDC, h, insideBracket_busy hpc, hsl]
    rfl
  · have hline : s.lineDC = !sl.insideBracket := by
      rw [h, insideBracket_busy hpc, hsl]
      rfl
    obtain ⟨hal, hnext⟩ := (sequenceOf_brackets s.cfg s.settings op).getElem? hsl
    obtain ⟨x, t, hp, h'⟩ | ⟨t, hp, -, h'⟩ | ⟨t, hp, hlast, h'⟩ := hcases <;> rw [h']
    · have ht : t.lineDC = true := perform_fails_lineDC hline hal hp
      exact dcLineLegal_idle rfl ht
    · have f := perform_done_frame hp
      have hslots : (t.setPc (.busy op (i + 1))).slots op = s.slots op := slots_congr f.cfg f.settings op
      rw [DcLineLegal, State.setPc_lineDC, perform_done_lineDC hline hp, insideBracket_busy rfl, hslots]
      exact congrArg _ hnext.symm
    · refine dcLineLegal_idle (complete_pc op t) ?_
      have hend : (s.slots op)[i + 1]? = none := List.getElem?_eq_none (by omega)
      rw [complete_lineDC, perform_done_lineDC hline hp, ← hnext]
      exact congrArg (fun o => !(o.map Slot.insideBracket).getD false) hend

/-! ## Supplies -/

/-- The core logic is powered and out of reset. -/
def CoreUp (s : State ε) : Prop := s.railCore = .on ∧ (s.cfg.hasReset = true → s.lineReset = true)

/-- What `prepare` has switched before its call of index `i` (41_power.md R132, R133). -/
def PreparedUpTo (i : Nat) (s : State ε) : Prop :=
  (1 ≤ i → s.railCore = .on) ∧ (s.cfg.hasReset = true → 4 ≤ i → s.lineReset = true) ∧
    ((powerOn s.cfg).length ≤ i → s.railSecond = .on)

theorem suppliesLegal_iff {s : State ε} :
    SuppliesLegal s ↔
      (s.prepared = true → CoreUp s) ∧ (∀ i, s.pc = .busy (.instr .prepare) i → PreparedUpTo i s) := Iff.rfl

theorem suppliesLegal_idle {s : State ε} (hpc : s.pc = .idle) (h : s.prepared = true → CoreUp s) :
    SuppliesLegal s :=
  ⟨h, fun i hi => by simp [hpc] at hi⟩

theorem CoreUp.congr {s t : State ε} (hc : t.cfg = s.cfg) (hp : SamePower s t) (h : CoreUp s) : CoreUp t := by
  unfold CoreUp
  rw [hc, hp.railCore, hp.lineReset]
  exact h

theorem powerOn_of_hasReset {cfg : Cfg} (h : cfg.hasReset = true) :
    powerOn cfg = [plain (.regEnable .vcore), plain (.gpioSet .reset false), plain (.delay resetPulseWidth),
      plain (.gpioSet .reset true), plain (.regEnable (vsecond cfg))] := by
  simp [powerOn, h, resetPulse]

theorem powerOn_of_no_reset {cfg : Cfg} (h : cfg.hasReset = false) :
    powerOn cfg = [plain (.regEnable .vcore), plain (.regEnable (vsecond cfg))] := by
  simp [powerOn, h]

/-- A call of the power-on part of `prepare` does what its index asks for. -/
theorem powerOn_call {i : Nat} {sl : Slot} {s : State ε} (h : PreparedUpTo i s) (hsl : (powerOn s.cfg)[i]? = some sl) :
    PreparedUpTo (i + 1) (sl.call.okEffect s) := by
  obtain ⟨hcore, hreset, hsecond⟩ := h
  unfold PreparedUpTo
  cases hr : s.cfg.hasReset with
  | true =>
    rw [powerOn_of_hasReset hr] at hsl
    rcases i with _ | _ | _ | _ | _ | i <;> simp at hsl <;> subst hsl <;>
      simp_all [plain, Call.okEffect, powerOn_of_hasReset hr]
  | false =>
    rw [powerOn_of_no_reset hr] at hsl
    rcases i with _ | _ | i <;> simp at hsl <;> subst hsl <;>
      simp_all [plain, Call.okEffect, powerOn_of_no_reset hr]

theorem powerOn_length (cfg : Cfg) : (powerOn cfg).length = if cfg.hasReset then 5 else 2 := by
  cases h : cfg.hasReset with
  | true => simp [powerOn_of_hasReset h]
  | false => simp [powerOn_of_no_reset h]

theorem PreparedUpTo.congr {i : Nat} {s t : State ε} (hc : t.cfg = s.cfg) (hp : SamePower s t)
    (h : PreparedUpTo i s) : PreparedUpTo i t := by
  unfold PreparedUpTo
  rw [hc, hp.railCore, hp.lineReset, hp.railSecond]
  exact h

/-- Past the power-on part everything `prepare` switches is switched. -/
theorem preparedUpTo_iff_of_le {i : Nat} {s : State ε} (hi : (powerOn s.cfg).length ≤ i) :
    PreparedUpTo i s ↔ CoreUp s ∧ s.railSecond = .on := by
  have hlen := powerOn_length s.cfg
  have h1 : 1 ≤ i := by split at hlen <;> omega
  have h4 : s.cfg.hasReset = true → 4 ≤ i := by
    intro hr
    rw [if_pos hr] at hlen
    omega
  unfold PreparedUpTo CoreUp
  exact ⟨fun ⟨hcore, hreset, hsecond⟩ => ⟨⟨hcore h1, fun hr => hreset hr (h4 hr)⟩, hsecond hi⟩,
    fun ⟨⟨hcore, hreset⟩, hsecond⟩ => ⟨fun _ => hcore, fun hr _ => hreset hr, fun _ => hsecond⟩⟩

/-- A call of `prepare` does what its index asks for; the initialisation commands leave it as it is. -/
theorem prepare_call {i : Nat} {sl : Slot} {s t : State ε} (h : PreparedUpTo i s)
    (hsl : (s.slots (.instr .prepare))[i]? = some sl) (hp : perform sl s = .done t) : PreparedUpTo (i + 1) t := by
  have hseq : s.slots (.instr .prepare) = powerOn s.cfg ++ initSeq s.cfg s.settings := rfl
  rw [hseq] at hsl
  obtain hi | hi := Nat.lt_or_ge i (powerOn s.cfg).length
  · rw [List.getElem?_append_left hi] at hsl
    obtain ⟨u, rfl, hu, hc⟩ := perform_done_power hp
    exact powerOn_call (h.congr hc hu) (hc ▸ hsl)
  · rw [List.getElem?_append_right hi] at hsl
    have hk := keepPower_sendClosed.initSeq s.cfg s.settings sl (List.mem_of_getElem? hsl)
    have hc := (perform_done_frame hp).cfg
    refine PreparedUpTo.congr hc (perform_done_samePower hk hp) ?_
    rw [preparedUpTo_iff_of_le (by omega)]
    exact (preparedUpTo_iff_of_le hi).mp h

/-- Any other call but the last of `unprepare` leaves the core logic powered and out of reset. -/
theorem coreUp_call {op : Operation} {i : Nat} {sl : Slot} {s t : State ε} (h : CoreUp s)
    (hop : op ≠ .instr .prepare) (hlast : op = .instr .unprepare → i + 1 < (s.slots op).length)
    (hsl : (s.slots op)[i]? = some sl) (hp : perform sl s = .done t) : CoreUp t := by
  have hc := (perform_done_frame hp).cfg
  by_cases hu : op = .instr .unprepare
  · subst hu
    obtain ⟨u, rfl, hsame, hcu⟩ := perform_done_power hp
    have hup : CoreUp u := h.congr hcu hsame
    have hseq : s.slots (.instr .unprepare) = [plain (.regDisable (vsecond s.cfg)),
      plain (.regDisableDeferred .vcore coreHoldTime), plain (.delayThenOff coreHoldTime .vcore)] := rfl
    have hi := hlast rfl
    rw [hseq] at hi hsl
    have hne : vsecond s.cfg ≠ .vcore := by unfold vsecond; split <;> simp
    rcases i with _ | _ | i
    · obtain rfl := Option.some.inj hsl
      simpa [CoreUp, plain, Call.okEffect, hne] using hup
    · obtain rfl := Option.some.inj hsl
      exact hup
    · simp only [List.length_cons, List.length_nil] at hi
      omega
  · have hk := sequenceOf_keepPower s.cfg s.settings hop hu sl (List.mem_of_getElem? hsl)
    exact h.congr hc (perform_done_samePower hk hp)

/-- After a completion the block is prepared only where it was, or where `prepare` has completed. -/
theorem prepared_of_complete {op : Operation} {s : State ε} (h : (complete op s).prepared = true)
    (hop : op ≠ .instr .prepare) : s.prepared = true ∧ op ≠ .instr .unprepare := by
  cases op with
  | raw c => exact ⟨h, by simp⟩
  | instr i =>
    cases i
    case prepare => exact absurd rfl hop
    case unprepare => simp [complete, completeInstr] at h
    all_goals exact ⟨h, by simp⟩

/-- `prepare` is never in progress in a prepared block (44_lifecycle.md R200). -/
theorem ne_prepare_of_prepared {op : Operation} {s : State ε} (ha : admitted op s = true)
    (hp : s.prepared = true) : op ≠ .instr .prepare := by
  rintro rfl
  simp [admitted, admittedInstr, admitsPrepare, hp] at ha

theorem prepare_slots_ne_nil (s : State ε) : s.slots (.instr .prepare) ≠ [] := by
  simp [State.slots, sequenceOf, useq, powerOn]

theorem complete_suppliesLegal {op : Operation} {s : State ε}
    (h : (complete op s).prepared = true → CoreUp s) : SuppliesLegal (complete op s) :=
  suppliesLegal_idle (complete_pc op s) fun hp =>
    (h hp).congr (complete_frame op s).1 (complete_samePower op s)

theorem advance_suppliesLegal {s : State ε} (hpos : PositionLegal s) (h : SuppliesLegal s) :
    SuppliesLegal (advance s) := by
  obtain ⟨hup, hprep⟩ := suppliesLegal_iff.mp h
  obtain h' | ⟨op, hpc, hsl, h'⟩ | ⟨op, i, sl, hpc, hsl, hcases⟩ := advance_cases s
  · rwa [h']
  · rw [h']
    refine complete_suppliesLegal fun hp => hup (prepared_of_complete hp ?_).1
    rintro rfl
    exact prepare_slots_ne_nil s hsl
  · obtain ⟨x, t, hp, h'⟩ | ⟨t, hp, hlt, h'⟩ | ⟨t, hp, hlast, h'⟩ := hcases <;> rw [h']
    · have f := perform_fails_frame hp
      refine suppliesLegal_idle rfl fun hprepared => ?_
      have ht : CoreUp t := (hup (f.prepared.symm.trans hprepared)).congr f.cfg (perform_fails_samePower hp)
      exact ht
    · have f := perform_done_frame hp
      refine ⟨fun hprepared => ?_, fun j hj => ?_⟩
      · have hs : s.prepared = true := f.prepared.symm.trans hprepared
        have ht : CoreUp t :=
          coreUp_call (hup hs) (ne_prepare_of_prepared (hpos op i hpc).2 hs) (fun _ => hlt) hsl hp
        exact ht
      · cases hj
        have ht : PreparedUpTo (i + 1) t := prepare_call (hprep i hpc) hsl hp
        exact ht
    · have f := perform_done_frame hp
      refine complete_suppliesLegal fun hprepared => ?_
      by_cases hop : op = .instr .prepare
      · subst hop
        have ht : PreparedUpTo (i + 1) t := prepare_call (hprep i hpc) hsl hp
        have hle : (powerOn t.cfg).length ≤ i + 1 := by
          rw [hlast, f.cfg]
          simp [State.slots, sequenceOf, useq]
        exact ((preparedUpTo_iff_of_le hle).mp ht).1
      · obtain ⟨ht, hu⟩ := prepared_of_complete hprepared hop
        exact coreUp_call (hup (f.prepared.symm.trans ht)) hop (fun h => absurd h hu) hsl hp

/-! ## The whole invariant -/

theorem advance_inv {s : State ε} (h : Inv s) : Inv (advance s) := by
  obtain ⟨hlife, hpos, hdc, hsup⟩ := h
  exact ⟨advance_lifecycleLegal hpos hlife, advance_positionLegal hpos, advance_dcLineLegal hdc,
    advance_suppliesLegal hpos hsup⟩

/-- In an idle block the invariant is about the flags, the data/command line and the core logic. -/
theorem inv_idle_iff {s : State ε} (hpc : s.pc = .idle) :
    Inv s ↔ LifecycleLegal s ∧ s.lineDC = true ∧ (s.prepared = true → CoreUp s) := by
  constructor
  · rintro ⟨hlife, -, hdc, hup, -⟩
    rw [DcLineLegal, insideBracket_idle hpc] at hdc
    exact ⟨hlife, hdc, hup⟩
  · rintro ⟨hlife, hdc, hup⟩
    exact ⟨hlife, positionLegal_idle hpc, dcLineLegal_idle hpc hdc, suppliesLegal_idle hpc hup⟩

theorem takeRequest_inv {s : State ε} (h : Inv s) : Inv s.takeRequest := h

theorem misuse_inv (i : Instr) {s : State ε} (h : Inv s) (hpc : s.pc = .idle) : Inv (s.misuse i) :=
  (inv_idle_iff rfl).mpr ((inv_idle_iff hpc).mp h)

/-- What an admission stores changes none of the fields the invariant reads. -/
theorem entered_frame (op : Operation) (s : State ε) :
    (entered op s).cfg = s.cfg ∧ (entered op s).prepared = s.prepared ∧ (entered op s).enabled = s.enabled ∧
      (entered op s).lineDC = s.lineDC ∧ SamePower s (entered op s) := by
  rcases op with i | c
  · cases i <;> exact ⟨rfl, rfl, rfl, rfl, rfl, rfl, rfl⟩
  · exact ⟨rfl, rfl, rfl, rfl, rfl, rfl, rfl⟩

theorem begun_inv {op : Operation} {s : State ε} (h : Inv s) (hpc : s.pc = .idle) (ha : admitted op s = true) :
    Inv ((entered op s).begun op) := by
  obtain ⟨hlife, hdc, hup⟩ := (inv_idle_iff hpc).mp h
  obtain ⟨hcfg, hprepared, henabled, hline, hpower⟩ := entered_frame op s
  refine ⟨lifecycleLegal_congr hprepared henabled hlife, ?_, ?_, ?_, fun i hi => ?_⟩
  · refine positionLegal_of_busy (State.begun_pc op _) ?_ ?_
    · exact zero_lt_steps op (entered op s)
    · exact (admitted_congr hcfg hprepared henabled op).trans ha
  · rw [DcLineLegal, begun_insideBracket]
    exact hline.trans hdc
  · intro hp
    have hentered : CoreUp (entered op s) := (hup (hprepared.symm.trans hp)).congr hcfg hpower
    exact hentered
  · obtain rfl : 0 = i := by cases hi; rfl
    refine ⟨by omega, by omega, fun hle => ?_⟩
    have hlen := powerOn_length (entered op s).cfg
    have hle' : (powerOn (entered op s).cfg).length ≤ 0 := hle
    split at hlen <;> omega

/-- Settles O51: `advance_inv`, the misuse and the admission, by the packaged induction. -/
theorem invariantKept : Obligations.InvariantKept := by
  intro s t hs h
  exact step_keeps (P := Inv) (fun _ => advance_inv) (fun _ hu _ => takeRequest_inv hu) (fun i _ => misuse_inv i)
    (fun _ _ => begun_inv) hs h

/-- Settles O52: the same three facts, for a call and for every way an operation leads on. -/
theorem invariantKeptByEveryCall : Obligations.InvariantKeptByEveryCall := by
  intro s hs
  exact ⟨advance_inv hs, fun op t h => runs_keeps (P := Inv) (fun _ => advance_inv) (fun i _ => misuse_inv i)
    (fun _ _ => begun_inv) hs h⟩

end Sys2Proof.Machine
end

section
/-! What every step keeps of the fault flag, of the trace with its stamps, and of the responses (10_state.md R26, R33,
R35). -/

namespace Sys2Proof.Machine

variable {ε : Type}

/-! ## The responses and the fault flag -/

/-- Responses are only added. -/
theorem advance_responses_prefix (s : State ε) : s.responses <+: (advance s).responses := by
  obtain h | ⟨op, -, -, h⟩ | ⟨op, i, sl, -, -, ⟨x, t, hp, h⟩ | ⟨t, hp, -, h⟩ | ⟨t, hp, -, h⟩⟩ := advance_cases s <;>
    rw [h]
  · obtain ⟨r, hr⟩ := complete_responses op s
    exact hr ▸ List.prefix_append _ _
  · rw [State.answer_responses, (perform_fails_frame hp).responses]
    exact List.prefix_append _ _
  · rw [State.setPc_responses, (perform_done_frame hp).responses]
  · obtain ⟨r, hr⟩ := complete_responses op t
    rw [hr, (perform_done_frame hp).responses]
    exact List.prefix_append _ _

/-- What no admission changes. -/
theorem entered_begun_frame (op : Operation) (s : State ε) :
    ((entered op s).begun op).fault = s.fault ∧ ((entered op s).begun op).trace = s.trace ∧
      ((entered op s).begun op).responses = s.responses ∧ ((entered op s).begun op).now = s.now := by
  rcases op with i | c
  · cases i <;> exact ⟨rfl, rfl, rfl, rfl⟩
  · exact ⟨rfl, rfl, rfl, rfl⟩

/-- Settles O41: the sequencer and an admission leave the flag, a misuse sets it. -/
theorem faultIsSticky : Obligations.FaultIsSticky := by
  intro s t h hs
  refine step_keeps (P := fun u => u.fault = true) ?_ ?_ ?_ ?_ hs h
  · intro u hu
    obtain ⟨-, -, hfault, -⟩ := advance_frame u
    exact hfault.trans hu
  · intro u hu _
    exact hu
  · intro i u _ _
    rfl
  · intro op u hu _ _
    obtain ⟨hfault, -⟩ := entered_begun_frame op u
    exact hfault.trans hu

/-- `t` is later than `s`: its trace and its responses continue those of `s`, and its clock is not behind. -/
def Later (s t : State ε) : Prop := s.trace <+: t.trace ∧ s.responses <+: t.responses ∧ s.now ≤ t.now

theorem Later.trans {s t u : State ε} (h : Later s t) (k : Later t u) : Later s u := by
  obtain ⟨htrace, hresponses, hnow⟩ := h
  obtain ⟨ktrace, kresponses, know⟩ := k
  exact ⟨htrace.trans ktrace, hresponses.trans kresponses, hnow.trans know⟩

theorem advance_later (s : State ε) : Later s (advance s) := by
  obtain ⟨-, -, -, -, htrace, hnow⟩ := advance_frame s
  exact ⟨htrace, advance_responses_prefix s, hnow⟩

theorem misuse_later (i : Instr) (s : State ε) : Later s (s.misuse i) :=
  ⟨List.prefix_refl _, List.prefix_append _ _, le_refl _⟩

theorem entered_begun_later (op : Operation) (s : State ε) : Later s ((entered op s).begun op) := by
  obtain ⟨-, htrace, hresponses, hnow⟩ := entered_begun_frame op s
  rw [Later, htrace, hresponses, hnow]
  exact ⟨List.prefix_refl _, List.prefix_refl _, le_refl _⟩

/-- Settles O44: "later than the state the step began in" is kept by all a step is made of. -/
theorem traceOnlyGrows : Obligations.TraceOnlyGrows := by
  intro s t h
  refine step_keeps (P := Later s) ?_ ?_ ?_ ?_ ⟨List.prefix_refl _, List.prefix_refl _, le_refl _⟩ h
  · exact fun u hu => hu.trans (advance_later u)
  · exact fun u hu _ => hu
  · exact fun i u hu _ => hu.trans (misuse_later i u)
  · exact fun op u hu _ _ => hu.trans (entered_begun_later op u)

/-! ## Time stamps -/

theorem Timed.mono {evs : List (Stamped ε)} {t last last' : Nat} (h : Timed t evs last) (hle : last ≤ last') :
    Timed t evs last' := by
  induction evs generalizing t with
  | nil => exact Nat.le_trans h hle
  | cons e evs ih => exact ⟨h.1, ih h.2⟩

/-- An event whose stamp leaves its least gap after the clock of before may be appended. -/
theorem Timed.snoc {evs : List (Stamped ε)} {t last now : Nat} {ev : Event ε} (h : Timed t evs last)
    (hgap : last + leastGap ev ≤ now) : Timed t (evs ++ [⟨now, ev⟩]) now := by
  induction evs generalizing t with
  | nil => exact ⟨Nat.le_trans (Nat.add_le_add_right h _) hgap, Nat.le_refl _⟩
  | cons e evs ih => exact ⟨h.1, ih h.2⟩

theorem TraceTimed.congr {s t : State ε} (ht : t.trace = s.trace) (hn : t.now = s.now) (h : TraceTimed s) :
    TraceTimed t := by
  unfold TraceTimed
  rw [ht, hn]
  exact h

theorem TraceTimed.consume {s : State ε} (h : TraceTimed s) (a : Answer ε) : TraceTimed (s.consume a) :=
  Timed.mono h (Nat.le_add_right _ _)

/-- An event that asks for no gap is logged at once. -/
theorem TraceTimed.log {s : State ε} (h : TraceTimed s) {ev : Event ε} (hgap : leastGap ev = 0) :
    TraceTimed (s.log ev) :=
  Timed.snoc h (by rw [hgap]; rfl)

/-- A `DELAY(d)` is logged once `d` has passed. -/
theorem TraceTimed.delay {s : State ε} (h : TraceTimed s) (d : Nat) : TraceTimed ((s.elapse d).log (.delay d)) :=
  Timed.snoc h (le_refl _)

theorem okEffect_traceTimed (c : Call) {s : State ε} (h : TraceTimed s) : TraceTimed (c.okEffect s) := by
  cases c
  case regEnable r => exact TraceTimed.log (s := s.setRail r .on) h rfl
  case regDisable r => exact TraceTimed.log (s := s.setRail r .off) h rfl
  case gpioSet l level => exact TraceTimed.log (s := s.setLine l level) h rfl
  case delay d => exact h.delay d
  case delayThenOff d r => exact h.delay d
  case regDisableDeferred | xfer9 | xfer8 => exact h.log rfl

theorem FailedCall.traceTimed {rd : Bool} {c : Call} {e : ε} {s t : State ε} {x : Response ε}
    (hf : FailedCall rd e s c x t) (h : TraceTimed s) : TraceTimed t := by
  cases hf
  case xfer9Restored ws b rest _ _ =>
    have hb : TraceTimed ((s.log (.xfer9 ws (.err e))).consume b) := (h.log rfl).consume b
    exact TraceTimed.log (s := ((s.log (.xfer9 ws (.err e))).consume b).setLine .dc true) hb rfl
  case xfer8Restored bs b rest _ _ =>
    have hb : TraceTimed ((s.log (.xfer8 bs (.err e))).consume b) := (h.log rfl).consume b
    exact TraceTimed.log (s := ((s.log (.xfer8 bs (.err e))).consume b).setLine .dc true) hb rfl
  all_goals exact h.log rfl

theorem Granted.traceTimed {sl : Slot} {s u : State ε} (hg : Granted sl s u) (h : TraceTimed s) : TraceTimed u := by
  cases hg with
  | noBuffer _ => exact h
  | buffer a _ _ _ _ => exact h.consume a

theorem perform_done_traceTimed {sl : Slot} {s t : State ε} (hp : perform sl s = .done t) (h : TraceTimed s) :
    TraceTimed t := by
  obtain ⟨u, a, rest, hg, -, -, rfl⟩ := perform_done hp
  exact okEffect_traceTimed _ ((hg.traceTimed h).consume a)

theorem perform_fails_traceTimed {sl : Slot} {s t : State ε} {x : Response ε} (hp : perform sl s = .fails x t)
    (h : TraceTimed s) : TraceTimed t := by
  obtain ⟨-, -, a, rest, e, -, -, rfl⟩ | ⟨u, a, rest, e, hg, -, -, hf⟩ := perform_fails hp
  · exact h.consume a
  · exact hf.traceTimed ((hg.traceTimed h).consume a)

theorem complete_traceTimed (op : Operation) {s : State ε} (h : TraceTimed s) : TraceTimed (complete op s) := by
  obtain ⟨-, -, -, -, -, -, -, htrace, hnow, -⟩ := complete_frame op s
  exact h.congr htrace hnow

theorem advance_traceTimed {s : State ε} (h : TraceTimed s) : TraceTimed (advance s) := by
  obtain h' | ⟨op, -, -, h'⟩ | ⟨op, i, sl, -, -, ⟨x, t, hp, h'⟩ | ⟨t, hp, -, h'⟩ | ⟨t, hp, -, h'⟩⟩ :=
    advance_cases s <;> rw [h']
  · exact h
  · exact complete_traceTimed op h
  · exact TraceTimed.congr (s := t) rfl rfl (perform_fails_traceTimed hp h)
  · exact TraceTimed.congr (s := t) rfl rfl (perform_done_traceTimed hp h)
  · exact complete_traceTimed op (perform_done_traceTimed hp h)

/-- Settles O46: every call keeps the stamps (`advance_traceTimed`), and nothing else touches the trace or the clock. -/
theorem timeStampsKept : Obligations.TimeStampsKept := by
  intro s t hs h
  refine step_keeps (P := TraceTimed) (fun _ => advance_traceTimed) ?_ ?_ ?_ hs h
  · exact fun u hu _ => hu.congr rfl rfl
  · exact fun i u hu _ => hu.congr rfl rfl
  · intro op u hu _ _
    obtain ⟨-, htrace, -, hnow⟩ := entered_begun_frame op u
    exact hu.congr htrace hnow

end Sys2Proof.Machine
end

section
/-! Noninterference (10_state.md R22, R26, R28): what no rule reads changes nothing an operation does. A relation between
states that hides something unread is preserved by every operation; the three statements are three such relations. -/

namespace Sys2Proof.Machine

variable {ε : Type}

/-- `R` relates states that differ only in what no operation reads: related states agree on everything an operation reads,
and every update keeps them related. -/
structure Hides (R : State ε → State ε → Prop) : Prop where
  pc : ∀ {s u}, R s u → u.pc = s.pc
  cfg : ∀ {s u}, R s u → u.cfg = s.cfg
  prepared : ∀ {s u}, R s u → u.prepared = s.prepared
  enabled : ∀ {s u}, R s u → u.enabled = s.enabled
  contrast : ∀ {s u}, R s u → u.settings.contrast = s.settings.contrast
  answers : ∀ {s u}, R s u → u.answers = s.answers
  slots : ∀ {s u} op, R s u → u.slots op = s.slots op
  log : ∀ {s u} ev, R s u → R (s.log ev) (u.log ev)
  setRail : ∀ {s u} r v, R s u → R (s.setRail r v) (u.setRail r v)
  setLine : ∀ {s u} l v, R s u → R (s.setLine l v) (u.setLine l v)
  elapse : ∀ {s u} d, R s u → R (s.elapse d) (u.elapse d)
  consume : ∀ {s u} a, R s u → R (s.consume a) (u.consume a)
  setPc : ∀ {s u} p, R s u → R (s.setPc p) (u.setPc p)
  setContrastReg : ∀ {s u} b, R s u → R (s.setContrastReg b) (u.setContrastReg b)
  setPrepared : ∀ {s u} v, R s u → R (s.setPrepared v) (u.setPrepared v)
  setEnabled : ∀ {s u} v, R s u → R (s.setEnabled v) (u.setEnabled v)
  setFault : ∀ {s u}, R s u → R s.setFault u.setFault
  answer : ∀ {s u} r, R s u → R (s.answer r) (u.answer r)

/-- The same became of a call in related states. -/
inductive SameAttempt (R : State ε → State ε → Prop) : Attempt ε → Attempt ε → Prop
  | waits : SameAttempt R .waits .waits
  | fails (e) {s u} (h : R s u) : SameAttempt R (.fails e s) (.fails e u)
  | done {s u} (h : R s u) : SameAttempt R (.done s) (.done u)

section Hides

variable {R : State ε → State ε → Prop}

theorem Hides.restoreThenFail_same (hR : Hides R) (e : ε) {s u : State ε} (h : R s u) :
    SameAttempt R (restoreThenFail e s) (restoreThenFail e u) := by
  unfold restoreThenFail
  rw [hR.answers h]
  split
  · exact .waits
  · exact .fails _ (hR.log _ (hR.setLine _ _ (hR.consume _ h)))

theorem Hides.transferDone_same (hR : Hides R) (ev : Event ε) (res : Res ε) (rd : Bool) {s u : State ε} (h : R s u) :
    SameAttempt R (transferDone ev res rd s) (transferDone ev res rd u) := by
  cases res with
  | ok => exact .done (hR.log _ h)
  | err e =>
    cases rd with
    | false => exact .fails _ (hR.log _ h)
    | true => exact hR.restoreThenFail_same e (hR.log _ h)

theorem Hides.regulatorDone_same (hR : Hides R) (ev : Event ε) (res : Res ε) {f : State ε → State ε} {s u : State ε}
    (h : R s u) (hf : R (f s) (f u)) : SameAttempt R (regulatorDone ev res f s) (regulatorDone ev res f u) := by
  cases res with
  | ok => exact .done (hR.log _ hf)
  | err e => exact .fails _ (hR.log _ h)

theorem Hides.callDone_same (hR : Hides R) (c : Call) (rd : Bool) (a : Answer ε) {s u : State ε} (h : R s u) :
    SameAttempt R (callDone c rd a s) (callDone c rd a u) := by
  cases c with
  | regEnable r => exact hR.regulatorDone_same _ _ h (hR.setRail _ _ h)
  | regDisable r => exact hR.regulatorDone_same _ _ h (hR.setRail _ _ h)
  | regDisableDeferred r d => exact hR.regulatorDone_same _ _ h h
  | gpioSet l level => exact .done (hR.log _ (hR.setLine _ _ h))
  | delay d => exact .done (hR.log _ (hR.elapse _ h))
  | delayThenOff d r => exact .done (hR.setRail _ _ (hR.log _ (hR.elapse _ h)))
  | xfer9 ws => exact hR.transferDone_same _ _ _ h
  | xfer8 bs => exact hR.transferDone_same _ _ _ h

theorem Hides.makeCall_same (hR : Hides R) (c : Call) (rd : Bool) {s u : State ε} (h : R s u) :
    SameAttempt R (makeCall c rd s) (makeCall c rd u) := by
  unfold makeCall
  rw [hR.answers h]
  split
  · exact .waits
  · exact hR.callDone_same _ _ _ (hR.consume _ h)

theorem Hides.perform_same (hR : Hides R) (sl : Slot) {s u : State ε} (h : R s u) :
    SameAttempt R (perform sl s) (perform sl u) := by
  unfold perform
  rw [hR.answers h]
  split
  · split
    · exact .waits
    · split
      · exact .fails _ (hR.consume _ h)
      · exact hR.makeCall_same _ _ (hR.consume _ h)
  · exact hR.makeCall_same _ _ h

theorem Hides.complete_related (hR : Hides R) (op : Operation) {s u : State ε} (h : R s u) :
    R (complete op s) (complete op u) := by
  rcases op with i | c
  · cases i
    case prepare => exact hR.answer _ (hR.setPrepared _ h)
    case enable => exact hR.answer _ (hR.setEnabled _ h)
    case disable => exact hR.answer _ (hR.setEnabled _ h)
    case unprepare => exact hR.answer _ (hR.setPrepared _ h)
    case getContrast =>
      simp only [complete, completeInstr, hR.contrast h]
      exact hR.answer _ h
    all_goals exact hR.answer _ h
  · exact hR.answer _ h

theorem Hides.advance_related (hR : Hides R) {s u : State ε} (h : R s u) : R (advance s) (advance u) := by
  cases hpc : s.pc with
  | idle => rwa [advance_idle hpc, advance_idle ((hR.pc h).trans hpc)]
  | busy op i =>
    have hpc' : u.pc = .busy op i := (hR.pc h).trans hpc
    have hslots := hR.slots op h
    cases hsl : (s.slots op)[i]? with
    | none =>
      by_cases hi : i = 0
      · subst hi
        have hnil : s.slots op = [] := by simpa using hsl
        rw [advance_empty hpc hnil, advance_empty hpc' (hslots.trans hnil)]
        exact hR.complete_related op h
      · rwa [advance_outside hpc hsl hi, advance_outside hpc' (hslots ▸ hsl) hi]
    | some sl =>
      have hsl' : (u.slots op)[i]? = some sl := hslots ▸ hsl
      have hsame := hR.perform_same sl h
      generalize hp : perform sl s = p, hq : perform sl u = q at hsame
      cases hsame with
      | waits => rwa [advance_waits hpc hsl hp, advance_waits hpc' hsl' hq]
      | fails e ht =>
        rw [advance_fails hpc hsl hp, advance_fails hpc' hsl' hq]
        exact hR.answer _ ht
      | done ht =>
        rw [advance_done hpc hsl hp, advance_done hpc' hsl' hq, hslots]
        unfold afterCall
        split
        · exact hR.setPc _ ht
        · exact hR.complete_related op ht

theorem Hides.drive_related (hR : Hides R) (n : Nat) {s u : State ε} (h : R s u) : R (drive n s) (drive n u) := by
  induction n generalizing s u with
  | zero => exact h
  | succ n ih => exact ih (hR.advance_related h)

theorem Hides.settle_related (hR : Hides R) {s u : State ε} (h : R s u) : R (settle s) (settle u) := by
  cases hpc : s.pc with
  | idle => rwa [settle_idle hpc, settle_idle ((hR.pc h).trans hpc)]
  | busy op i =>
    rw [settle_busy hpc, settle_busy ((hR.pc h).trans hpc), State.steps, State.steps, hR.slots op h]
    exact hR.drive_related _ h

theorem Hides.misuse_related (hR : Hides R) (i : Instr) {s u : State ε} (h : R s u) : R (s.misuse i) (u.misuse i) := by
  simp only [State.misuse, hR.prepared h, hR.enabled h]
  exact hR.answer _ (hR.setFault h)

theorem Hides.entered_related (hR : Hides R) (op : Operation) {s u : State ε} (h : R s u) :
    R (entered op s) (entered op u) := by
  rcases op with i | c
  · cases i
    case setContrast b => exact hR.setContrastReg b h
    all_goals exact h
  · exact h

/-- What a whole operation does in a state it does in every related state. -/
theorem Hides.exec_related {R : State → State → Prop} (hR : Hides R) {i : Instr} {s t u : State} (h : R s u)
    (he : exec i s = .next t) : ∃ t', exec i u = .next t' ∧ R t t' := by
  have hadm : admitted (.instr i) u = admitted (.instr i) s :=
    admitted_congr (hR.cfg h) (hR.prepared h) (hR.enabled h) _
  obtain ⟨hpc, ⟨ha, rfl⟩ | ⟨hno, rfl⟩⟩ := exec_next_cases he
  · refine ⟨_, exec_admitted ((hR.pc h).trans hpc) (hadm.trans ha), ?_⟩
    exact hR.settle_related (hR.setPc _ (hR.entered_related _ h))
  · have hhost := layer_of_exec_not_admitted he hpc hno
    exact ⟨_, exec_misuse ((hR.pc h).trans hpc) hhost (hadm.trans hno), hR.misuse_related i h⟩

end Hides

/-! ## Three things that no operation reads -/

/-- The settings `width`, `width_mm` and `height_mm` (10_state.md R22). -/
theorem hides_unreadSettings (w wm hm : Numeric) :
    Hides fun s u : State ε =>
      u = { s with settings := { s.settings with width := w, widthMm := wm, heightMm := hm } } := by
  constructor
  case slots =>
    rintro s u op rfl
    rcases op with i | c
    · cases i <;> rfl
    · rfl
  all_goals
    intros
    subst_vars
    rfl

/-- That the fault flag is set (10_state.md R26). -/
theorem hides_fault : Hides fun s u : State ε => u = { s with fault := true } := by
  constructor
  all_goals
    intros
    subst_vars
    rfl

/-- The rails (10_state.md R28); a call that writes one leaves other rails. -/
theorem hides_rails :
    Hides fun s u : State ε => ∃ core second, u = { s with railCore := core, railSecond := second } := by
  constructor
  case log | setRail | setLine | elapse | consume | setPc | setContrastReg | setPrepared | setEnabled | setFault |
      answer =>
    intros
    rename_i h
    obtain ⟨core, second, rfl⟩ := h
    exact ⟨_, _, rfl⟩
  all_goals
    intros
    rename_i h
    obtain ⟨core, second, rfl⟩ := h
    rfl

/-- Settles O7: no operation reads the three settings. -/
theorem unreadSettings : Obligations.UnreadSettings := by
  intro i s t w wm hm h
  obtain ⟨_, he, rfl⟩ := (hides_unreadSettings w wm hm).exec_related rfl h
  exact he

/-- Settles O42: no operation reads the fault flag. -/
theorem faultGatesNothing : Obligations.FaultGatesNothing := by
  intro i s t h
  obtain ⟨_, he, rfl⟩ := hides_fault.exec_related rfl h
  exact he

/-- Settles O43: no operation reads the rails. -/
theorem railsAreNotRead : Obligations.RailsAreNotRead := by
  intro i s t core second h
  obtain ⟨_, he, core', second', rfl⟩ := hides_rails.exec_related ⟨core, second, rfl⟩ h
  exact ⟨core', second', he⟩

end Sys2Proof.Machine
end

section
/-! One place of a sequence against the answers that are there for it (10_state.md R31, R34), and the end of every
operation that has answers enough (60_exceptions.md R232). -/

namespace Sys2Proof.Machine

open Sys2Proof.Spec

variable {ε : Type}

/-! ## What the answers make of a place -/

theorem makeCall_nil {c : Call} {rd : Bool} {s : State ε} (h : s.answers = []) : makeCall c rd s = .waits := by
  simp [makeCall, h]

theorem makeCall_cons {c : Call} {rd : Bool} {s : State ε} {a : Answer ε} {rest : List (Answer ε)}
    (h : s.answers = a :: rest) : makeCall c rd s = callDone c rd a (s.consume a) := by
  simp [makeCall, h]

/-- A refused buffer. -/
theorem perform_refused {sl : Slot} {s : State} (h : callAnswers sl s.answers = none) :
    ∃ t, perform sl s = .fails .eNomem t := by
  unfold callAnswers at h
  split at h
  · rename_i hal
    split at h
    · cases h
    · rename_i a rest ha
      split at h
      · cases h
      · rename_i e he
        exact ⟨s.consume a, by simp [perform, hal, ha, he]⟩
  · cases h

/-- Otherwise the place is its call, in a state that has just the answers for it. -/
theorem perform_eq_makeCall {sl : Slot} {s : State} {as : List Answer} (h : callAnswers sl s.answers = some as) :
    ∃ u, u.answers = as ∧ perform sl s = makeCall sl.call sl.restoreDC u := by
  unfold callAnswers at h
  split at h
  · rename_i hal
    split at h
    · rename_i ha
      obtain rfl := Option.some.inj h
      exact ⟨s, ha, by simp [perform, hal, ha, makeCall]⟩
    · rename_i a rest ha
      split at h
      · rename_i hok
        obtain rfl := Option.some.inj h
        exact ⟨s.consume a, by simp [ha], by simp [perform, hal, ha, hok]⟩
      · cases h
  · rename_i hal
    exact ⟨s, Option.some.inj h, by simp [perform, hal]⟩

/-- A call without an error of its own cannot fail. -/
theorem canFail_of_failureOf {c : Call} {e : ErrVal} (h : failureOf c e = none) : c.canFail = false := by
  cases c <;> simp [failureOf] at h <;> rfl

/-- A failed transfer waits for the answer that its restored line still lacks. -/
theorem callDone_waits {sl : Slot} {a : Answer} {s : State} {e : ErrVal} (ha : a.res = .err e)
    (hm : restoreMissing sl s.answers = true) : callDone sl.call sl.restoreDC a s = .waits := by
  obtain ⟨al, c, rd⟩ := sl
  cases c <;> simp [restoreMissing] at hm
  case xfer9 | xfer8 => simp [callDone, transferDone, restoreThenFail, ha, hm]

/-- Any other call that is answered with an error, and has one of its own, fails with it. -/
theorem callDone_failureOf {sl : Slot} {a : Answer} {s : State} {e : ErrVal} {r : Response} (ha : a.res = .err e)
    (hr : failureOf sl.call e = some r) (hm : restoreMissing sl s.answers = false) :
    ∃ t, callDone sl.call sl.restoreDC a s = .fails r t := by
  obtain ⟨al, c, rd⟩ := sl
  cases c <;> simp only [failureOf, Option.some.injEq, reduceCtorEq] at hr <;> subst hr
  case regEnable | regDisable | regDisableDeferred => exact ⟨_, by simp [callDone, regulatorDone, ha]; rfl⟩
  case xfer9 | xfer8 =>
    cases rd with
    | false => exact ⟨_, by simp [callDone, transferDone, ha]; rfl⟩
    | true =>
      obtain ⟨b, rest, hb⟩ : ∃ b rest, s.answers = b :: rest :=
        List.exists_cons_of_ne_nil (by simpa [restoreMissing] using hm)
      exact ⟨_, by simp [callDone, transferDone, restoreThenFail, ha, hb]; rfl⟩

/-! ## One step of the sequencer -/

theorem complete_completed (op : Operation) (s : State) : Completed s (complete op s) op := by
  rcases op with i | c
  · cases i <;> exact ⟨rfl, rfl, rfl⟩
  · exact ⟨rfl, rfl, rfl⟩

theorem completed_of_frame {s t u : State} {op : Operation} (f : CallFrame s t) (h : Completed t u op) :
    Completed s u op := by
  have ha : answerOf op t = answerOf op s := by
    unfold answerOf
    rw [f.settings]
  unfold Completed
  rw [← ha, ← f.responses, ← f.prepared, ← f.enabled]
  exact h

/-- A place that is done moves the sequencer on. -/
theorem movesOn_of_done {s t : State} {op : Operation} {k : Nat} {sl : Slot} (hpc : s.pc = .busy op k)
    (hsl : (s.slots op)[k]? = some sl) (hp : perform sl s = .done t) :
    MovesOn s (advance s) op k (s.slots op).length := by
  have f := perform_done_frame hp
  rw [advance_done hpc hsl hp]
  unfold MovesOn afterCall
  split
  · exact ⟨rfl, f.responses, f.prepared, f.enabled⟩
  · exact completed_of_frame f (complete_completed op t)

/-- A place that failed ends the operation. -/
theorem endsWith_of_fails {s t : State} {op : Operation} {k : Nat} {sl : Slot} {r : Response}
    (hpc : s.pc = .busy op k) (hsl : (s.slots op)[k]? = some sl) (hp : perform sl s = .fails r t) :
    EndsWith s (advance s) r := by
  have f := perform_fails_frame hp
  rw [advance_fails hpc hsl hp]
  refine ⟨rfl, ?_, f.prepared, f.enabled⟩
  rw [State.answer_responses, State.answer_now, f.responses]

/-- Settles O40: no place at the index, then the answers for the place in the order in which they are asked for. -/
theorem sequencerMovesByOne : Obligations.SequencerMovesByOne := by
  intro s op k hpc
  refine ⟨fun hnone => ?_, fun sl hsl => ?_⟩
  · split
    · subst k
      rw [advance_empty hpc (by simpa using hnone)]
      obtain ⟨-, -, -, -, -, -, -, htrace, -, -, hanswers, -⟩ := complete_frame op s
      exact ⟨complete_completed op s, htrace, hanswers⟩
    · exact advance_outside hpc hnone ‹_›
  cases hc : callAnswers sl s.answers with
  | none =>
    obtain ⟨t, hp⟩ := perform_refused hc
    exact endsWith_of_fails hpc hsl hp
  | some as =>
    obtain ⟨u, hu, hp⟩ := perform_eq_makeCall hc
    cases as with
    | nil => exact advance_waits hpc hsl (hp.trans (makeCall_nil hu))
    | cons a rest =>
      rw [makeCall_cons hu] at hp
      have hrest : (u.consume a).answers = rest := by simp [hu]
      cases hres : a.res with
      | ok =>
        simp only [hres]
        exact movesOn_of_done hpc hsl (hp.trans (callDone_done_iff.mpr ⟨fun _ => hres, rfl⟩))
      | err e =>
        cases hf : failureOf sl.call e with
        | none =>
          simp only [hres, hf]
          have hcan := canFail_of_failureOf hf
          exact movesOn_of_done hpc hsl (hp.trans (callDone_done_iff.mpr ⟨by simp [hcan], rfl⟩))
        | some r =>
          simp only [hres, hf]
          split
          · exact advance_waits hpc hsl (hp.trans (callDone_waits hres (by rwa [hrest])))
          · rename_i hm
            obtain ⟨t, ht⟩ := callDone_failureOf hres hf (by rwa [hrest, ← Bool.not_eq_true])
            exact endsWith_of_fails hpc hsl (hp.trans ht)

/-! ## With answers enough every operation ends -/

theorem answers_of_transferDone_waits {ev : Event ε} {res : Res ε} {rd : Bool} {s : State ε}
    (h : transferDone ev res rd s = .waits) : s.answers = [] := by
  cases res with
  | ok => simp [transferDone] at h
  | err e =>
    cases rd with
    | false => simp [transferDone] at h
    | true =>
      simp only [transferDone, if_true, restoreThenFail, State.log_answers] at h
      split at h
      · assumption
      · cases h

/-- A call that has been answered waits only for the answer to its restored line. -/
theorem answers_of_callDone_waits {c : Call} {rd : Bool} {a : Answer ε} {s : State ε}
    (h : callDone c rd a s = .waits) : s.answers = [] := by
  cases c
  case xfer9 | xfer8 => exact answers_of_transferDone_waits h
  case regEnable | regDisable | regDisableDeferred =>
    simp only [callDone, regulatorDone] at h
    split at h <;> cases h
  case gpioSet | delay | delayThenOff => cases h

theorem makeCall_ne_waits (c : Call) (rd : Bool) {s : State ε} (h : 2 ≤ s.answers.length) :
    makeCall c rd s ≠ .waits := by
  intro hw
  match ha : s.answers, h with
  | a :: b :: rest, _ =>
    rw [makeCall_cons ha] at hw
    simpa [ha] using answers_of_callDone_waits hw

/-- A place asks for three answers at most: for its buffer, its call and its restored line. -/
theorem perform_ne_waits (sl : Slot) {s : State ε} (h : 3 ≤ s.answers.length) : perform sl s ≠ .waits := by
  unfold perform
  split
  · match ha : s.answers, h with
    | a :: rest, h =>
      cases hres : a.res with
      | ok =>
        simp only [hres]
        exact makeCall_ne_waits _ _ (by simpa [ha] using h)
      | err e => simp [hres]
  · exact makeCall_ne_waits _ _ (by omega)

/-- A place that is done has used up two answers at most. -/
theorem perform_done_answers {sl : Slot} {s t : State ε} (h : perform sl s = .done t) :
    s.answers.length ≤ t.answers.length + 2 := by
  obtain ⟨u, a, rest, hg, ha, -, rfl⟩ := perform_done h
  rw [Call.okEffect_answers, State.consume_answers, ha]
  cases hg with
  | noBuffer _ => simp [ha]
  | buffer b rest' _ hs _ =>
    rw [State.consume_answers, hs] at ha
    simp at ha
    simp [hs, ha]

/-- Enough answers for the places from index `i` on. -/
def AnswersSuffice (op : Operation) (i : Nat) (s : State ε) : Prop :=
  2 * ((s.slots op).length - i) + 1 ≤ s.answers.length

theorem advance_slots (op : Operation) (s : State ε) : (advance s).slots op = s.slots op := by
  obtain ⟨hcfg, hsettings, -⟩ := advance_frame s
  exact slots_congr hcfg hsettings op

/-- A step with answers enough ends the operation, or goes on to the next index with answers enough. -/
theorem advance_progress {s : State ε} {op : Operation} {i : Nat} (hpc : s.pc = .busy op i) (hi : i < s.steps op)
    (h : AnswersSuffice op i s) :
    (advance s).pc = .idle ∨
      ((advance s).pc = .busy op (i + 1) ∧ i + 1 < s.steps op ∧ AnswersSuffice op (i + 1) (advance s)) := by
  unfold State.steps at hi ⊢
  unfold AnswersSuffice at h ⊢
  rw [advance_slots]
  cases hsl : (s.slots op)[i]? with
  | none =>
    have hle : (s.slots op).length ≤ i := List.getElem?_eq_none_iff.mp hsl
    have hnil : s.slots op = [] := List.length_eq_zero_iff.mp (by omega)
    obtain rfl : i = 0 := by omega
    exact .inl (by rw [advance_empty hpc hnil, complete_pc])
  | some sl =>
    have hlt : i < (s.slots op).length := (List.getElem?_eq_some_iff.mp hsl).1
    cases hp : perform sl s with
    | waits => exact absurd hp (perform_ne_waits sl (by omega))
    | fails x t => exact .inl (by rw [advance_fails hpc hsl hp, State.answer_pc])
    | done t =>
      have hdraws := perform_done_answers hp
      rw [advance_done hpc hsl hp]
      unfold afterCall
      split
      · exact .inr ⟨rfl, by omega, by rw [State.setPc_answers]; omega⟩
      · exact .inl (complete_pc op t)

theorem drive_ends (n : Nat) {s : State ε} {op : Operation} {i : Nat} (hpc : s.pc = .busy op i)
    (hi : i < s.steps op) (hn : n = s.steps op - i) (h : AnswersSuffice op i s) : (drive n s).pc = .idle := by
  induction n generalizing s i with
  | zero => omega
  | succ n ih =>
    rw [drive_succ]
    have hsteps : (advance s).steps op = s.steps op := by rw [State.steps, advance_slots, State.steps]
    obtain hidle | ⟨hpc', hi', h'⟩ := advance_progress hpc hi h
    · rwa [drive_idle n hidle]
    · exact ih hpc' (by omega) (by omega) h'

theorem settle_ends {s : State ε} {op : Operation} {i : Nat} (hpc : s.pc = .busy op i) (hi : i < s.steps op)
    (h : AnswersSuffice op i s) : (settle s).pc = .idle := by
  rw [settle_busy hpc]
  exact drive_ends _ hpc hi rfl h

/-- What an admission stores changes neither the operation's sequence nor the answers. -/
theorem entered_answersSuffice {op : Operation} {s : State ε} (h : 2 * (s.slots op).length + 1 ≤ s.answers.length) :
    AnswersSuffice op 0 ((entered op s).begun op) := by
  rcases op with i | c
  · cases i <;> exact h
  · exact h

/-- Settles O38: a step with answers enough makes progress (`advance_progress`), so running on ends; and running on is a
run of `step` (`after_settle`). -/
theorem everyInstructionEnds : Obligations.EveryInstructionEnds := by
  intro op s h
  refine ⟨fun t ht => ?_, fun k hpc hlegal => ?_⟩
  · rw [begins_eq] at ht
    obtain ⟨-, ⟨-, rfl⟩ | ⟨i, -, -, rfl⟩⟩ := execute_next_cases ht
    · exact settle_ends (State.begun_pc op _) (zero_lt_steps op _) (entered_answersSuffice h)
    · rfl
  · obtain ⟨hk, -⟩ := hlegal op k hpc
    obtain ⟨n, hn, hafter⟩ := after_settle hpc hk
    have hsuffice : AnswersSuffice op k s := by
      unfold AnswersSuffice
      omega
    exact ⟨n, settle s, Nat.le_trans hn (Nat.sub_le _ _), hafter, settle_ends hpc hk hsuffice⟩

end Sys2Proof.Machine
end

section
/-! The contrast store (10_state.md R30): what `set_contrast` writes, and where the initialisation sends it (R74). -/

namespace Sys2Proof.Machine

variable {ε : Type}

/-- Running on writes neither the configuration nor the settings. -/
theorem settle_cfg_settings (s : State ε) : (settle s).cfg = s.cfg ∧ (settle s).settings = s.settings := by
  refine settle_keeps (P := fun u => u.cfg = s.cfg ∧ u.settings = s.settings) ?_ ⟨rfl, rfl⟩
  rintro u ⟨hcfg, hsettings⟩
  obtain ⟨acfg, asettings, -⟩ := advance_frame u
  exact ⟨acfg.trans hcfg, asettings.trans hsettings⟩

/-- `set_contrast` is always admitted, so its store happens whatever becomes of its SEND (43_protocol.md R186). -/
theorem exec_setContrast_stores {b : Byte} {s t : State} (h : exec (.setContrast b) s = .next t) :
    t.cfg = s.cfg ∧ t.settings = { s.settings with contrast := b } := by
  obtain ⟨-, ⟨-, rfl⟩ | ⟨hno, -⟩⟩ := exec_next_cases h
  · exact settle_cfg_settings _
  · simp [admitted, admittedInstr] at hno

/-- Only the seventh initialisation command reads the contrast (42_regdecode.md R157, R167). -/
theorem initCmds_contrast (x : Settings) (b : Byte) :
    initCmds { x with contrast := b } = (initCmds x).set 6 (.setContrastCmd b) := rfl

/-- Settles O35: `b` is in the store, and the store is read by the seventh command alone. -/
theorem storedContrastReachesInit : Obligations.StoredContrastReachesInit := by
  intro b s t h
  obtain ⟨hcfg, hsettings⟩ := exec_setContrast_stores h
  rw [hcfg, hsettings, initCmds_contrast]
  refine ⟨rfl, fun k hk => ?_⟩
  exact List.getElem?_set_ne hk.symm

end Sys2Proof.Machine
end

section
/-! The three encodings of 30_encoding.md: their fields read back what was written, decoding and encoding are inverse
(R81 to R90), and the opcode table's numbers find their requests. -/

namespace Sys2Proof

/-! ## Words of two fields -/

theorem append_eq_shiftLeft_or {n m : Nat} (x : BitVec n) (y : BitVec m) :
    x ++ y = x.setWidth (n + m) <<< m ||| y.setWidth (n + m) := by
  rw [BitVec.append_def, BitVec.shiftLeftZeroExtend_eq, BitVec.setWidth'_eq]

theorem toNat_append_ushiftRight {n m : Nat} (x : BitVec n) (y : BitVec m) : ((x ++ y) >>> m).toNat = x.toNat := by
  rw [BitVec.toNat_ushiftRight, BitVec.toNat_append, Nat.shiftRight_or_distrib, Nat.shiftLeft_shiftRight,
    Nat.shiftRight_eq_zero _ _ y.isLt, Nat.or_zero]

theorem setWidth_append_ushiftRight {n m : Nat} (x : BitVec n) (y : BitVec m) :
    ((x ++ y) >>> m).setWidth n = x := by
  apply BitVec.eq_of_toNat_eq
  rw [BitVec.toNat_setWidth, toNat_append_ushiftRight, Nat.mod_eq_of_lt x.isLt]

theorem high_append_low {n m : Nat} (w : BitVec (n + m)) : (w >>> m).setWidth n ++ w.setWidth m = w := by
  rw [BitVec.setWidth_ushiftRight_eq_extractLsb, BitVec.setWidth_eq_extractLsb' (Nat.le_add_left m n),
    BitVec.extractLsb'_append_extractLsb'_eq_extractLsb' (Nat.zero_add m).symm]
  exact BitVec.extractLsb'_eq_self

/-- The request word is the selector before the argument (R81). -/
theorem requestWord_eq_append (sel : BitVec 3) (arg : Byte) : requestWord sel arg = sel ++ arg :=
  (append_eq_shiftLeft_or sel arg).symm

@[simp] theorem requestWord_selector (sel : BitVec 3) (arg : Byte) :
    (requestWord sel arg).toNat >>> 8 = sel.toNat := by
  rw [requestWord_eq_append, ← BitVec.toNat_ushiftRight]
  exact toNat_append_ushiftRight sel arg

@[simp] theorem requestWord_argument (sel : BitVec 3) (arg : Byte) : (requestWord sel arg).setWidth 8 = arg := by
  rw [requestWord_eq_append]
  exact BitVec.setWidth_append_eq_right

theorem nibbles_eq_append (hi lo : BitVec 4) : nibbles hi lo = hi ++ lo :=
  (append_eq_shiftLeft_or hi lo).symm

@[simp] theorem highNibble_nibbles (hi lo : BitVec 4) : highNibble (nibbles hi lo) = hi := by
  rw [nibbles_eq_append]
  exact setWidth_append_ushiftRight hi lo

@[simp] theorem lowNibble_nibbles (hi lo : BitVec 4) : lowNibble (nibbles hi lo) = lo := by
  rw [nibbles_eq_append]
  exact BitVec.setWidth_append_eq_right

@[simp] theorem nibbles_high_low (b : Byte) : nibbles (highNibble b) (lowNibble b) = b := by
  rw [nibbles_eq_append]
  exact high_append_low (n := 4) (m := 4) b

/-- The I2C word is the control byte before the payload (R86). -/
theorem controlWord_eq_append (b : Byte) : controlWord b = controlByte ++ b :=
  (append_eq_shiftLeft_or controlByte b).symm

theorem controlWord_high (b : Byte) : (controlWord b >>> 8).setWidth 8 = controlByte := by
  rw [controlWord_eq_append]
  exact setWidth_append_ushiftRight controlByte b

theorem controlWord_payload (b : Byte) : (controlWord b).setWidth 8 = b := by
  rw [controlWord_eq_append]
  exact BitVec.setWidth_append_eq_right

theorem controlWord_of_high {w : BitVec 16} (h : (w >>> 8).setWidth 8 = controlByte) :
    controlWord (w.setWidth 8) = w := by
  rw [controlWord_eq_append, ← h]
  exact high_append_low (n := 8) (m := 8) w

/-- The SPI 3-wire word of a byte is its number in nine bits (R84). -/
theorem tagWord_eq_ofNat (b : Byte) : tagWord b = BitVec.ofNat 9 b.toNat := (BitVec.ofNat_toNat 9 b).symm

theorem tagWord_toNat (b : Byte) : (tagWord b).toNat = b.toNat := by
  rw [tagWord, BitVec.toNat_setWidth, Nat.mod_eq_of_lt (by omega)]

theorem tagWord_tag (b : Byte) : (tagWord b).getLsbD 8 = false := by simp [tagWord]

theorem tagWord_payload (b : Byte) : (tagWord b).setWidth 8 = b := by simp [tagWord]

theorem tagWord_of_tag {w : Word9} (h : w.getLsbD 8 = false) : tagWord (w.setWidth 8) = w := by
  apply BitVec.eq_of_getLsbD_eq
  intro k hk
  obtain rfl | hk8 : k = 8 ∨ k < 8 := by omega
  · rw [tagWord_tag, h]
  · simp [tagWord, hk8, hk]

/-! ## Decoding what was encoded -/

/-- Bits 7, 6, 3, 2, 1 and 0 of a COM-pins parameter are fixed, bits 5 and 4 are its two flags (R156). -/
theorem comPinsByte_of_mask : ∀ {p : Byte}, p &&& 0xCF#8 = 0x02#8 →
    comPinsByte (p.getLsbD 5) (!p.getLsbD 4) = p := by
  decide

theorem decodeComPins_comPinsByte : ∀ lrRemap seqPin : Bool,
    decodeComPins (comPinsByte lrRemap seqPin) = .ok (.setComPins lrRemap seqPin) := by
  decide

theorem decodeWord9_tagWord (b : Byte) : decodeWord9 (tagWord b) = .ok (.w9 b) := by
  rw [decodeWord9, tagWord_tag, tagWord_payload, if_neg Bool.false_ne_true]

theorem decodeWord16_controlWord (b : Byte) : decodeWord16 (controlWord b) = .ok (.w16 b) := by
  rw [decodeWord16, controlWord_high, controlWord_payload, if_pos rfl]

/-- The default start-line bytes lie below 0x80, where no other command of one byte is (R90). -/
theorem startLineByte_ne (line : BitVec 7) {b : Byte} (hb : b.getLsbD 7 = true) :
    startLineByte defaultOpcodes line ≠ b := by
  rintro rfl
  simp [startLineByte, defaultOpcodes] at hb

/-- Bit 6 of the line is the opcode's own; the others are read back (R153). -/
theorem line_of_startLineByte {line : BitVec 7} (h : line.getLsbD 6 = false) :
    (startLineByte defaultOpcodes line &&& ~~~defaultOpcodes.startLine).setWidth 7 = line := by
  revert line
  decide

theorem decodeC0_startLineByte {line : BitVec 7} (h : line.getLsbD 6 = false) :
    decodeC0 defaultOpcodes (startLineByte defaultOpcodes line) = .ok (.setStartLine line) := by
  have hne {b : Byte} (hb : b.getLsbD 7 = true) := startLineByte_ne line hb
  rw [decodeC0]
  iterate 9 rw [if_neg (hne rfl)]
  simp [decodeStartLine, line_of_startLineByte h]

/-- Settles O1: layer by layer each field reads back what was written in it; the start line, the one operand that shares
bits with its opcode, has lemmas of its own (`startLineByte_ne`, `line_of_startLineByte`). -/
theorem decodeOfEncode : Obligations.DecodeOfEncode := by
  intro i hwf
  cases i
  case setStartLine line =>
    exact decodeC0_startLineByte (by simpa [Instr.wellFormed] using hwf)
  case setSegRemap remap => cases remap <;> rfl
  case setComScanDir invert => cases invert <;> rfl
  case setNormalInverse inverse => cases inverse <;> rfl
  case setComPins lrRemap seqPin => exact decodeComPins_comPinsByte lrRemap seqPin
  case setPrecharge phase2 phase1 =>
    simp [encode, decode, decodeCommand, decodeC1, defaultOpcodes]
  case setClock frequency divider =>
    simp [encode, decode, decodeCommand, decodeC1, defaultOpcodes]
  case w9 b => exact decodeWord9_tagWord b
  case w16 b => exact decodeWord16_controlWord b
  case setContrast b => simp [encode, decode, decodeHost]
  all_goals rfl

/-! ## Encoding what was decoded -/

theorem layer_of_decodeHost {w : BitVec 11} {i : Instr} (h : decodeHost w = .ok i) : i.layer = .hostOperation := by
  unfold decodeHost at h
  split at h <;> cases h <;> rfl

theorem encode_of_decodeStartLine {opc : Opcodes} {c : Byte} {i : Instr} (h : decodeStartLine opc c = .ok i) :
    encode opc i = .command (.c0 c) := by
  simp only [decodeStartLine] at h
  split_ifs at h with hc
  cases h
  simp only [encode, hc]

theorem encode_of_decodeC0 {opc : Opcodes} {c : Byte} {i : Instr} (h : decodeC0 opc c = .ok i) :
    encode opc i = .command (.c0 c) := by
  unfold decodeC0 at h
  split_ifs at h with hc hc hc hc hc hc hc hc hc
  case neg => exact encode_of_decodeStartLine h
  all_goals
    subst hc
    cases h
    rfl

theorem encode_of_decodeComPins {opc : Opcodes} {p : Byte} {i : Instr} (h : decodeComPins p = .ok i) :
    encode opc i = .command (.c1 opc.comPins p) := by
  unfold decodeComPins at h
  split_ifs at h with hmask
  cases h
  simp only [encode, comPinsByte_of_mask hmask]

theorem encode_of_decodeChargePump {opc : Opcodes} {p : Byte} {i : Instr} (h : decodeChargePump opc p = .ok i) :
    encode opc i = .command (.c1 opc.chargePump p) := by
  unfold decodeChargePump at h
  split_ifs at h with hp hp
  all_goals
    subst hp
    cases h
    rfl

/-- Which of the eight rows of format C1 an opcode is decides which parameter reader is used. -/
theorem encode_of_decodeC1 {opc : Opcodes} {c p : Byte} {i : Instr} (h : decodeC1 opc c p = .ok i) :
    encode opc i = .command (.c1 c p) := by
  unfold decodeC1 at h
  split_ifs at h with hc hc hc hc hc hc hc hc <;> subst hc
  · cases h; rfl
  · cases h; rfl
  · exact encode_of_decodeComPins h
  · cases h; rfl
  · cases h; simp [encode]
  · cases h; rfl
  · cases h; simp [encode]
  · exact encode_of_decodeChargePump h

theorem encode_of_decodeCommand {opc : Opcodes} {c : Command} {i : Instr} (h : decodeCommand opc c = .ok i) :
    encode opc i = .command c := by
  cases c with
  | c0 opcode => exact encode_of_decodeC0 h
  | c1 opcode param0 => exact encode_of_decodeC1 h
  | c2 opcode param0 param1 => cases h

theorem encode_of_decodeWord9 {opc : Opcodes} {w : BitVec 9} {i : Instr} (h : decodeWord9 w = .ok i) :
    encode opc i = .word9 w := by
  unfold decodeWord9 at h
  split_ifs at h with htag
  cases h
  simp only [encode, tagWord_of_tag (Bool.eq_false_of_not_eq_true htag)]

theorem encode_of_decodeWord16 {opc : Opcodes} {w : BitVec 16} {i : Instr} (h : decodeWord16 w = .ok i) :
    encode opc i = .word16 w := by
  unfold decodeWord16 at h
  split_ifs at h with hhigh
  cases h
  simp only [encode, controlWord_of_high hhigh]

/-- Settles O2: one inversion lemma for each decoder. -/
theorem encodeOfDecode : Obligations.EncodeOfDecode := by
  intro opc r i hlayer h
  cases r with
  | host w => exact absurd (layer_of_decodeHost h) hlayer
  | command c => exact encode_of_decodeCommand h
  | word9 w => exact encode_of_decodeWord9 h
  | word8 w => cases h; rfl
  | word16 w => exact encode_of_decodeWord16 h

/-! ## The numbers of the opcode table -/

theorem isCommand_of_decode {c : Command} {i : Instr} (h : decodeCommand defaultOpcodes c = .ok i) :
    isCommand c = true := by
  simp [isCommand, h]

/-- The opcodes of format C1 are neither below 0x08, the high bytes of request words, nor 0xC0, the high byte of an I2C
word (R90). -/
theorem c1_opcode_apart {c p : Byte} {i : Instr} (h : decodeC1 defaultOpcodes c p = .ok i) :
    8 ≤ c.toNat ∧ c.toNat ≠ 0xC0 := by
  unfold decodeC1 at h
  split_ifs at h with hc hc hc hc hc hc hc hc <;> rw [hc] <;> decide

theorem high_of_decodeWord16 {w : BitVec 16} {i : Instr} (h : decodeWord16 w = .ok i) : w.toNat / 256 = 0xC0 := by
  unfold decodeWord16 at h
  split_ifs at h with hhigh
  have hnat := congrArg BitVec.toNat hhigh
  simp [controlByte, Nat.shiftRight_eq_div_pow] at hnat
  omega

/-- A request that decodes, and is no W9 or W8 word, is found by its number in whole bytes (log entry 14). -/
theorem tableRequest_requestNumber {r : Request} {i : Instr} (h : decode defaultOpcodes r = .ok i)
    (h9 : ∀ w, r ≠ .word9 w) (h8 : ∀ w, r ≠ .word8 w) :
    tableRequest ((requestBits r + 7) / 8 * 8) (requestNumber r) = r := by
  cases r with
  | host w =>
    have hw : w.toNat % 65536 < 2048 := by omega
    simp [tableRequest, requestBits, requestNumber, hw]
  | command c =>
    cases c with
    | c0 b => simp [tableRequest, requestBits, requestNumber, Command.bytes, isCommand_of_decode (c := .c0 b) h]
    | c1 b p =>
      obtain ⟨hhost, hword⟩ := c1_opcode_apart h
      have hopcode : (b.toNat * 256 + p.toNat) / 256 = b.toNat := by omega
      have hparam : BitVec.ofNat 8 (b.toNat * 256 + p.toNat) = p := by
        apply BitVec.eq_of_toNat_eq
        rw [BitVec.toNat_ofNat]
        omega
      have hlow : ¬ (b.toNat * 256 + p.toNat) % 65536 < 2048 := by omega
      have hhigh : b.toNat % 256 ≠ 0xC0 := by omega
      simp [tableRequest, requestBits, requestNumber, Command.bytes, commandOfC1Word, hlow, hhigh, hopcode, hparam]
    | c2 b p q => cases h
  | word9 w => exact absurd rfl (h9 w)
  | word8 w => exact absurd rfl (h8 w)
  | word16 w =>
    have hdiv := high_of_decodeWord16 h
    have hlow : ¬ w.toNat % 65536 < 2048 := by omega
    simp [tableRequest, requestBits, requestNumber, hlow, hdiv]

/-- Settles O5: the number finds the request, and the request decodes to the instruction (`decodeOfEncode`). -/
theorem tableWordsDecode : Obligations.TableWordsDecode := by
  intro i hwf h9 h8
  have hdecode := decodeOfEncode i hwf
  rw [decodeTableWord, tableRequest_requestNumber hdecode, hdecode]
  all_goals
    intro w hw
    cases i <;> simp [encode] at hw
  · exact h9 _ rfl
  · exact h8 _ rfl

/-! ## The request word -/

/-- Settles O3: the selector and the argument are read back from the word they were put into. -/
theorem requestWordSelectors : Obligations.RequestWordSelectors := by
  intro opc arg
  simp only [← requestWord_eq_append, decode]
  simp [decodeHost]

/-- Settles O4: nine closed words. -/
theorem specWordsDecode : Obligations.SpecWordsDecode := by
  unfold Obligations.SpecWordsDecode
  decide

end Sys2Proof
end

section
/-! The words the transport encoder makes (30_encoding.md R83, R84, 40_transport.md R111): tag 0 in every one. -/

namespace Sys2Proof.Machine

open Sys2Proof.Spec

/-- No 9-bit word of a list of places has tag 1. -/
def TagsZero (xs : List Slot) : Prop := ∀ w ∈ words9 xs, w.getLsbD 8 = false

theorem words9_append (xs ys : List Slot) : words9 (xs ++ ys) = words9 xs ++ words9 ys := List.flatMap_append

theorem words9_withBuffer (xs : List Slot) : words9 (withBuffer xs) = words9 xs := by
  cases xs <;> rfl

theorem words9_sendSpi3 (bytes : List Byte) : words9 (sendSpi3 bytes) = bytes.map tagWord := by
  simp [words9, sendSpi3]

theorem tagsZero_sendClosed : SendClosed TagsZero where
  nil := by simp [TagsZero, words9]
  append hx hy := by
    intro w hw
    rw [words9_append] at hw
    exact (List.mem_append.mp hw).elim (hx w) (hy w)
  buffer h := by rwa [TagsZero, words9_withBuffer]
  spi3 bytes := by
    intro w hw
    rw [words9_sendSpi3] at hw
    obtain ⟨b, -, rfl⟩ := List.mem_map.mp hw
    exact tagWord_tag b
  spi4 _ := by simp [TagsZero, words9, sendSpi4]
  i2c _ := by simp [TagsZero, words9, sendI2c]

theorem words9_powerOn (cfg : Cfg) : words9 (powerOn cfg) = [] := by
  unfold powerOn
  split <;> rfl

/-- Tag 1 is never produced (R84). -/
theorem sequenceOf_tagsZero (cfg : Cfg) (x : Settings) (op : Operation) : TagsZero (sequenceOf cfg x op) := by
  by_cases hp : op = .instr .prepare
  · subst hp
    exact tagsZero_sendClosed.append (by simp [TagsZero, words9_powerOn]) (tagsZero_sendClosed.initSeq cfg x)
  by_cases hu : op = .instr .unprepare
  · subst hu
    exact fun w hw => absurd hw List.not_mem_nil
  exact tagsZero_sendClosed.sequenceOf (by simp [TagsZero, words9, plain]) cfg x hp hu

theorem map_tagWord (bytes : List Byte) : bytes.map tagWord = bytes.map (fun b => BitVec.ofNat 9 b.toNat) :=
  List.map_congr_left fun b _ => tagWord_eq_ofNat b

/-- Settles O8: every word is a `tagWord`, and no sequence carries any other (`sequenceOf_tagsZero`). -/
theorem nineBitWords : Obligations.NineBitWords := by
  refine ⟨fun c => ?_, fun opc b => ?_, sequenceOf_tagsZero⟩
  · rw [send, words9_withBuffer, words9_sendSpi3, map_tagWord]
  · refine ⟨tagWord b, rfl, tagWord_tag b, fun k hk => ?_, tagWord_toNat b, ?_⟩
    · rw [tagWord, BitVec.getLsbD_setWidth, decide_eq_true (by omega : k < 9), Bool.true_and]
    · rw [tagWord_toNat]
      omega

/-- Settles O15: the three wire forms of three bytes. -/
theorem twoParameterForm : Obligations.TwoParameterForm := by
  refine fun c p q => ⟨?_, rfl, rfl⟩
  simp [send, withBuffer, sendSpi3, Command.bytes, tagWord_eq_ofNat]

end Sys2Proof.Machine
end

section
/-! SEND by itself (40_transport.md R110 to R117): what it comes to when all is answered, when the transfer fails, and
when the buffer is refused; then the raw commands, the wire words and the requests without meaning. -/

namespace Sys2Proof.Machine

open Sys2Proof.Spec

variable {ε : Type}

/-! ## The events of a run -/

/-- The event of a call that succeeded. -/
def Call.okEvent : Call → Event ε
  | .regEnable r => .regEn r .ok
  | .regDisable r => .regDis r .ok
  | .regDisableDeferred r d => .regDisDefer r d .ok
  | .gpioSet l level => .gpio l level
  | .delay d => .delay d
  | .delayThenOff d _ => .delay d
  | .xfer9 ws => .xfer9 ws .ok
  | .xfer8 bs => .xfer8 bs .ok

/-- The events on the trace, without their stamps. -/
def State.events (s : State ε) : List (Event ε) := s.trace.map Stamped.ev

@[simp] theorem State.events_log (ev : Event ε) (s : State ε) : (s.log ev).events = s.events ++ [ev] := by
  simp [State.events]

@[simp] theorem State.events_consume (a : Answer ε) (s : State ε) : (s.consume a).events = s.events := rfl
@[simp] theorem State.events_setLine (l : Line) (v : Bool) (s : State ε) : (s.setLine l v).events = s.events := rfl
@[simp] theorem State.events_setPc (p : Pc) (s : State ε) : (s.setPc p).events = s.events := rfl

theorem Call.okEffect_events (c : Call) (s : State ε) : (c.okEffect s).events = s.events ++ [c.okEvent] := by
  cases c <;> simp [Call.okEffect, Call.okEvent, State.events]

theorem State.draw_events (s : State ε) : s.draw.events = s.events := by
  unfold State.draw
  split <;> rfl

theorem runSlots_events (sls : List Slot) (s : State ε) :
    (runSlots sls s).events = s.events ++ sls.map fun sl => sl.call.okEvent := by
  induction sls generalizing s with
  | nil => simp
  | cons sl sls ih =>
    have hrun : (sl.run s).events = s.events ++ [sl.call.okEvent] := by
      rw [Slot.run, Call.okEffect_events]
      split <;> simp only [State.draw_events]
    rw [runSlots_cons, ih, hrun]
    simp

/-- The events of SEND are those of R117. -/
theorem send_okEvents (t : Transport) (c : Command) :
    (send t c).map (fun sl => (sl.call.okEvent : Event)) = sendEvents t c.bytes := by
  cases t with
  | spi3 => simp [send, withBuffer, sendSpi3, Call.okEvent, sendEvents, map_tagWord]
  | spi4 => rfl
  | i2c => rfl

/-! ## The rails and the lines of a run -/

theorem State.draw_samePower (s : State ε) : SamePower s s.draw := by
  unfold State.draw
  split <;> exact ⟨rfl, rfl, rfl⟩

theorem SamePower.trans {s t u : State ε} (h : SamePower s t) (k : SamePower t u) : SamePower s u :=
  ⟨k.railCore.trans h.railCore, k.railSecond.trans h.railSecond, k.lineReset.trans h.lineReset⟩

theorem runSlots_samePower {sls : List Slot} (h : KeepPower sls) (s : State ε) : SamePower s (runSlots sls s) := by
  induction sls generalizing s with
  | nil => exact ⟨rfl, rfl, rfl⟩
  | cons sl sls ih =>
    obtain ⟨hsl, hsls⟩ := List.forall_mem_cons.mp h
    refine SamePower.trans ?_ (ih hsls (sl.run s))
    refine SamePower.trans ?_ (Call.okEffect_samePower hsl _)
    split
    · exact s.draw_samePower.trans (State.draw_samePower _)
    · exact s.draw_samePower

theorem State.draw_lineDC (s : State ε) : s.draw.lineDC = s.lineDC := by
  unfold State.draw
  split <;> rfl

/-- SEND leaves the data/command line at rest (R112). -/
theorem runSlots_send_lineDC (c : Command) (s : State) :
    (runSlots (send s.cfg.transport c) s).lineDC = dcAtRest s := by
  cases ht : s.cfg.transport <;>
    simp [dcAtRest, ht, send, withBuffer, sendSpi3, sendSpi4, sendI2c, Slot.run, Call.okEffect, State.draw_lineDC]

/-! ## The end of a SEND -/

/-- A state that differs from `s` by events, answers used up, time and the data/command line ends as `ended` says. -/
theorem answer_eq_ended {s t : State} {p : Pc} {evs : List Event} (hf : CallFrame (s.setPc p) t) (hp : SamePower s t)
    (hev : t.events = s.events ++ evs) (r : Response) :
    ∃ stamped, stamped.map Stamped.ev = evs ∧
      t.answer r = ended { s with lineDC := t.lineDC } stamped t.now t.answers r := by
  obtain ⟨stamped, htrace⟩ : s.trace <+: t.trace := hf.trace
  refine ⟨stamped, ?_, ?_⟩
  · simpa [State.events, ← htrace] using hev
  · obtain ⟨hcfg, hsettings, hprepared, henabled, hfault, -, hrequests, hresponses, -, -⟩ := hf
    obtain ⟨hcore, hsecond, hreset⟩ := hp
    cases t
    simp_all [State.answer, ended]

/-- A call fails with the error it was answered with (the converse of `callDone_fails`). -/
theorem callDone_of_failedCall {c : Call} {rd : Bool} {a : Answer ε} {e : ε} {s t : State ε} {x : Response ε}
    (he : a.res = .err e) (h : FailedCall rd e s c x t) : callDone c rd a s = .fails x t := by
  cases h <;> simp_all [callDone, regulatorDone, transferDone, restoreThenFail]

/-- The converse of `perform_fails`, for a place whose buffer was granted. -/
theorem perform_of_failedCall {sl : Slot} {a : Answer ε} {rest : List (Answer ε)} {e : ε} {s u t : State ε}
    {x : Response ε} (hg : Granted sl s u) (ha : u.answers = a :: rest) (he : a.res = .err e)
    (h : FailedCall sl.restoreDC e (u.consume a) sl.call x t) : perform sl s = .fails x t := by
  have hcall : makeCall sl.call sl.restoreDC u = .fails x t := by
    simpa [makeCall, ha] using callDone_of_failedCall he h
  cases hg with
  | noBuffer hal => simpa [perform, hal] using hcall
  | buffer g rest' hal hans hgr => simpa [perform, hal, hans, hgr] using hcall

/-- `settle_fails` in the words of `ended`. -/
theorem settle_fails_ended {op : Operation} {sls more : List Slot} {sl : Slot} {s t : State} {x : Response}
    {oks as left : List Answer} {evs : List Event} {dc : Bool} (hs : s.slots op = sls ++ sl :: more)
    (hk : KeepPower sls) (ha : s.answers = oks ++ as) (hl : oks.length = drawsOf sls) (hok : ∀ a ∈ oks, a.res = .ok)
    (hp : perform sl (runSlots sls (s.setPc (.busy op sls.length))) = .fails x t)
    (hev : t.events = s.events ++ evs) (hdc : t.lineDC = dc) (hleft : t.answers = left) :
    ∃ stamped n, stamped.map Stamped.ev = evs ∧
      settle (s.begun op) = ended { s with lineDC := dc } stamped n left x := by
  have hpower := (runSlots_samePower hk (s.setPc (.busy op sls.length))).trans (perform_fails_samePower hp)
  obtain ⟨stamped, hstamped, hended⟩ := answer_eq_ended ((runSlots_frame sls _).trans (perform_fails_frame hp))
    ⟨hpower.railCore, hpower.railSecond, hpower.lineReset⟩ hev x
  rw [hdc, hleft] at hended
  exact ⟨stamped, t.now, hstamped, (settle_fails hs ha hl hok (by rwa [← runSlots_setPc])).trans hended⟩

/-- A SEND that is one transfer, whose transfer fails. -/
theorem settle_one_transfer_fails {op : Operation} {s : State} {call : Call} {ev : Event} {g a : Answer}
    {rest : List Answer} {e : ErrVal} (hs : s.slots op = [⟨true, call, false⟩]) (ha : s.answers = g :: a :: rest)
    (hg : g.res = .ok) (he : a.res = .err e) (hcall : ∀ u : State, FailedCall false e u call (.eBus e) (u.log ev)) :
    ∃ stamped n, stamped.map Stamped.ev = [ev] ∧ settle (s.begun op) = ended s stamped n rest (.eBus e) := by
  have hp : perform ⟨true, call, false⟩ (s.setPc (.busy op 0)) = .fails (.eBus e) _ :=
    perform_of_failedCall (.buffer g (a :: rest) rfl ha hg) (by simp [ha]; rfl) he (hcall _)
  exact settle_fails_ended (sls := []) (oks := []) hs (by simp [KeepPower]) rfl rfl (by simp) hp (by simp) rfl
    (by simp [ha])

section Send

variable {op : Operation} {c : Command} {s : State} {rest : List Answer}

/-- SEND with every call answered `ok` (R117). -/
theorem settle_send_ok (hs : s.slots op = send s.cfg.transport c) (hc : ∀ t : State, complete op t = t.answer .ok)
    (h : Grants s (sendDraws s.cfg.transport) rest) :
    ∃ stamped n, stamped.map Stamped.ev = sendEvents s.cfg.transport c.bytes ∧
      settle (s.begun op) = ended { s with lineDC := dcAtRest s } stamped n rest .ok := by
  obtain ⟨oks, ha, hl, hok⟩ := h
  have hdraws : drawsOf (s.slots op) = sendDraws s.cfg.transport := by
    rw [hs]
    cases s.cfg.transport <;> rfl
  obtain ⟨hsettle, hrest⟩ := settle_ok (op := op) ha (hl.trans hdraws.symm) hok
  rw [hs] at hsettle hrest
  obtain ⟨stamped, hev, hended⟩ := answer_eq_ended (s := s) (p := s.pc) (runSlots_frame (send s.cfg.transport c) s)
    (runSlots_samePower (keepPower_sendClosed.send _ c) s) (runSlots_events _ s) .ok
  rw [runSlots_send_lineDC, hrest] at hended
  exact ⟨stamped, _, hev.trans (send_okEvents _ c), by rw [hsettle, hc, hended]⟩

/-- SEND whose transfer fails: the attempt is on the trace, and the line is back at rest (R112, R115). -/
theorem settle_send_fails {e : ErrVal} (hs : s.slots op = send s.cfg.transport c)
    (h : FailsAfter s (drawsBeforeTransfer s.cfg.transport) e (drawsAfterFailure s.cfg.transport) rest) :
    ∃ stamped n, stamped.map Stamped.ev = failedEvents s.cfg.transport c.bytes e ∧
      settle (s.begun op) = ended { s with lineDC := dcAtRest s } stamped n rest (.eBus e) := by
  obtain ⟨a, back, he, hback, oks, ha, hl, hok⟩ := h
  cases ht : s.cfg.transport <;> rw [ht] at hs hback hl
  case spi3 =>
    obtain rfl := List.length_eq_zero_iff.mp hback
    obtain ⟨g, rfl⟩ := List.length_eq_one_iff.mp hl
    rw [show dcAtRest s = s.lineDC by simp [dcAtRest, ht], failedEvents, ← map_tagWord]
    exact settle_one_transfer_fails hs ha (hok g (by simp)) he fun u => .xfer9 _ rfl
  case i2c =>
    obtain rfl := List.length_eq_zero_iff.mp hback
    obtain ⟨g, rfl⟩ := List.length_eq_one_iff.mp hl
    rw [show dcAtRest s = s.lineDC by simp [dcAtRest, ht]]
    exact settle_one_transfer_fails hs ha (hok g (by simp)) he fun u => .xfer8 _ rfl
  case spi4 =>
    obtain ⟨b, rfl⟩ := List.length_eq_one_iff.mp hback
    obtain ⟨g, l, rfl⟩ := List.length_eq_two.mp hl
    have hans : (runSlots [⟨true, .gpioSet .dc false, false⟩] (s.setPc (.busy op 1))).answers = a :: b :: rest :=
      Slot.run_answers (oks := [g, l]) ha rfl
    have hev := runSlots_events [⟨true, .gpioSet .dc false, false⟩] (s.setPc (.busy op 1))
    have hp := perform_of_failedCall (sl := ⟨false, .xfer8 c.bytes, true⟩) (.noBuffer rfl) hans he
      (.xfer8Restored c.bytes b rest rfl (by rw [State.consume_answers, hans, List.tail_cons]))
    rw [show dcAtRest s = true by simp [dcAtRest, ht]]
    refine settle_fails_ended (oks := [g, l]) hs (by simp [KeepPower, Call.keepsPower]) ha rfl hok hp ?_ rfl ?_
    · simp only [State.events_log, State.events_setLine, State.events_consume, hev, List.append_assoc]
      rfl
    · simp only [State.log_answers, State.setLine_answers, State.consume_answers, hans, List.tail_cons]

/-- SEND whose buffer is refused: no output (R114). -/
theorem settle_send_refused {a : Answer} {e : ErrVal} (hs : s.slots op = send s.cfg.transport c)
    (ha : s.answers = a :: rest) (he : a.res = .err e) :
    settle (s.begun op) = ended s [] (s.now + a.took) rest .eNomem := by
  obtain ⟨call, more, hsend⟩ : ∃ call more, send s.cfg.transport c = ⟨true, call, false⟩ :: more := by
    cases s.cfg.transport <;> exact ⟨_, _, rfl⟩
  rw [settle_fails (sls := []) (oks := []) (hs.trans hsend) ha rfl (by simp) (perform_buffer_refused ha he)]
  simp [ended, State.answer, State.consume, State.setPc, ha]

end Send

theorem send_length_le (t : Transport) (c : Command) : (send t c).length ≤ 3 := by
  cases t <;> simp [send, withBuffer, sendSpi3, sendSpi4, sendI2c]

/-! ## Raw commands -/

/-- The step that takes a raw command, and the at most three after it (R83, R110). -/
theorem raw_command_run {c : Command} {s : State} {more : List Request} {why : DecodeError} (hpc : s.pc = .idle)
    (hr : s.requests = .command c :: more) (hd : decode s.cfg.opc (.command c) = .error why) :
    step s = .next (({ s with requests := more } : State).begun (.raw c)) ∧
      ∃ k, k ≤ 4 ∧ after k s = .next (settle (({ s with requests := more } : State).begun (.raw c))) := by
  have hu : s.takeRequest = { s with requests := more } := by simp [State.takeRequest, hr]
  have hstep : step s = accept (.raw c) { s with requests := more } := hu ▸ step_admits_raw hpc hr hd
  refine ⟨hstep.trans (accept_admitted hpc rfl), ?_⟩
  obtain ⟨k, -, hk, hafter⟩ := after_execute hstep
  have hsteps : ({ s with requests := more } : State).steps (.raw c) ≤ 3 :=
    max_le (by decide) (send_length_le s.cfg.transport c)
  exact ⟨k, by omega, hafter.trans (execute_admitted hpc rfl)⟩

/-- Settles O16: a raw command is its SEND. -/
theorem rawCommandRuns : Obligations.RawCommandRuns := by
  intro c s more e rest hpc hr hd
  obtain ⟨hstep, k, hk, hafter⟩ := raw_command_run hpc hr hd
  refine ⟨hstep, fun h => ?_, fun h => ?_, fun h => ?_⟩
  · obtain ⟨stamped, n, hev, hended⟩ :=
      settle_send_ok (s := { s with requests := more }) (raw_slots c _) (fun _ => rfl) h
    exact ⟨stamped, n, k, hk, hev, hafter.trans (congrArg _ hended)⟩
  · obtain ⟨stamped, n, hev, hended⟩ :=
      settle_send_fails (s := { s with requests := more }) (raw_slots c _) h
    exact ⟨stamped, n, k, hk, hev, hafter.trans (congrArg _ hended)⟩
  · obtain ⟨a, back, he, hback, oks, ha, hl, -⟩ := h
    obtain rfl := List.length_eq_zero_iff.mp hback
    obtain rfl := List.length_eq_zero_iff.mp hl
    have hended := settle_send_refused (s := { s with requests := more }) (raw_slots c _) ha he
    exact ⟨_, k, hk, hafter.trans (congrArg _ hended)⟩

/-! ## Wire words -/

/-- An SPI 4-wire bracket whose first place is done, whatever the environment answered it and the last (R112): only the
transfer has a result. -/
theorem settle_bracket {op : Operation} {al : Bool} {bytes : List Byte} {s u : State ε} {b d : Answer ε}
    {rest : List (Answer ε)}
    (hs : s.slots op =
      [⟨al, .gpioSet .dc false, false⟩, ⟨false, .xfer8 bytes, true⟩, ⟨false, .gpioSet .dc true, false⟩])
    (hp : perform ⟨al, .gpioSet .dc false, false⟩ (s.begun op) = .done u) (hu : u.answers = b :: d :: rest)
    (hb : b.res = .ok) :
    settle (s.begun op) = complete op
      ((Call.gpioSet .dc true).okEffect (((Call.xfer8 bytes).okEffect (u.consume b)).consume d)) := by
  have hf := perform_done_frame hp
  have hsteps : s.steps op = 3 := by simp [State.steps, hs]
  have hslots1 : (u.setPc (.busy op 1)).slots op = s.slots op := slots_congr hf.cfg hf.settings op
  have hslots2 : (((Call.xfer8 bytes).okEffect (u.consume b)).setPc (.busy op 2)).slots op = s.slots op :=
    slots_congr hf.cfg hf.settings op
  have h1 : advance (s.begun op) = u.setPc (.busy op 1) := by
    rw [advance_done rfl (by rw [State.begun_slots, hs]; rfl) hp, State.begun_slots, hs]
    rfl
  have h2 : advance (u.setPc (.busy op 1)) = ((Call.xfer8 bytes).okEffect (u.consume b)).setPc (.busy op 2) := by
    rw [advance_done (sl := ⟨false, .xfer8 bytes, true⟩) rfl (by rw [hslots1, hs]; rfl)
      (perform_plain_ok (s := u.setPc (.busy op 1)) hu fun _ => hb), hslots1, hs]
    rfl
  have h3 : advance (((Call.xfer8 bytes).okEffect (u.consume b)).setPc (.busy op 2)) =
      complete op ((Call.gpioSet .dc true).okEffect (((Call.xfer8 bytes).okEffect (u.consume b)).consume d)) := by
    rw [advance_done (sl := ⟨false, .gpioSet .dc true, false⟩) rfl (by rw [hslots2, hs]; rfl)
      (perform_plain_ok (a := d) (rest := rest) (by simp [Call.okEffect, hu]) nofun), hslots2, hs, afterCall,
      if_neg (by simp)]
    exact complete_setPc op
      ((Call.gpioSet .dc true).okEffect (((Call.xfer8 bytes).okEffect (u.consume b)).consume d)) _
  rw [settle_begun, hsteps, drive_succ, h1, drive_succ, h2, drive_succ, h3, drive_zero]

/-- A wire word without a bracket: one transfer (R111, R113). -/
theorem settle_one_transfer {op : Operation} {call : Call} {ev : Event} {s : State} {a : Answer} {rest : List Answer}
    (hs : s.slots op = [⟨false, call, false⟩]) (hc : ∀ t : State, complete op t = t.answer .ok)
    (hcall : ∀ u : State, call.okEffect u = u.log ev) (ha : s.answers = a :: rest) (hr : a.res = .ok) :
    settle (s.begun op) = ended s [⟨s.now + a.took, ev⟩] (s.now + a.took) rest .ok := by
  obtain ⟨hsettle, -⟩ := settle_ok (op := op) (oks := [a]) ha (by rw [hs]; rfl) (by simpa using hr)
  rw [hsettle, hs, runSlots_cons, runSlots_nil, Slot.run, State.draw_cons ha, hcall, hc]
  simp [ended, State.answer, State.log, State.consume, ha]

theorem exec_foreignWord {i : Instr} {s : State} (hpc : s.pc = .idle) (hf : foreignWord i s.cfg.transport = true) :
    exec i s = .refused .wrongTransport := by
  rw [exec_eq, execute, accept_foreignWord hpc hf]

/-- Settles O14: on its own transport a wire word is its transfer, elsewhere it is foreign. -/
theorem wireWordsRun : Obligations.WireWordsRun := by
  intro byte s hpc
  refine ⟨fun a rest ha => ⟨fun ht hr => ?_, fun ht hr => ?_, fun b d rest' ht hrest hb => ?_⟩,
    fun ht => ?_, fun ht => ?_, fun ht => ?_⟩
  · rw [exec_admitted hpc (by simp [admitted, admittedInstr, ht]), ← tagWord_eq_ofNat]
    exact congrArg _ (settle_one_transfer rfl (fun _ => rfl) (fun _ => rfl) ha hr)
  · rw [exec_admitted hpc (by simp [admitted, admittedInstr, ht])]
    exact congrArg _ (settle_one_transfer rfl (fun _ => rfl) (fun _ => rfl) ha hr)
  · subst hrest
    rw [exec_admitted hpc (by simp [admitted, admittedInstr, ht])]
    have hp := perform_plain_ok (c := .gpioSet .dc false) (rd := false) (s := s.begun (.instr (.w8 byte))) ha nofun
    have hu : ((Call.gpioSet .dc false).okEffect ((s.begun (.instr (.w8 byte))).consume a)).answers =
        b :: d :: rest' := by
      rw [Call.okEffect_answers, State.consume_answers, State.begun, State.setPc_answers, ha, List.tail_cons]
    refine congrArg _ ((settle_bracket rfl hp hu hb).trans ?_)
    simp [ended, complete, completeInstr, State.answer, Call.okEffect, State.log, State.consume, State.setLine,
      State.begun, State.setPc, ha]
  · exact exec_foreignWord hpc (by simp [foreignWord, ht])
  · exact exec_foreignWord hpc (by simp [foreignWord, ht])
  · exact exec_foreignWord hpc (by simp [foreignWord, ht])

/-! ## Requests without meaning -/

theorem noInstruction_refused {r : Request} {why : DecodeError} (s : State ε) (h : ∀ c, r ≠ .command c) :
    noInstruction r why s = .refused (.notAnInstruction why) := by
  cases r with
  | command c => exact absurd rfl (h c)
  | host | word9 | word8 | word16 => rfl

/-- Settles O57: what an idle block does is `fetch`. -/
theorem stepWithoutInstruction : Obligations.StepWithoutInstruction := by
  intro s hpc
  refine ⟨fun hr => ?_, fun r rest why hr hc hd => ?_⟩
  · simp [step, hpc, fetch, hr]
  · simp [step, hpc, fetch, hr, hd, noInstruction_refused _ hc]

end Sys2Proof.Machine
end

section
/-! What an admitted operation sends under its configuration (40_transport.md R117, 41_power.md R141): every event of
the trace stays one the configuration can produce. -/

namespace Sys2Proof.Machine

open Sys2Proof.Spec

/-! ## The sequence of an admitted operation -/

/-- The places in which a transport carries the bytes of one command (R111 to R113). -/
def wireForm (t : Transport) (bytes : List Byte) : List Slot :=
  match t with
  | .spi3 => sendSpi3 bytes
  | .spi4 => sendSpi4 bytes
  | .i2c => sendI2c bytes

theorem send_eq_withBuffer (t : Transport) (c : Command) : send t c = withBuffer (wireForm t c.bytes) := by
  cases t <;> rfl

theorem oneToThree_bytes (c : Command) : oneToThree c.bytes.length = true := by
  cases c <;> rfl

/-- A property of lists of places that everything a configuration lets out has: its own wire form with one to three
bytes, the settle delay and the two power sequences; and that joining lists and acquiring the buffer keep. Unlike
`SendClosed` it is not asked of the other transports. -/
structure FormClosed (cfg : Cfg) (P : List Slot → Prop) : Prop where
  nil : P []
  append : ∀ {xs ys}, P xs → P ys → P (xs ++ ys)
  buffer : ∀ {xs}, P xs → P (withBuffer xs)
  form : ∀ bytes, oneToThree bytes.length = true → P (wireForm cfg.transport bytes)
  settle : P [plain (.delay settleTime)]
  powerOn : P (powerOn cfg)
  powerOff : P (powerOff cfg)

section FormClosed

variable {cfg : Cfg} {P : List Slot → Prop}

theorem FormClosed.send (h : FormClosed cfg P) (c : Command) : P (send cfg.transport c) := by
  rw [send_eq_withBuffer]
  exact h.buffer (h.form c.bytes (oneToThree_bytes c))

theorem FormClosed.sendCommand (h : FormClosed cfg P) (i : Instr) : P (sendCommand cfg i) := by
  unfold Machine.sendCommand
  split
  · exact h.send _
  · exact h.nil

theorem FormClosed.sendCommands (h : FormClosed cfg P) (is : List Instr) :
    P (is.flatMap (Machine.sendCommand cfg)) := by
  induction is with
  | nil => exact h.nil
  | cons i is ih => exact h.append (h.sendCommand i) ih

/-- "If charge-pump topology, send" is a SEND or nothing. -/
theorem FormClosed.sendIf (h : FormClosed cfg P) (b : Bool) (i : Instr) :
    P (if b then Machine.sendCommand cfg i else []) := by
  split
  · exact h.sendCommand i
  · exact h.nil

/-- The sequence of an admitted operation: a wire word is one of the configured transport. -/
theorem FormClosed.slots {s : State} (h : FormClosed s.cfg P) {op : Operation} (ha : admitted op s = true) :
    P (s.slots op) := by
  rcases op with i | c
  · cases i
    case prepare => exact h.append h.powerOn (h.sendCommands _)
    case enable => exact h.append (h.append (h.sendIf _ _) (h.sendCommand _)) h.settle
    case disable => exact h.append (h.sendCommand _) (h.sendIf _ _)
    case unprepare => exact h.powerOff
    case getContrast => exact h.nil
    case chargePumpEnable | chargePumpDisable => exact h.sendIf _ _
    case w9 b | w8 b | w16 b =>
      have hf := h.form [b] rfl
      rwa [of_decide_eq_true ha] at hf
    all_goals
      simp only [State.slots, sequenceOf, useq, contrastUpdate]
      exact h.sendCommand _
  · exact h.send c

end FormClosed

/-! ## The events of one place -/

theorem events_of_trace {s t : State} (h : t.trace = s.trace) : t.events = s.events := congrArg (List.map Stamped.ev) h

/-- The events of a call that is answered with `e`: the attempt, and the restored line where the place restores it. -/
def Slot.errEvents (sl : Slot) (e : ErrVal) : List Event :=
  match sl.call with
  | .regEnable r => [.regEn r (.err e)]
  | .regDisable r => [.regDis r (.err e)]
  | .regDisableDeferred r d => [.regDisDefer r d (.err e)]
  | .xfer9 ws => .xfer9 ws (.err e) :: if sl.restoreDC then [.gpio .dc true] else []
  | .xfer8 bs => .xfer8 bs (.err e) :: if sl.restoreDC then [.gpio .dc true] else []
  | .gpioSet _ _ => []
  | .delay _ => []
  | .delayThenOff _ _ => []

theorem FailedCall.events {sl : Slot} {e : ErrVal} {s t : State} {x : Response}
    (h : FailedCall sl.restoreDC e s sl.call x t) : t.events = s.events ++ sl.errEvents e := by
  obtain ⟨al, c, rd⟩ := sl
  cases h <;> simp_all [Slot.errEvents]

theorem FailedCall.canFail {rd : Bool} {c : Call} {e : ErrVal} {s t : State} {x : Response}
    (h : FailedCall rd e s c x t) : c.canFail = true := by
  cases h <;> rfl

theorem Granted.events {sl : Slot} {s u : State} (h : Granted sl s u) : u.events = s.events := by
  obtain ⟨-, -, -, -, htrace⟩ := h.lines
  exact events_of_trace htrace

theorem perform_done_events {sl : Slot} {s t : State} (h : perform sl s = .done t) :
    t.events = s.events ++ [sl.call.okEvent] := by
  obtain ⟨u, a, rest, hg, -, -, rfl⟩ := perform_done h
  rw [Call.okEffect_events, State.events_consume, hg.events]

/-- A place that fails has no event where its buffer was refused, else those of its failed call. -/
theorem perform_fails_events {sl : Slot} {s t : State} {x : Response} (h : perform sl s = .fails x t) :
    (sl.alloc = true ∧ t.events = s.events) ∨
      ∃ e, sl.call.canFail = true ∧ t.events = s.events ++ sl.errEvents e := by
  obtain ⟨ha, -, a, rest, e, -, -, rfl⟩ | ⟨u, a, rest, e, hg, -, -, hf⟩ := perform_fails h
  · exact .inl ⟨ha, rfl⟩
  · exact .inr ⟨e, hf.canFail, by rw [hf.events, State.events_consume, hg.events]⟩

theorem complete_events (op : Operation) (s : State) : (complete op s).events = s.events := by
  obtain ⟨-, -, -, -, -, -, -, htrace, -⟩ := complete_frame op s
  exact events_of_trace htrace

/-! ## Places that fit the configuration -/

/-- A place whose event the configuration can produce, and which restores the data/command line only if there is one. -/
def Slot.Fits (cfg : Cfg) (sl : Slot) : Prop :=
  eventFits cfg (sl.call.okEvent : Event) = true ∧ (sl.restoreDC = true → cfg.transport = .spi4)

/-- The same of every place of a list. -/
def AllFit (cfg : Cfg) (xs : List Slot) : Prop := ∀ sl ∈ xs, sl.Fits cfg

/-- An I2C transfer of one to three bytes is as many pairs (R117). -/
theorem controlPairs_flatMap {bytes : List Byte} (h : oneToThree bytes.length = true) :
    controlPairs (bytes.flatMap controlPair) = true := by
  match bytes with
  | [] => simp [oneToThree] at h
  | [_] | [_, _] | [_, _, _] => simp [controlPairs, controlPair, controlByte]
  | _ :: _ :: _ :: _ :: _ =>
    simp [oneToThree] at h
    omega

theorem wireForm_allFit {cfg : Cfg} {bytes : List Byte} (h : oneToThree bytes.length = true) :
    AllFit cfg (wireForm cfg.transport bytes) := by
  unfold AllFit wireForm
  cases ht : cfg.transport
  case spi3 =>
    have htag : (bytes.map tagWord).all (fun w => !w.getLsbD 8) = true := by
      simp only [List.all_map, List.all_eq_true, Function.comp_apply, tagWord_tag, Bool.not_false, implies_true]
    simpa [sendSpi3, Slot.Fits, Call.okEvent, eventFits, ht, h] using htag
  case spi4 => simp [sendSpi4, Slot.Fits, Call.okEvent, eventFits, ht, h]
  case i2c => simp [sendI2c, Slot.Fits, Call.okEvent, eventFits, ht, controlPairs_flatMap h]

theorem powerOn_allFit (cfg : Cfg) : AllFit cfg (powerOn cfg) := by
  unfold AllFit
  cases hr : cfg.hasReset with
  | true =>
    rw [powerOn_of_hasReset hr]
    simp [plain, Slot.Fits, Call.okEvent, eventFits, hr, resetPulseWidth]
  | false =>
    rw [powerOn_of_no_reset hr]
    simp [plain, Slot.Fits, Call.okEvent, eventFits]

theorem powerOff_allFit (cfg : Cfg) : AllFit cfg (powerOff cfg) := by
  simp [AllFit, powerOff, deferredDisableCore, plain, Slot.Fits, Call.okEvent, eventFits, coreHoldTime]

theorem allFit_formClosed (cfg : Cfg) : FormClosed cfg (AllFit cfg) where
  nil := by simp [AllFit]
  append hx hy := fun sl h => (List.mem_append.mp h).elim (hx sl) (hy sl)
  buffer {xs} h := by
    cases xs with
    | nil => exact h
    | cons x xs => simpa [AllFit, withBuffer, Slot.Fits] using h
  form _ := wireForm_allFit
  settle := by simp [AllFit, plain, Slot.Fits, Call.okEvent, eventFits, settleTime]
  powerOn := powerOn_allFit cfg
  powerOff := powerOff_allFit cfg

/-- From a legal position every place of the operation in progress fits the configuration. -/
theorem PositionLegal.fits {s : State} (h : PositionLegal s) {op : Operation} {i : Nat} {sl : Slot}
    (hpc : s.pc = .busy op i) (hsl : (s.slots op)[i]? = some sl) : sl.Fits s.cfg :=
  (allFit_formClosed s.cfg).slots (h op i hpc).2 sl (List.mem_of_getElem? hsl)

/-- Whether an event fits does not depend on its result. -/
theorem Slot.Fits.errEvents {cfg : Cfg} {sl : Slot} (h : sl.Fits cfg) (e : ErrVal) :
    ∀ ev ∈ sl.errEvents e, eventFits cfg ev = true := by
  obtain ⟨al, c, rd⟩ := sl
  obtain ⟨hok, hrd⟩ := h
  cases c
  case xfer9 | xfer8 =>
    cases rd with
    | false => exact List.forall_mem_singleton.mpr hok
    | true =>
      refine List.forall_mem_cons.mpr ⟨hok, List.forall_mem_singleton.mpr ?_⟩
      exact decide_eq_true (hrd rfl)
  case regEnable | regDisable | regDisableDeferred => exact List.forall_mem_singleton.mpr hok
  all_goals exact fun _ hev => absurd hev List.not_mem_nil

/-! ## Every step keeps the trace fitting -/

theorem TraceFits.append {s t : State} {evs : List Event} (hc : t.cfg = s.cfg) (hev : t.events = s.events ++ evs)
    (hfit : ∀ ev ∈ evs, eventFits s.cfg ev = true) (h : TraceFits s) : TraceFits t := by
  have hall : ∀ ev ∈ t.events, eventFits t.cfg ev = true := by
    intro ev hmem
    rw [hc]
    rw [hev, List.mem_append] at hmem
    refine hmem.elim (fun hold => ?_) (hfit ev)
    obtain ⟨e, he, rfl⟩ := List.mem_map.mp hold
    exact h e he
  exact fun e he => hall e.ev (List.mem_map_of_mem he)

theorem TraceFits.congr {s t : State} (hc : t.cfg = s.cfg) (hev : t.events = s.events) (h : TraceFits s) :
    TraceFits t :=
  h.append (evs := []) hc (by simpa using hev) (by simp)

/-- A place that fits and is done logs an event that fits. -/
theorem TraceFits.done {s t : State} {sl : Slot} (h : TraceFits s) (hfit : sl.Fits s.cfg)
    (hp : perform sl s = .done t) : TraceFits t :=
  h.append (perform_done_frame hp).cfg (perform_done_events hp) (List.forall_mem_singleton.mpr hfit.1)

theorem advance_traceFits {s : State} (hpos : PositionLegal s) (h : TraceFits s) : TraceFits (advance s) := by
  obtain h' | ⟨op, -, -, h'⟩ | ⟨op, i, sl, hpc, hsl, hcases⟩ := advance_cases s
  · rwa [h']
  · rw [h']
    exact h.congr (complete_frame op s).1 (complete_events op s)
  · have hfit := hpos.fits hpc hsl
    obtain ⟨x, t, hp, h'⟩ | ⟨t, hp, -, h'⟩ | ⟨t, hp, -, h'⟩ := hcases <;> rw [h']
    · have hc := (perform_fails_frame hp).cfg
      obtain ⟨-, hev⟩ | ⟨e, -, hev⟩ := perform_fails_events hp
      · exact h.congr hc hev
      · exact h.append hc hev (hfit.errEvents e)
    · have ht : TraceFits t := h.done hfit hp
      exact ht
    · exact (h.done hfit hp).congr (complete_frame op t).1 (complete_events op t)

/-- An admitted operation is begun at a legal position. -/
theorem begun_positionLegal {op : Operation} {s : State} (ha : admitted op s = true) :
    PositionLegal ((entered op s).begun op) := by
  obtain ⟨hcfg, hprepared, henabled, -⟩ := entered_frame op s
  exact positionLegal_of_busy (State.begun_pc op _) (zero_lt_steps op (entered op s))
    ((admitted_congr hcfg hprepared henabled op).trans ha)

/-- The packaged induction for a property that legal positions help to keep. -/
theorem step_keeps_from_legal {P : State → Prop} (hadv : ∀ s, PositionLegal s → P s → P (advance s))
    (htake : ∀ s, P s → P s.takeRequest) (hmis : ∀ i s, P s → s.pc = .idle → P (s.misuse i))
    (hbegin : ∀ op s, P s → s.pc = .idle → admitted op s = true → P ((entered op s).begun op))
    {s t : State} (hpos : PositionLegal s) (hs : P s) (h : step s = .next t) : P t := by
  refine (step_keeps (P := fun u => PositionLegal u ∧ P u) ?_ ?_ ?_ ?_ ⟨hpos, hs⟩ h).2
  · exact fun u ⟨hu, hP⟩ => ⟨advance_positionLegal hu, hadv u hu hP⟩
  · exact fun u ⟨hu, hP⟩ _ => ⟨hu, htake u hP⟩
  · exact fun i u ⟨_, hP⟩ hpc => ⟨positionLegal_idle rfl, hmis i u hP hpc⟩
  · exact fun op u ⟨_, hP⟩ hpc ha => ⟨begun_positionLegal ha, hbegin op u hP hpc ha⟩

/-- Settles O54: every place of an admitted operation fits (`allFit_formClosed`), whether its call succeeds or fails. -/
theorem traceFitsKept : Obligations.TraceFitsKept := by
  intro s t hpos hfits h
  refine step_keeps_from_legal (P := TraceFits) (fun _ => advance_traceFits) ?_ ?_ ?_ hpos hfits h
  · exact fun u hu => hu
  · exact fun i u hu _ => hu
  · intro op u hu _ _
    obtain ⟨-, htrace, -⟩ := entered_begun_frame op u
    exact hu.congr (entered_frame op u).1 (events_of_trace htrace)

end Sys2Proof.Machine
end

section
/-! The SPI 4-wire brackets of the trace (40_transport.md R112, 20_memory.md R71): the events of a sequence follow the
pattern place by place, and a place that fails closes its bracket. -/

namespace Sys2Proof.Machine

open Sys2Proof.Spec

/-! ## The pattern over events -/

theorem bracketScan_eq_foldlM (ph : BracketPhase) (evs : List Stamped) :
    bracketScan ph evs = (evs.map Stamped.ev).foldlM bracketStep ph := by
  induction evs generalizing ph with
  | nil => rfl
  | cons e evs ih =>
    rw [List.map_cons, List.foldlM_cons, bracketScan]
    cases bracketStep ph e.ev with
    | none => rfl
    | some ph' => exact ih ph'

/-- The trace scans as whole brackets up to the phase `ph`. -/
def ScansTo (s : State) (ph : BracketPhase) : Prop := s.events.foldlM bracketStep .rest = some ph

theorem bracketsWhole_iff {s : State} :
    BracketsWhole s ↔ (s.cfg.transport = .spi4 → ScansTo s s.bracketPhase) := by
  rw [BracketsWhole, bracketScan_eq_foldlM]
  rfl

theorem ScansTo.append {s t : State} {ph ph' : BracketPhase} {evs : List Event} (h : ScansTo s ph)
    (hev : t.events = s.events ++ evs) (hscan : evs.foldlM bracketStep ph = some ph') : ScansTo t ph' := by
  rw [ScansTo] at h
  rw [ScansTo, hev, List.foldlM_append, h]
  exact hscan

theorem ScansTo.congr {s t : State} {ph : BracketPhase} (h : ScansTo s ph) (hev : t.events = s.events) :
    ScansTo t ph := by
  rwa [ScansTo, hev]

/-! ## The phase of a state -/

theorem bracketPhase_idle {s : State} (h : s.pc = .idle) : s.bracketPhase = .rest := by
  simp [State.bracketPhase, State.slotAtPc, h]

/-- The phase in which the place of an index is reached; past the end no bracket is open. -/
def phaseAt (xs : List Slot) (i : Nat) : BracketPhase := (xs[i]?.map Slot.phaseBefore).getD .rest

theorem phaseAt_of_getElem? {xs : List Slot} {i : Nat} {sl : Slot} (h : xs[i]? = some sl) :
    phaseAt xs i = sl.phaseBefore := by
  rw [phaseAt, h]
  rfl

theorem phaseAt_of_length_le {xs : List Slot} {i : Nat} (h : xs.length ≤ i) : phaseAt xs i = .rest := by
  rw [phaseAt, List.getElem?_eq_none h]
  rfl

theorem bracketPhase_busy {s : State} {op : Operation} {i : Nat} (h : s.pc = .busy op i) :
    s.bracketPhase = phaseAt (s.slots op) i := by
  simp only [State.bracketPhase, State.slotAtPc, h, phaseAt]
  cases (s.slots op)[i]? <;> rfl

/-! ## The pattern along a sequence -/

/-- A list of places whose events, begun in the phase `ph`, are whole brackets: each place is reached in its own phase,
a buffer is acquired outside a bracket only, and at the end no bracket is open. -/
def PhasesFrom (ph : Option BracketPhase) : List Slot → Prop
  | [] => ph = some .rest
  | sl :: rest =>
    ph = some sl.phaseBefore ∧ (sl.alloc = true → sl.phaseBefore = .rest) ∧
      PhasesFrom (bracketStep sl.phaseBefore (sl.call.okEvent : Event)) rest

theorem PhasesFrom.append {ph : Option BracketPhase} {xs ys : List Slot} (hx : PhasesFrom ph xs)
    (hy : PhasesFrom (some .rest) ys) : PhasesFrom ph (xs ++ ys) := by
  induction xs generalizing ph with
  | nil =>
    cases hx
    exact hy
  | cons x xs ih =>
    obtain ⟨hph, hal, hrest⟩ := hx
    exact ⟨hph, hal, ih hrest⟩

/-- A list of whole brackets is begun in the phase of its first place. -/
theorem PhasesFrom.start {ph : Option BracketPhase} {xs : List Slot} (h : PhasesFrom ph xs) :
    ph = some (phaseAt xs 0) := by
  cases xs with
  | nil => exact h
  | cons x xs => exact h.1

/-- The event of a place leads from its phase to the phase of the next, and a buffer is acquired at rest. -/
theorem PhasesFrom.getElem? {ph : Option BracketPhase} {xs : List Slot} (h : PhasesFrom ph xs) {i : Nat} {sl : Slot}
    (hi : xs[i]? = some sl) :
    (sl.alloc = true → sl.phaseBefore = .rest) ∧
      bracketStep sl.phaseBefore (sl.call.okEvent : Event) = some (phaseAt xs (i + 1)) := by
  induction xs generalizing ph i with
  | nil => simp at hi
  | cons x xs ih =>
    obtain ⟨-, hal, hrest⟩ := h
    cases i with
    | succ i => exact ih hrest hi
    | zero =>
      obtain rfl : x = sl := by simpa using hi
      exact ⟨hal, hrest.start⟩

theorem powerOn_phases (cfg : Cfg) : PhasesFrom (some .rest) (powerOn cfg) := by
  cases hr : cfg.hasReset with
  | true =>
    rw [powerOn_of_hasReset hr]
    exact ⟨rfl, nofun, rfl, nofun, rfl, nofun, rfl, nofun, rfl, nofun, rfl⟩
  | false =>
    rw [powerOn_of_no_reset hr]
    exact ⟨rfl, nofun, rfl, nofun, rfl⟩

theorem phasesFrom_formClosed {cfg : Cfg} (ht : cfg.transport = .spi4) :
    FormClosed cfg (PhasesFrom (some .rest)) where
  nil := rfl
  append := PhasesFrom.append
  buffer {xs} h := by
    cases xs with
    | nil => exact h
    | cons x xs =>
      obtain ⟨hph, -, hrest⟩ := h
      exact ⟨hph, fun _ => (Option.some.inj hph).symm, hrest⟩
  form bytes _ := by
    rw [ht]
    exact ⟨rfl, nofun, rfl, nofun, rfl, nofun, rfl⟩
  settle := ⟨rfl, nofun, rfl⟩
  powerOn := powerOn_phases cfg
  powerOff := ⟨rfl, nofun, rfl, nofun, rfl, nofun, rfl⟩

/-- A place that fails leaves no bracket open: a regulator call stands in none, and a transfer closes its own (R112,
decision D21). -/
theorem Slot.errEvents_scan {cfg : Cfg} {sl : Slot} {ph : BracketPhase} (ht : cfg.transport = .spi4)
    (hfit : sl.Fits cfg) (hok : bracketStep sl.phaseBefore (sl.call.okEvent : Event) = some ph)
    (hcan : sl.call.canFail = true) (e : ErrVal) :
    (sl.errEvents e).foldlM bracketStep sl.phaseBefore = some .rest := by
  obtain ⟨al, c, rd⟩ := sl
  cases c
  case regEnable | regDisable | regDisableDeferred => rfl
  case gpioSet | delay | delayThenOff => simp [Call.canFail] at hcan
  case xfer9 => simp [Slot.Fits, Call.okEvent, eventFits, ht] at hfit
  case xfer8 =>
    cases rd with
    | true => rfl
    | false => simp [Slot.phaseBefore, Call.okEvent, bracketStep] at hok

/-! ## Every step keeps the brackets whole -/

theorem perform_fails_scansTo_rest {sl : Slot} {s t : State} {x : Response} {ph : BracketPhase}
    (h : ScansTo s sl.phaseBefore) (ht : s.cfg.transport = .spi4) (hfit : sl.Fits s.cfg)
    (hal : sl.alloc = true → sl.phaseBefore = .rest)
    (hok : bracketStep sl.phaseBefore (sl.call.okEvent : Event) = some ph) (hp : perform sl s = .fails x t) :
    ScansTo t .rest := by
  obtain ⟨ha, hev⟩ | ⟨e, hcan, hev⟩ := perform_fails_events hp
  · exact hal ha ▸ h.congr hev
  · exact h.append hev (sl.errEvents_scan ht hfit hok hcan e)

theorem perform_done_scansTo {sl : Slot} {s t : State} {ph : BracketPhase} (h : ScansTo s sl.phaseBefore)
    (hok : bracketStep sl.phaseBefore (sl.call.okEvent : Event) = some ph) (hp : perform sl s = .done t) :
    ScansTo t ph := by
  refine h.append (perform_done_events hp) ?_
  rw [List.foldlM_cons, hok]
  rfl

theorem ScansTo.complete {op : Operation} {s : State} (h : ScansTo s .rest) :
    ScansTo (complete op s) (complete op s).bracketPhase := by
  rw [bracketPhase_idle (complete_pc op s)]
  exact h.congr (complete_events op s)

theorem advance_scansTo {s : State} (hpos : PositionLegal s) (ht : s.cfg.transport = .spi4)
    (h : ScansTo s s.bracketPhase) : ScansTo (advance s) (advance s).bracketPhase := by
  obtain h' | ⟨op, hpc, hsl, h'⟩ | ⟨op, i, sl, hpc, hsl, hcases⟩ := advance_cases s
  · rwa [h']
  · rw [h']
    rw [bracketPhase_busy hpc, hsl] at h
    exact ScansTo.complete h
  · rw [bracketPhase_busy hpc, phaseAt_of_getElem? hsl] at h
    have hseq : PhasesFrom (some .rest) (s.slots op) := (phasesFrom_formClosed ht).slots (hpos op i hpc).2
    obtain ⟨hal, hok⟩ := hseq.getElem? hsl
    obtain ⟨x, t, hp, h'⟩ | ⟨t, hp, -, h'⟩ | ⟨t, hp, hlast, h'⟩ := hcases <;> rw [h']
    · have hrest : ScansTo t .rest := perform_fails_scansTo_rest h ht (hpos.fits hpc hsl) hal hok hp
      rw [bracketPhase_idle rfl]
      exact hrest
    · have f := perform_done_frame hp
      have hslots : (t.setPc (.busy op (i + 1))).slots op = s.slots op := slots_congr f.cfg f.settings op
      have hnext : ScansTo t _ := perform_done_scansTo h hok hp
      rw [bracketPhase_busy rfl, hslots]
      exact hnext
    · rw [phaseAt_of_length_le hlast.ge] at hok
      exact ScansTo.complete (perform_done_scansTo h hok hp)

theorem advance_bracketsWhole {s : State} (hpos : PositionLegal s) (h : BracketsWhole s) :
    BracketsWhole (advance s) := by
  rw [bracketsWhole_iff] at h ⊢
  rw [(advance_frame s).1]
  exact fun ht => advance_scansTo hpos ht (h ht)

/-- A sequence is entered at rest. -/
theorem begun_bracketsWhole {op : Operation} {s : State} (hpc : s.pc = .idle) (ha : admitted op s = true)
    (h : BracketsWhole s) : BracketsWhole ((entered op s).begun op) := by
  obtain ⟨-, htrace, -⟩ := entered_begun_frame op s
  rw [bracketsWhole_iff, bracketPhase_idle hpc] at h
  rw [bracketsWhole_iff, bracketPhase_busy (State.begun_pc op _)]
  intro ht
  obtain ⟨-, hadm⟩ := begun_positionLegal ha op 0 rfl
  have hphase := Option.some.inj ((phasesFrom_formClosed ht).slots hadm).start
  rw [← hphase]
  exact (h ((entered_frame op s).1 ▸ ht)).congr (events_of_trace htrace)

/-- Settles O55: the sequence of an admitted operation is whole brackets (`phasesFrom_formClosed`), and a place that
fails closes its own (`Slot.errEvents_scan`). -/
theorem bracketsKept : Obligations.BracketsKept := by
  intro s t hpos hs h
  refine step_keeps_from_legal (P := BracketsWhole) (fun _ => advance_bracketsWhole) ?_ ?_ ?_ hpos hs h
  · exact fun u hu => hu
  · intro i u hu hpc
    rw [bracketsWhole_iff, bracketPhase_idle hpc] at hu
    rw [bracketsWhole_iff, bracketPhase_idle rfl]
    exact hu
  · exact fun op u hu hpc ha => begun_bracketsWhole hpc ha hu

end Sys2Proof.Machine
end

section
/-! The sixteen controller commands by themselves (40_transport.md R110 to R115): each is the SEND of its bytes, which
completes on each transport, is refused its buffer, or fails. -/

namespace Sys2Proof

/-! ## The bytes of the operands as numbers -/

theorem startLineByte_toNat (opc : Opcodes) (line : BitVec 7) :
    (startLineByte opc line).toNat = opc.startLine.toNat ||| line.toNat := by
  rw [startLineByte, BitVec.toNat_or, BitVec.toNat_setWidth, Nat.mod_eq_of_lt (by omega)]

theorem nibbles_toNat (hi lo : BitVec 4) : (nibbles hi lo).toNat = 16 * hi.toNat + lo.toNat := by
  rw [nibbles_eq_append, BitVec.toNat_append, ← Nat.shiftLeft_add_eq_or_of_lt lo.isLt, Nat.shiftLeft_eq]
  omega

/-- A byte is known by its number. -/
theorem eq_ofNat_of_toNat {b : Byte} {n : Nat} (h : b.toNat = n) : b = BitVec.ofNat 8 n := by
  rw [← h, BitVec.ofNat_toNat, BitVec.setWidth_eq]

end Sys2Proof

namespace Sys2Proof.Machine

open Sys2Proof.Spec

/-! ## A command is the SEND of its bytes -/

/-- An instruction of the table of commands is one, with the bytes of the table, and is sent in this topology. -/
theorem command_of_tableBytes {cfg : Cfg} {i : Instr} {bytes : List Byte} (h : tableBytes cfg i = some bytes) :
    i.layer = .command ∧ (∃ c, commandOf cfg.opc i = some c ∧ c.bytes = bytes) ∧
      (cfg.useChargePump = true ∨ (i ≠ .chargePumpEnable ∧ i ≠ .chargePumpDisable)) := by
  cases i
  case setStartLine line =>
    obtain rfl := Option.some.inj h
    exact ⟨rfl, ⟨_, rfl, by rw [← eq_ofNat_of_toNat (startLineByte_toNat cfg.opc line)]; rfl⟩, by simp⟩
  case setPrecharge phase2 phase1 =>
    obtain rfl := Option.some.inj h
    exact ⟨rfl, ⟨_, rfl, by rw [← eq_ofNat_of_toNat (nibbles_toNat phase2 phase1)]; rfl⟩, by simp⟩
  case setClock frequency divider =>
    obtain rfl := Option.some.inj h
    exact ⟨rfl, ⟨_, rfl, by rw [← eq_ofNat_of_toNat (nibbles_toNat frequency divider)]; rfl⟩, by simp⟩
  case setSegRemap f | setComScanDir f | setNormalInverse f =>
    cases f <;> exact ⟨rfl, ⟨_, rfl, Option.some.inj h⟩, by simp⟩
  case setComPins lrRemap seqPin =>
    cases lrRemap <;> cases seqPin <;> exact ⟨rfl, ⟨_, rfl, Option.some.inj h⟩, by simp⟩
  case chargePumpEnable | chargePumpDisable =>
    simp only [tableBytes, Option.ite_none_right_eq_some, Option.some.injEq] at h
    exact ⟨rfl, ⟨_, rfl, h.2⟩, .inl h.1⟩
  case prepare | enable | disable | unprepare | setContrast | getContrast | w9 | w8 | w16 => simp [tableBytes] at h
  all_goals exact ⟨rfl, ⟨_, rfl, Option.some.inj h⟩, by simp⟩

/-- A command given to an idle block is begun as the SEND of its bytes, and run. -/
theorem exec_command {i : Instr} {bytes : List Byte} {s : State} (h : tableBytes s.cfg i = some bytes)
    (hpc : s.pc = .idle) :
    (∃ c : Command, c.bytes = bytes ∧ s.slots (.instr i) = send s.cfg.transport c) ∧
      (∀ t : State, complete (.instr i) t = t.answer .ok) ∧
      exec i s = .next (settle (s.begun (.instr i))) := by
  obtain ⟨hlayer, ⟨c, hc, hbytes⟩, hpump⟩ := command_of_tableBytes h
  obtain ⟨hadm, hentered, hcomplete⟩ := command_facts hlayer s
  refine ⟨⟨c, hbytes, command_slots hc hpump⟩, fun t => (command_facts hlayer t).2.2 t, ?_⟩
  rw [exec_admitted hpc hadm, hentered]

/-! ## All answered -/

/-- A SEND that is one transfer (R111, R113). -/
theorem settle_buffered_transfer {op : Operation} {call : Call} {ev : Event} {s : State} {a b : Answer}
    {rest : List Answer} (hs : s.slots op = [⟨true, call, false⟩]) (hc : ∀ t : State, complete op t = t.answer .ok)
    (hcall : ∀ u : State, call.okEffect u = u.log ev) (ha : s.answers = a :: b :: rest) (hra : a.res = .ok)
    (hrb : b.res = .ok) :
    settle (s.begun op) =
      ended s [⟨s.now + a.took + b.took, ev⟩] (s.now + a.took + b.took) rest .ok := by
  obtain ⟨hsettle, -⟩ := settle_ok (op := op) (oks := [a, b]) ha (by rw [hs]; rfl) (by simp [hra, hrb])
  have hb : (s.consume a).answers = b :: rest := by simp [ha]
  rw [hsettle, hs, runSlots_cons, runSlots_nil, Slot.run, if_pos rfl, State.draw_cons ha, State.draw_cons hb, hcall, hc]
  simp [ended, State.answer, State.log, State.consume, ha]

/-- Settles O9: the SEND of a command on SPI 3-wire is one transfer. -/
theorem commandOnSpi3 : Obligations.CommandOnSpi3 := by
  intro i bytes s a b rest htable ht hpc ha hra hrb
  obtain ⟨⟨c, rfl, hs⟩, hc, hexec⟩ := exec_command htable hpc
  rw [ht] at hs
  rw [hexec, ← map_tagWord]
  exact congrArg _ (settle_buffered_transfer hs hc (fun _ => rfl) ha hra hrb)

/-- Settles O11: the SEND of a command on I2C is one transfer. -/
theorem commandOnI2c : Obligations.CommandOnI2c := by
  intro i bytes s a b rest htable ht hpc ha hra hrb
  obtain ⟨⟨c, rfl, hs⟩, hc, hexec⟩ := exec_command htable hpc
  rw [ht] at hs
  rw [hexec]
  exact congrArg _ (settle_buffered_transfer hs hc (fun _ => rfl) ha hra hrb)

/-- Settles O10: the SEND of a command on SPI 4-wire is a bracket whose first place acquires the buffer. -/
theorem commandOnSpi4 : Obligations.CommandOnSpi4 := by
  intro i bytes s a b c d rest htable ht hpc ha hra hrc
  obtain ⟨⟨cmd, rfl, hs⟩, hc, hexec⟩ := exec_command htable hpc
  rw [ht] at hs
  have hp := perform_buffer_ok (c := .gpioSet .dc false) (rd := false) (s := s.begun (.instr i)) ha hra nofun
  have hu : ((Call.gpioSet .dc false).okEffect (((s.begun (.instr i)).consume a).consume b)).answers =
      c :: d :: rest := by
    rw [Call.okEffect_answers, State.consume_answers, State.consume_answers, State.begun, State.setPc_answers, ha]
    rfl
  rw [hexec, settle_bracket hs hp hu hrc, hc]
  simp [ended, State.answer, Call.okEffect, State.log, State.consume, State.setLine, State.begun, State.setPc, ha]

/-! ## Refused or failed -/

/-- Settles O12: a command is its SEND, whose buffer is refused before any output (`settle_send_refused`). -/
theorem allocationRefused : Obligations.AllocationRefused := by
  intro i bytes s a rest e htable hpc ha he
  obtain ⟨⟨c, -, hs⟩, -, hexec⟩ := exec_command htable hpc
  rw [hexec, settle_send_refused hs ha he]

/-- Settles O13: a command is its SEND, whose transfer fails (`settle_send_fails`). -/
theorem transferFails : Obligations.TransferFails := by
  intro i bytes s e rest htable hpc hfails
  obtain ⟨⟨c, rfl, hs⟩, -, hexec⟩ := exec_command htable hpc
  obtain ⟨stamped, n, hev, hended⟩ := settle_send_fails hs hfails
  exact ⟨stamped, n, hev, hexec.trans (congrArg _ hended)⟩

end Sys2Proof.Machine
end

section
/-! What a command, a raw command and a wire word leave alone (40_transport.md R110, R116), whatever becomes of them. -/

namespace Sys2Proof.Machine

open Sys2Proof.Spec

/-! ## The data/command line without SPI 4-wire -/

theorem okEffect_lineDC_of_fits {cfg : Cfg} {sl : Slot} (hfit : sl.Fits cfg) (ht : cfg.transport ≠ .spi4) (s : State) :
    (sl.call.okEffect s).lineDC = s.lineDC := by
  obtain ⟨al, c, rd⟩ := sl
  cases c
  case gpioSet l level =>
    cases l with
    | reset => rfl
    | dc => exact absurd (of_decide_eq_true hfit.1) ht
  all_goals rfl

/-- Only a place that restores the line changes it when its call fails. -/
theorem FailedCall.lineDC_of_fits {cfg : Cfg} {sl : Slot} {e : ErrVal} {s t : State} {x : Response}
    (hf : FailedCall sl.restoreDC e s sl.call x t) (hfit : sl.Fits cfg) (ht : cfg.transport ≠ .spi4) :
    t.lineDC = s.lineDC := by
  obtain ⟨al, c, rd⟩ := sl
  cases hf
  case xfer9Restored | xfer8Restored => exact absurd (hfit.2 ‹_›) ht
  all_goals rfl

theorem perform_done_lineDC_of_fits {cfg : Cfg} {sl : Slot} {s t : State} (hfit : sl.Fits cfg)
    (ht : cfg.transport ≠ .spi4) (hp : perform sl s = .done t) : t.lineDC = s.lineDC := by
  obtain ⟨u, a, rest, hg, -, -, rfl⟩ := perform_done hp
  exact (okEffect_lineDC_of_fits hfit ht _).trans hg.lines.1

theorem perform_fails_lineDC_of_fits {cfg : Cfg} {sl : Slot} {s t : State} {x : Response} (hfit : sl.Fits cfg)
    (ht : cfg.transport ≠ .spi4) (hp : perform sl s = .fails x t) : t.lineDC = s.lineDC := by
  obtain ⟨-, -, a, rest, e, -, -, rfl⟩ | ⟨u, a, rest, e, hg, -, -, hf⟩ := perform_fails hp
  · rfl
  · exact (hf.lineDC_of_fits hfit ht).trans hg.lines.1

/-- From a legal position no step drives a line that the transport does not have (10_state.md R29). -/
theorem advance_lineDC_eq {s : State} (hpos : PositionLegal s) (ht : s.cfg.transport ≠ .spi4) :
    (advance s).lineDC = s.lineDC := by
  obtain h' | ⟨op, -, -, h'⟩ | ⟨op, i, sl, hpc, hsl, hcases⟩ := advance_cases s
  · rw [h']
  · rw [h', complete_lineDC]
  · have hfit := hpos.fits hpc hsl
    obtain ⟨x, t, hp, h'⟩ | ⟨t, hp, -, h'⟩ | ⟨t, hp, -, h'⟩ := hcases <;> rw [h']
    · exact (State.answer_lineDC x t).trans (perform_fails_lineDC_of_fits hfit ht hp)
    · exact (State.setPc_lineDC _ t).trans (perform_done_lineDC_of_fits hfit ht hp)
    · exact (complete_lineDC op t).trans (perform_done_lineDC_of_fits hfit ht hp)

/-- The same of every operation, as a whole and in each of its steps. -/
theorem runs_lineDC_eq {op : Operation} {s t : State} (h : Runs op s t) (hpos : PositionLegal s)
    (ht : s.cfg.transport ≠ .spi4) : t.lineDC = s.lineDC := by
  refine (runs_keeps (P := fun u => PositionLegal u ∧ u.cfg = s.cfg ∧ u.lineDC = s.lineDC) ?_ ?_ ?_
    ⟨hpos, rfl, rfl⟩ h).2.2
  · rintro u ⟨hu, hc, hdc⟩
    exact ⟨advance_positionLegal hu, (advance_frame u).1.trans hc,
      (advance_lineDC_eq hu (hc.symm ▸ ht)).trans hdc⟩
  · rintro i u ⟨-, hc, hdc⟩ -
    exact ⟨positionLegal_idle rfl, hc, hdc⟩
  · rintro op' u ⟨-, hc, hdc⟩ - ha
    obtain ⟨hcfg, -, -, hline, -⟩ := entered_frame op' u
    exact ⟨begun_positionLegal ha, hcfg.trans hc, hline.trans hdc⟩

/-! ## The rest of the state -/

section BelowHost

variable {op : Operation} (hl : op.layer ≠ .hostOperation)

include hl

theorem entered_of_not_host (s : State) : entered op s = s := by
  rcases op with i | c
  · cases i
    case setContrast b => exact absurd rfl hl
    all_goals rfl
  · rfl

theorem complete_of_not_host (s : State) : complete op s = s.answer .ok := by
  rcases op with i | c
  · cases i
    case prepare | enable | disable | unprepare | getContrast => exact absurd rfl hl
    all_goals rfl
  · rfl

/-- Below the host operations there is no misuse: an operation that is not admitted is refused. -/
theorem accept_of_not_host {s t : State} (h : accept op s = .next t) : t = s.begun op := by
  obtain ⟨hpc, ⟨-, rfl⟩ | ⟨i, rfl, hno, -⟩⟩ := accept_next_cases h
  · rw [entered_of_not_host hl]
  · cases hlayer : i.layer with
    | hostOperation => exact absurd hlayer hl
    | command => simp [(command_facts hlayer s).1] at hno
    | wireWord => simp [accept_wrongTransport hpc hlayer hno] at h

theorem slots_keepPower_of_not_host (s : State) : KeepPower (s.slots op) := by
  refine sequenceOf_keepPower s.cfg s.settings ?_ ?_ <;>
    · rintro rfl
      exact hl rfl

end BelowHost

/-- What an operation below the host operations has changed so far, in progress or ended: nothing but the data/command
line, the trace, the clock, the answers and the responses. -/
structure SendFrame (op : Operation) (s u : State) : Prop where
  cfg : u.cfg = s.cfg
  settings : u.settings = s.settings
  prepared : u.prepared = s.prepared
  enabled : u.enabled = s.enabled
  fault : u.fault = s.fault
  requests : u.requests = s.requests
  power : SamePower s u
  pc : u.pc = .idle ∨ ∃ k, u.pc = .busy op k

theorem SendFrame.call {op : Operation} {s u t : State} (h : SendFrame op s u) (hf : CallFrame u t)
    (hp : SamePower u t) : SendFrame op s t :=
  ⟨hf.cfg.trans h.cfg, hf.settings.trans h.settings, hf.prepared.trans h.prepared, hf.enabled.trans h.enabled,
    hf.fault.trans h.fault, hf.requests.trans h.requests, h.power.trans hp, hf.pc ▸ h.pc⟩

theorem SendFrame.setPc {op : Operation} {s u : State} (h : SendFrame op s u) (k : Nat) :
    SendFrame op s (u.setPc (.busy op k)) :=
  ⟨h.cfg, h.settings, h.prepared, h.enabled, h.fault, h.requests,
    ⟨h.power.railCore, h.power.railSecond, h.power.lineReset⟩, .inr ⟨k, rfl⟩⟩

theorem SendFrame.answer {op : Operation} {s u : State} (h : SendFrame op s u) (x : Response) :
    SendFrame op s (u.answer x) :=
  ⟨h.cfg, h.settings, h.prepared, h.enabled, h.fault, h.requests,
    ⟨h.power.railCore, h.power.railSecond, h.power.lineReset⟩, .inl rfl⟩

theorem SendFrame.advance {op : Operation} (hl : op.layer ≠ .hostOperation) {s u : State} (h : SendFrame op s u) :
    SendFrame op s (advance u) := by
  have hop {op' : Operation} {i : Nat} (hpc : u.pc = .busy op' i) : op' = op := by
    obtain hidle | ⟨k, hk⟩ := h.pc
    · simp [hidle] at hpc
    · rw [hk] at hpc
      cases hpc
      rfl
  obtain h' | ⟨op', hpc, -, h'⟩ | ⟨op', i, sl, hpc, hsl, hcases⟩ := advance_cases u
  · rwa [h']
  · obtain rfl := hop hpc
    rw [h', complete_of_not_host hl]
    exact h.answer .ok
  · obtain rfl := hop hpc
    have hk := slots_keepPower_of_not_host hl u sl (List.mem_of_getElem? hsl)
    obtain ⟨x, t, hp, h'⟩ | ⟨t, hp, -, h'⟩ | ⟨t, hp, -, h'⟩ := hcases <;> rw [h']
    · exact (h.call (perform_fails_frame hp) (perform_fails_samePower hp)).answer x
    · exact (h.call (perform_done_frame hp) (perform_done_samePower hk hp)).setPc (i + 1)
    · rw [complete_of_not_host hl]
      exact (h.call (perform_done_frame hp) (perform_done_samePower hk hp)).answer .ok

theorem runs_sendFrame {op : Operation} (hl : op.layer ≠ .hostOperation) {s t : State} (h : Runs op s t) :
    SendFrame op s t := by
  have hbegun : SendFrame op s (s.begun op) := ⟨rfl, rfl, rfl, rfl, rfl, rfl, ⟨rfl, rfl, rfl⟩, .inr ⟨0, rfl⟩⟩
  rcases h with h | h | ⟨k, hk, h⟩
  · rw [begins_eq, execute] at h
    split at h <;> rename_i ha <;> cases h
    rw [accept_of_not_host hl ha]
    exact settle_keeps (P := SendFrame op s) (fun _ => SendFrame.advance hl) hbegun
  · rw [accept_of_not_host hl h]
    exact hbegun
  · obtain ⟨hpc, -⟩ | ⟨hpc, -⟩ | ⟨-, -, -, -, rfl⟩ := step_next_cases h
    · simp [hpc] at hk
    · simp [hpc] at hk
    · exact SendFrame.advance hl ⟨rfl, rfl, rfl, rfl, rfl, rfl, ⟨rfl, rfl, rfl⟩, .inr ⟨k, hk⟩⟩

/-- Settles O18: the frame of everything below the host operations, and the line that only SPI 4-wire has. -/
theorem commandFrame : Obligations.CommandFrame := by
  intro op s t hl h
  obtain ⟨hcfg, hsettings, hprepared, henabled, hfault, hrequests, hpower, -⟩ := runs_sendFrame hl h
  exact ⟨hcfg, hsettings, hprepared, henabled, hfault, hpower.railCore, hpower.railSecond, hpower.lineReset, hrequests,
    runs_lineDC_eq h⟩

end Sys2Proof.Machine
end

section
/-! The twelve initialisation commands (42_regdecode.md R151 to R162, R167): their bytes as numbers, and their sequence
as SENDs one after another. -/

namespace Sys2Proof

theorem comPinsByte_toNat (lrRemap seqPin : Bool) :
    (comPinsByte lrRemap seqPin).toNat = 2 + 16 * (1 - Spec.bit seqPin) + 32 * Spec.bit lrRemap := by
  cases lrRemap <;> cases seqPin <;> rfl

end Sys2Proof

namespace Sys2Proof.Machine

open Sys2Proof.Spec

theorem trunc8_toNat (v : Numeric) : (trunc8 v).toNat = v.toNat % 256 := BitVec.toNat_setWidth ..

theorem low7_toNat (v : Numeric) : (low7 v).toNat = v.toNat % 128 := BitVec.toNat_setWidth ..

theorem low4_toNat (v : Numeric) : (low4 v).toNat = v.toNat % 16 := BitVec.toNat_setWidth ..

/-- Height minus one wraps modulo 2^8 (R150, R151). -/
theorem pred_toNat_mod_256 (v : Numeric) : (v - 1#32).toNat % 256 = (v.toNat + 255) % 256 := by
  rw [BitVec.toNat_sub, BitVec.toNat_ofNat]
  omega

/-- The clock ratio minus one wraps modulo 2^4 (R150, R162). -/
theorem pred_toNat_mod_16 (v : Numeric) : (v - 1#32).toNat % 16 = (v.toNat + 15) % 16 := by
  rw [BitVec.toNat_sub, BitVec.toNat_ofNat]
  omega

/-- The bytes of the initialisation commands are the numbers of the rules. -/
theorem initCmds_numbers (opc : Opcodes) (x : Settings) :
    (initCmds x).map (fun i => (commandBytes opc i).map BitVec.toNat) = initNumbers opc x := by
  have hflag (f : Bool) (p q : Byte) : (if f = true then p else q).toNat = if f = true then p.toNat else q.toNat :=
    apply_ite BitVec.toNat ..
  have hnibbles (hi lo : BitVec 4) : (nibbles hi lo).toNat = lo.toNat + 16 * hi.toNat :=
    (nibbles_toNat hi lo).trans (Nat.add_comm ..)
  simp only [initCmds, initNumbers, List.map_cons, List.map_nil, commandBytes, commandOf, encode, Command.bytes,
    cmdMuxRatio, cmdDisplayOffset, cmdStartLine, cmdSegRemap, cmdComScan, cmdComPins, cmdContrast, cmdPrecharge,
    cmdVcomh, cmdEntireOn, cmdNormalInverse, cmdClock, hflag, hnibbles, startLineByte_toNat, comPinsByte_toNat,
    trunc8_toNat, low7_toNat, low4_toNat, pred_toNat_mod_256, pred_toNat_mod_16]

/-- The initialisation commands as the transport encoder takes them. -/
def initCommands (opc : Opcodes) (x : Settings) : List Command := (initCmds x).filterMap (commandOf opc)

theorem initCommands_bytes (opc : Opcodes) (x : Settings) :
    (initCommands opc x).map Command.bytes = initBytes opc x := by
  have hbytes : (initCommands opc x).map Command.bytes = (initCmds x).map (commandBytes opc) := rfl
  rw [hbytes, initBytes, ← initCmds_numbers, List.map_map]
  refine List.map_congr_left fun i _ => ?_
  simp [List.map_map, Function.comp_def]

theorem initSeq_eq_sends (cfg : Cfg) (x : Settings) :
    initSeq cfg x = (initCommands cfg.opc x).flatMap (send cfg.transport) := rfl

end Sys2Proof.Machine
end

section
/-! A sequence that stops at a failing place (60_exceptions.md R231), the SEND that stops, and SENDs one after
another. -/

namespace Sys2Proof.Machine

open Sys2Proof.Spec

variable {ε : Type}

/-! ## Runs that stop -/

theorem runSlots_answers {xs : List Slot} {s : State ε} {oks rest : List (Answer ε)} (ha : s.answers = oks ++ rest)
    (hl : oks.length = drawsOf xs) : (runSlots xs s).answers = rest := by
  induction xs generalizing s oks with
  | nil =>
    obtain rfl := List.length_eq_zero_iff.mp hl
    exact ha
  | cons sl xs ih =>
    rw [drawsOf_cons] at hl
    have hfirst : s.answers = oks.take sl.draws ++ (oks.drop sl.draws ++ rest) := by
      rw [← List.append_assoc, List.take_append_drop, ha]
    refine ih (Slot.run_answers hfirst ?_) ?_
    · rw [List.length_take]
      omega
    · rw [List.length_drop]
      omega

theorem Granted.setPc {sl : Slot} {s u : State ε} (h : Granted sl s u) (p : Pc) :
    Granted sl (s.setPc p) (u.setPc p) := by
  cases h with
  | noBuffer hal => exact .noBuffer hal
  | buffer a rest hal ha hr => exact .buffer a rest hal ha hr

theorem FailedCall.setPc {rd : Bool} {e : ε} {s t : State ε} {c : Call} {x : Response ε} (h : FailedCall rd e s c x t)
    (p : Pc) : FailedCall rd e (s.setPc p) c x (t.setPc p) := by
  cases h with
  | regEnable r => exact .regEnable r
  | regDisable r => exact .regDisable r
  | regDisableDeferred r d => exact .regDisableDeferred r d
  | xfer9 ws hrd => exact .xfer9 ws hrd
  | xfer8 bs hrd => exact .xfer8 bs hrd
  | xfer9Restored ws b rest hrd ha => exact .xfer9Restored ws b rest hrd ha
  | xfer8Restored bs b rest hrd ha => exact .xfer8Restored bs b rest hrd ha

/-- A place fails alike wherever the sequencer stands. -/
theorem perform_fails_setPc {sl : Slot} {s t : State ε} {x : Response ε} (h : perform sl s = .fails x t) (p : Pc) :
    perform sl (s.setPc p) = .fails x (t.setPc p) := by
  obtain ⟨hal, rfl, a, rest, e, ha, he, rfl⟩ | ⟨u, a, rest, e, hg, ha, he, hf⟩ := perform_fails h
  · obtain ⟨al, c, rd⟩ := sl
    cases hal
    exact perform_buffer_refused (s := s.setPc p) ha he
  · exact perform_of_failedCall (hg.setPc p) ha he (hf.setPc p)

/-- The places `xs`, run from `s`, stop with the error `x` in `t`: one of them fails, and those before it go well.
Unlike `settle_send_fails` this speaks of a part of a sequence, so that it can be asked of a SEND inside a longer one. -/
inductive Breaks (xs : List Slot) (s : State ε) (x : Response ε) (t : State ε) : Prop
  | place (front : List Slot) (sl : Slot) (more : List Slot) (oks as : List (Answer ε)) (hxs : xs = front ++ sl :: more)
      (ha : s.answers = oks ++ as) (hl : oks.length = drawsOf front) (hok : ∀ a ∈ oks, a.res = .ok)
      (hp : perform sl (runSlots front s) = .fails x t)

theorem Breaks.first {sl : Slot} {more : List Slot} {s t : State ε} {x : Response ε} (hp : perform sl s = .fails x t) :
    Breaks (sl :: more) s x t :=
  .place [] sl more [] s.answers rfl rfl rfl (by simp) hp

theorem Breaks.append {xs : List Slot} {s t : State ε} {x : Response ε} (h : Breaks xs s x t) (ys : List Slot) :
    Breaks (xs ++ ys) s x t := by
  obtain ⟨front, sl, more, oks, as, rfl, ha, hl, hok, hp⟩ := h
  exact .place front sl (more ++ ys) oks as (by simp) ha hl hok hp

/-- Places that go well may stand before. -/
theorem Breaks.after {pre xs : List Slot} {s t : State ε} {x : Response ε} {oks rest : List (Answer ε)}
    (ha : s.answers = oks ++ rest) (hl : oks.length = drawsOf pre) (hok : ∀ a ∈ oks, a.res = .ok)
    (h : Breaks xs (runSlots pre s) x t) : Breaks (pre ++ xs) s x t := by
  obtain ⟨front, sl, more, oks', as, rfl, ha', hl', hok', hp⟩ := h
  have hrest : rest = oks' ++ as := (runSlots_answers ha hl).symm.trans ha'
  refine .place (pre ++ front) sl more (oks ++ oks') as (by simp) (by simp [ha, hrest]) ?_ ?_ ?_
  · rw [List.length_append, drawsOf_append, hl, hl']
  · exact fun a hmem => (List.mem_append.mp hmem).elim (hok a) (hok' a)
  · rwa [runSlots_append]

theorem Breaks.frame {xs : List Slot} {s t : State ε} {x : Response ε} (h : Breaks xs s x t) : CallFrame s t := by
  obtain ⟨front, sl, more, oks, as, -, -, -, -, hp⟩ := h
  exact (runSlots_frame front s).trans (perform_fails_frame hp)

/-- An operation whose sequence stops ends with that error. -/
theorem Breaks.ends {op : Operation} {s t : State ε} {x : Response ε} (h : Breaks (s.slots op) s x t) :
    settle (s.begun op) = t.answer x := by
  obtain ⟨front, sl, more, oks, as, hs, ha, hl, hok, hp⟩ := h
  exact settle_fails (t := t.setPc (.busy op front.length)) hs ha hl hok (perform_fails_setPc hp _)

/-- The same in the words of `ended`. -/
theorem Breaks.ends_ended {op : Operation} {s t : State} {x : Response} {evs : List Event}
    (h : Breaks (s.slots op) s x t) (hev : t.events = s.events ++ evs) :
    ∃ stamped, stamped.map Stamped.ev = evs ∧
      settle (s.begun op) = ended
        { s with railCore := t.railCore, railSecond := t.railSecond, lineReset := t.lineReset, lineDC := t.lineDC }
        stamped t.now t.answers x := by
  obtain ⟨hcfg, hsettings, hprepared, henabled, hfault, -, hrequests, hresponses, ⟨stamped, htrace⟩, -⟩ := h.frame
  refine ⟨stamped, ?_, ?_⟩
  · simpa [State.events, ← htrace] using hev
  · rw [h.ends]
    cases t
    simp_all [State.answer, ended]

/-! ## A SEND that stops -/

/-- The environment's answers, split where a run stands. -/
theorem FailsAfter.split {s : State} {n m : Nat} {e : ErrVal} {restores : Nat} {rest : List Answer}
    (h : FailsAfter s (n + m) e restores rest) :
    ∃ oks as, s.answers = oks ++ as ∧ oks.length = n ∧ (∀ a ∈ oks, a.res = .ok) ∧
      ∀ v : State, v.answers = as → FailsAfter v m e restores rest := by
  obtain ⟨a, back, he, hback, oks, ha, hl, hok⟩ := h
  refine ⟨oks.take n, oks.drop n ++ (a :: back ++ rest), ?_, ?_, ?_, fun v hv => ?_⟩
  · rw [ha, ← List.append_assoc (oks.take n), List.take_append_drop]
  · rw [List.length_take]
    omega
  · exact fun b hb => hok b (List.mem_of_mem_take hb)
  · refine ⟨a, back, he, hback, oks.drop n, hv, ?_, fun b hb => hok b (List.mem_of_mem_drop hb)⟩
    rw [List.length_drop]
    omega

/-- What a SEND whose transfer fails with `e` has changed when it stops (R112, R115). -/
structure TransferFailed (bytes : List Byte) (e : ErrVal) (rest : List Answer) (s t : State) : Prop where
  events : t.events = s.events ++ failedEvents s.cfg.transport bytes e
  lineDC : t.lineDC = dcAtRest s
  answers : t.answers = rest
  power : SamePower s t

/-- A SEND that is one transfer, whose transfer fails. -/
theorem one_transfer_breaks {call : Call} {ev : Event} {s : State} {g a : Answer} {rest : List Answer} {e : ErrVal}
    (ha : s.answers = g :: a :: rest) (hg : g.res = .ok) (he : a.res = .err e)
    (hcall : ∀ u : State, FailedCall false e u call (.eBus e) (u.log ev)) :
    Breaks [⟨true, call, false⟩] s (.eBus e) (((s.consume g).consume a).log ev) :=
  have hans : (s.consume g).answers = a :: rest := by rw [State.consume_answers, ha, List.tail_cons]
  .first (perform_of_failedCall (.buffer g (a :: rest) rfl ha hg) hans he (hcall _))

theorem send_breaks_at_transfer {c : Command} {s : State} {e : ErrVal} {rest : List Answer}
    (h : FailsAfter s (drawsBeforeTransfer s.cfg.transport) e (drawsAfterFailure s.cfg.transport) rest) :
    ∃ t, Breaks (send s.cfg.transport c) s (.eBus e) t ∧ TransferFailed c.bytes e rest s t := by
  obtain ⟨a, back, he, hback, oks, ha, hl, hok⟩ := h
  cases ht : s.cfg.transport <;> rw [ht] at hback hl
  case spi3 =>
    obtain rfl := List.length_eq_zero_iff.mp hback
    obtain ⟨g, rfl⟩ := List.length_eq_one_iff.mp hl
    refine ⟨_, one_transfer_breaks ha (hok g (by simp)) he fun u => .xfer9 _ rfl, ?_, ?_, ?_, ⟨rfl, rfl, rfl⟩⟩
    · rw [State.events_log, ht, failedEvents, ← map_tagWord]
      rfl
    · simp [dcAtRest, ht]
    · simp [ha]
  case i2c =>
    obtain rfl := List.length_eq_zero_iff.mp hback
    obtain ⟨g, rfl⟩ := List.length_eq_one_iff.mp hl
    refine ⟨_, one_transfer_breaks ha (hok g (by simp)) he fun u => .xfer8 _ rfl, ?_, ?_, ?_, ⟨rfl, rfl, rfl⟩⟩
    · rw [State.events_log, ht]
      rfl
    · simp [dcAtRest, ht]
    · simp [ha]
  case spi4 =>
    obtain ⟨b, rfl⟩ := List.length_eq_one_iff.mp hback
    obtain ⟨g, l, rfl⟩ := List.length_eq_two.mp hl
    have hans : (runSlots [⟨true, .gpioSet .dc false, false⟩] s).answers = a :: b :: rest :=
      runSlots_answers (oks := [g, l]) ha rfl
    have hev := runSlots_events [⟨true, .gpioSet .dc false, false⟩] s
    have hpower := runSlots_samePower (sls := [⟨true, .gpioSet .dc false, false⟩])
      (by simp [KeepPower, Call.keepsPower]) s
    have hp := perform_of_failedCall (sl := ⟨false, .xfer8 c.bytes, true⟩) (.noBuffer rfl) hans he
      (.xfer8Restored c.bytes b rest rfl (by rw [State.consume_answers, hans, List.tail_cons]))
    refine ⟨_, .place _ _ _ [g, l] _ rfl ha rfl hok hp, ?_, ?_, ?_, hpower.trans (perform_fails_samePower hp)⟩
    · simp only [State.events_log, State.events_setLine, State.events_consume, hev, List.append_assoc, ht]
      rfl
    · simp [dcAtRest, ht]
    · simp only [State.log_answers, State.setLine_answers, State.consume_answers, hans, List.tail_cons]

/-- A SEND whose buffer is refused stops before any output (R114). -/
theorem send_breaks_at_buffer {t : Transport} {c : Command} {s : State ε} {a : Answer ε} {rest : List (Answer ε)}
    {e : ε} (ha : s.answers = a :: rest) (he : a.res = .err e) : Breaks (send t c) s .eNomem (s.consume a) := by
  cases t <;> exact .first (perform_buffer_refused ha he)

/-! ## SENDs one after another -/

theorem SendClosed.sends {P : List Slot → Prop} (h : SendClosed P) (t : Transport) (cs : List Command) :
    P (cs.flatMap (Machine.send t)) := by
  induction cs with
  | nil => exact h.nil
  | cons c cs ih => exact h.append (h.send t c) ih

theorem drawsOf_send (t : Transport) (c : Command) : drawsOf (send t c) = sendDraws t := by
  cases t <;> rfl

theorem drawsOf_sends (t : Transport) (cs : List Command) :
    drawsOf (cs.flatMap (send t)) = cs.length * sendDraws t := by
  induction cs with
  | nil => simp
  | cons c cs ih =>
    rw [List.flatMap_cons, drawsOf_append, drawsOf_send, ih, List.length_cons, Nat.succ_mul, Nat.add_comm]

theorem sends_okEvents (t : Transport) (cs : List Command) :
    (cs.flatMap (send t)).map (fun sl => (sl.call.okEvent : Event)) = sendAll t (cs.map Command.bytes) := by
  simp only [sendAll, List.map_flatMap, List.flatMap_map, send_okEvents]

/-- The level of rest is that of `s` as long as the line has been left alone or brought to rest. -/
theorem dcAtRest_of_lineDC {s v : State} (hc : v.cfg = s.cfg) (hdc : v.lineDC = s.lineDC ∨ v.lineDC = dcAtRest s) :
    dcAtRest v = dcAtRest s := by
  unfold dcAtRest at hdc ⊢
  rw [hc]
  cases ht : s.cfg.transport <;> simp_all

theorem runSlots_sends_lineDC (cs : List Command) (s : State) :
    (runSlots (cs.flatMap (send s.cfg.transport)) s).lineDC = if cs = [] then s.lineDC else dcAtRest s := by
  induction cs generalizing s with
  | nil => rfl
  | cons c cs ih =>
    have hc : (runSlots (send s.cfg.transport c) s).cfg = s.cfg := (runSlots_frame _ s).cfg
    have hdc := runSlots_send_lineDC c s
    have hrest := ih (runSlots (send s.cfg.transport c) s)
    rw [hc, hdc, dcAtRest_of_lineDC hc (.inr hdc), ite_self] at hrest
    rw [List.flatMap_cons, runSlots_append, hrest, if_neg (List.cons_ne_nil c cs)]

end Sys2Proof.Machine
end

section
/-! `prepare` up to one of its initialisation commands, and where it stops there (43_protocol.md R181, 44_lifecycle.md
R206). -/

namespace Sys2Proof.Machine

open Sys2Proof.Spec

/-! ## Power on, then commands -/

theorem powerOn_okEvents (cfg : Cfg) :
    (powerOn cfg).map (fun sl => (sl.call.okEvent : Event)) = powerOnEvents cfg := by
  have hsecond : vsecond cfg = secondSupply cfg := by
    unfold vsecond secondSupply
    cases cfg.useChargePump <;> rfl
  cases hr : cfg.hasReset with
  | true => simp [powerOn_of_hasReset hr, powerOnEvents, pulseEvents, hr, plain, Call.okEvent, resetPulseWidth, hsecond]
  | false => simp [powerOn_of_no_reset hr, powerOnEvents, pulseEvents, hr, plain, Call.okEvent, hsecond]

theorem drawsOf_powerOn (cfg : Cfg) : drawsOf (powerOn cfg) = powerOnCalls cfg := by
  unfold powerOnCalls
  cases hr : cfg.hasReset with
  | true => simp [powerOn_of_hasReset hr, plain, Slot.draws]
  | false => simp [powerOn_of_no_reset hr, plain, Slot.draws]

/-- A successful `power_on` (R132, R135): both supplies on, the reset line at rest. -/
theorem runSlots_powerOn (s : State) :
    (runSlots (powerOn s.cfg) s).railCore = .on ∧ (runSlots (powerOn s.cfg) s).railSecond = .on ∧
      (runSlots (powerOn s.cfg) s).lineReset = resetAfterPulse s ∧
      (runSlots (powerOn s.cfg) s).lineDC = s.lineDC := by
  have hcfg (u : State) : u.draw.cfg = u.cfg := u.draw_frame.cfg
  have hcore (u : State) : u.draw.railCore = u.railCore := u.draw_samePower.railCore
  have hreset (u : State) : u.draw.lineReset = u.lineReset := u.draw_samePower.lineReset
  unfold resetAfterPulse
  cases hr : s.cfg.hasReset with
  | true =>
    simp [powerOn_of_hasReset hr, plain, Slot.run, Call.okEffect, State.draw_lineDC, hcfg, hcore, hreset]
  | false =>
    simp [powerOn_of_no_reset hr, plain, Slot.run, Call.okEffect, State.draw_lineDC, hcfg, hcore, hreset]

/-- The sequence of `prepare` with these commands: power on, then send them. -/
def prepareSlots (cfg : Cfg) (cs : List Command) : List Slot := powerOn cfg ++ cs.flatMap (send cfg.transport)

theorem prepare_slots (s : State) :
    s.slots (.instr .prepare) = prepareSlots s.cfg (initCommands s.cfg.opc s.settings) :=
  congrArg (powerOn s.cfg ++ ·) (initSeq_eq_sends s.cfg s.settings)

theorem prepareSlots_append (cfg : Cfg) (cs ds : List Command) :
    prepareSlots cfg (cs ++ ds) = prepareSlots cfg cs ++ ds.flatMap (send cfg.transport) := by
  simp [prepareSlots]

theorem drawsOf_prepareSlots (cfg : Cfg) (cs : List Command) :
    drawsOf (prepareSlots cfg cs) = powerOnCalls cfg + cs.length * sendDraws cfg.transport := by
  rw [prepareSlots, drawsOf_append, drawsOf_powerOn, drawsOf_sends]

theorem prepareSlots_okEvents (cfg : Cfg) (cs : List Command) :
    (prepareSlots cfg cs).map (fun sl => (sl.call.okEvent : Event)) =
      powerOnEvents cfg ++ sendAll cfg.transport (cs.map Command.bytes) := by
  rw [prepareSlots, List.map_append, powerOn_okEvents, sends_okEvents]

/-- What the calls of `prepare` have changed once power is on and these commands are sent. -/
structure PreparedWith (cs : List Command) (s v : State) : Prop where
  cfg : v.cfg = s.cfg
  railCore : v.railCore = .on
  railSecond : v.railSecond = .on
  lineReset : v.lineReset = resetAfterPulse s
  lineDC : v.lineDC = if cs = [] then s.lineDC else dcAtRest s
  events : v.events = s.events ++ (powerOnEvents s.cfg ++ sendAll s.cfg.transport (cs.map Command.bytes))

theorem runSlots_prepareSlots (cs : List Command) (s : State) :
    PreparedWith cs s (runSlots (prepareSlots s.cfg cs) s) := by
  have hevents := runSlots_events (prepareSlots s.cfg cs) s
  have hc : (runSlots (powerOn s.cfg) s).cfg = s.cfg := (runSlots_frame _ s).cfg
  obtain ⟨hcore, hsecond, hreset, hdc⟩ := runSlots_powerOn s
  have hpower := runSlots_samePower (keepPower_sendClosed.sends s.cfg.transport cs) (runSlots (powerOn s.cfg) s)
  have hline := runSlots_sends_lineDC cs (runSlots (powerOn s.cfg) s)
  rw [hc, hdc, dcAtRest_of_lineDC hc (.inl hdc)] at hline
  rw [prepareSlots_okEvents] at hevents
  have hrun : runSlots (prepareSlots s.cfg cs) s =
      runSlots (cs.flatMap (send s.cfg.transport)) (runSlots (powerOn s.cfg) s) := runSlots_append ..
  rw [hrun] at hevents ⊢
  exact ⟨(runSlots_frame _ _).cfg.trans hc, hpower.railCore.trans hcore, hpower.railSecond.trans hsecond,
    hpower.lineReset.trans hreset, hline, hevents⟩

/-! ## Where `prepare` stops -/

/-- Before its `k`-th command `prepare` has sent those before it, the answers for them are used up, and where the SEND
of the `k`-th stops it stops too. -/
theorem prepare_before_command {s : State} {k m : Nat} {c : Command} {e : ErrVal} {restores : Nat} {rest : List Answer}
    (hk : (initCommands s.cfg.opc s.settings)[k]? = some c)
    (h : FailsAfter s (powerOnCalls s.cfg + k * sendDraws s.cfg.transport + m) e restores rest) :
    ∃ v, PreparedWith ((initCommands s.cfg.opc s.settings).take k) s v ∧ FailsAfter v m e restores rest ∧
      ∀ x t, Breaks (send s.cfg.transport c) v x t → Breaks (s.slots (.instr .prepare)) s x t := by
  obtain ⟨hlt, hget⟩ := List.getElem?_eq_some_iff.mp hk
  obtain ⟨oks, as, ha, hl, hok, hrest⟩ := FailsAfter.split h
  have hdraws : oks.length = drawsOf (prepareSlots s.cfg ((initCommands s.cfg.opc s.settings).take k)) := by
    rw [drawsOf_prepareSlots, List.length_take_of_le hlt.le, hl]
  refine ⟨_, runSlots_prepareSlots _ s, hrest _ (runSlots_answers ha hdraws), fun x t hbreaks => ?_⟩
  have hsplit : initCommands s.cfg.opc s.settings = (initCommands s.cfg.opc s.settings).take k ++
      c :: (initCommands s.cfg.opc s.settings).drop (k + 1) := by
    rw [← hget, List.getElem_cons_drop, List.take_append_drop]
  rw [prepare_slots, hsplit, prepareSlots_append, List.flatMap_cons]
  exact Breaks.after ha hdraws hok (hbreaks.append _)

theorem exec_prepare {s : State} (hpc : s.pc = .idle) (hp : s.prepared = false) (he : s.enabled = false) :
    exec .prepare s = .next (settle (s.begun (.instr .prepare))) :=
  exec_admitted hpc (by simp [admitted, admittedInstr, admitsPrepare, hp, he])

/-- How `prepare` ends where it stops in `t`, after the state `v` in which these commands are sent. -/
theorem prepare_ends {cs : List Command} {s v t : State} {x : Response} {evs : List Event} (hv : PreparedWith cs s v)
    (h : Breaks (s.slots (.instr .prepare)) s x t) (hpower : SamePower v t) (hev : t.events = v.events ++ evs) :
    ∃ stamped, stamped.map Stamped.ev =
        powerOnEvents s.cfg ++ sendAll s.cfg.transport (cs.map Command.bytes) ++ evs ∧
      settle (s.begun (.instr .prepare)) = ended
        { s with railCore := .on, railSecond := .on, lineReset := resetAfterPulse s, lineDC := t.lineDC }
        stamped t.now t.answers x := by
  rw [hv.events, List.append_assoc] at hev
  obtain ⟨stamped, hstamped, hended⟩ := h.ends_ended hev
  rw [hpower.railCore.trans hv.railCore, hpower.railSecond.trans hv.railSecond,
    hpower.lineReset.trans hv.lineReset] at hended
  exact ⟨stamped, hstamped, hended⟩

/-- Settles O21: the commands before the `k`-th are sent, and `prepare` stops where the SEND of the `k`-th stops
(`prepare_before_command`), at its transfer or at its buffer. -/
theorem initStopsAtFirstFailure : Obligations.InitStopsAtFirstFailure := by
  intro s k bad e rest hpc hprepared henabled hbad
  rw [← initCommands_bytes, List.getElem?_map, Option.map_eq_some_iff] at hbad
  obtain ⟨c, hk, rfl⟩ := hbad
  rw [exec_prepare hpc hprepared henabled, ← initCommands_bytes, ← List.map_take]
  refine ⟨fun h => ?_, fun h => ?_⟩
  · obtain ⟨v, hv, hfails, hstop⟩ := prepare_before_command hk h
    rw [← hv.cfg] at hfails hstop
    obtain ⟨t, hbreaks, ht⟩ := send_breaks_at_transfer hfails
    obtain ⟨stamped, hstamped, hended⟩ := prepare_ends hv (hstop _ _ hbreaks) ht.power ht.events
    have hline : t.lineDC = dcAtRest s := by
      refine ht.lineDC.trans (dcAtRest_of_lineDC hv.cfg ?_)
      rw [hv.lineDC]
      split
      · exact .inl rfl
      · exact .inr rfl
    rw [hline, ht.answers] at hended
    exact ⟨stamped, t.now, hv.cfg ▸ hstamped, congrArg _ hended⟩
  · obtain ⟨v, hv, hfails, hstop⟩ := prepare_before_command (m := 0) hk h
    obtain ⟨a, back, he, hback, oks, ha, hl, -⟩ := hfails
    obtain rfl := List.length_eq_zero_iff.mp hback
    obtain rfl := List.length_eq_zero_iff.mp hl
    obtain ⟨stamped, hstamped, hended⟩ := prepare_ends (t := v.consume a) (evs := []) hv
      (hstop _ _ (send_breaks_at_buffer ha he)) ⟨rfl, rfl, rfl⟩ (by simp)
    have htake : (initCommands s.cfg.opc s.settings).take k = [] ↔ k = 0 := by
      simp [List.take_eq_nil_iff, List.ne_nil_of_mem (List.mem_of_getElem? hk)]
    rw [List.append_nil] at hstamped
    simp only [State.consume_lineDC, hv.lineDC, htake] at hended
    rw [State.consume_answers, ha] at hended
    exact ⟨stamped, _, hstamped, congrArg _ hended⟩

end Sys2Proof.Machine
end

section
/-! How far an operation can come, whatever the environment answers (10_state.md R31, 60_exceptions.md R231): the states
from its admission on, place by place. -/

namespace Sys2Proof.Machine

variable {ε : Type}

/-- A place that is done has drawn its answers and has its effect. -/
theorem perform_done_run {sl : Slot} {s t : State ε} (h : perform sl s = .done t) : t = sl.run s := by
  obtain ⟨u, a, rest, hg, ha, -, rfl⟩ := perform_done h
  unfold Slot.run
  cases hg with
  | noBuffer hal => simp [hal, State.draw_cons ha]
  | buffer g rest' hal hans hgr => simp [hal, State.draw_cons hans, State.draw_cons ha]

theorem perform_done_runSlots {front : List Slot} {sl : Slot} {s t : State ε} {p : Pc}
    (h : perform sl ((runSlots front s).setPc p) = .done t) : t = (runSlots (front ++ [sl]) s).setPc p := by
  rw [perform_done_run h, Slot.run_setPc, runSlots_append, runSlots_cons, runSlots_nil]

/-- A place outside SEND whose call has no result cannot fail. -/
theorem perform_plain_ne_fails {c : Call} (hc : c.canFail = false) (s : State) (x : Response) (t : State) :
    perform (plain c) s ≠ .fails x t := by
  intro h
  obtain ⟨hal, -⟩ | ⟨e, hfail, -⟩ := perform_fails_events h
  · cases hal
  · rw [plain, hc] at hfail
    cases hfail

/-- The states an operation begun in `s` comes to: it stands before a place, those in front of it having gone well; or
the place has failed and the operation has ended; or all have gone well and it is completed. -/
inductive Reached (op : Operation) (s : State ε) : State ε → Prop
  | stands (front more : List Slot) (hs : s.slots op = front ++ more) (hlt : front.length < s.steps op) :
      Reached op s ((runSlots front s).setPc (.busy op front.length))
  | failed (front : List Slot) (sl : Slot) (more : List Slot) (x : Response ε) (t : State ε)
      (hs : s.slots op = front ++ sl :: more)
      (hp : perform sl ((runSlots front s).setPc (.busy op front.length)) = .fails x t) : Reached op s (t.answer x)
  | completed : Reached op s (complete op (runSlots (s.slots op) s))

theorem reached_begun (op : Operation) (s : State ε) : Reached op s (s.begun op) :=
  .stands [] (s.slots op) rfl (zero_lt_steps op s)

theorem Reached.advance {op : Operation} {s u : State ε} (h : Reached op s u) : Reached op s (advance u) := by
  cases h with
  | failed front sl more x t hs hp =>
    rw [advance_idle rfl]
    exact .failed front sl more x t hs hp
  | completed =>
    rw [advance_idle (complete_pc op _)]
    exact .completed
  | stands front more hs hlt =>
    have hframe := runSlots_frame front s
    have hslots : ((runSlots front s).setPc (.busy op front.length)).slots op = s.slots op :=
      slots_congr hframe.cfg hframe.settings op
    obtain h | ⟨op', hpc, hnil, h⟩ | ⟨op', i, sl, hpc, hsl, hcases⟩ :=
      advance_cases ((runSlots front s).setPc (.busy op front.length))
    · rw [h]
      exact .stands front more hs hlt
    · obtain ⟨rfl, -⟩ := Pc.busy.inj hpc
      rw [hslots] at hnil
      obtain ⟨rfl, -⟩ := List.append_eq_nil_iff.mp (hs.symm.trans hnil)
      rw [h, complete_setPc, ← hnil]
      exact .completed
    · obtain ⟨rfl, rfl⟩ := Pc.busy.inj hpc
      rw [hslots] at hsl hcases
      obtain ⟨more, rfl⟩ : ∃ rest, more = sl :: rest := by
        rw [hs, List.getElem?_append_right le_rfl, Nat.sub_self, ← List.head?_eq_getElem?] at hsl
        exact List.head?_eq_some_iff.mp hsl
      have hnext : s.slots op = (front ++ [sl]) ++ more := by simp [hs]
      obtain ⟨x, t, hp, h⟩ | ⟨t, hp, hlt', h⟩ | ⟨t, hp, hlast, h⟩ := hcases <;> rw [h]
      · exact .failed front sl more x t hs hp
      · rw [perform_done_runSlots hp, State.setPc_setPc]
        have hlen : (front ++ [sl]).length = front.length + 1 := by simp
        rw [← hlen]
        exact .stands _ more hnext (by rw [hlen]; exact hlt'.trans_le (Nat.le_max_right _ _))
      · obtain rfl : more = [] := by
          rw [hs] at hlast
          simpa using hlast
        rw [perform_done_runSlots hp, complete_setPc, ← List.append_nil (front ++ [sl]), ← hnext]
        exact .completed

/-- Whatever the environment answers, an admitted operation comes to one of these states. -/
theorem reached_settle (op : Operation) (s : State ε) : Reached op s (settle (s.begun op)) :=
  settle_keeps (fun _ h => h.advance) (reached_begun op s)

/-- A place that is done leaves its event on the trace, stamped with the present time. -/
theorem Slot.run_trace (sl : Slot) (s : State ε) :
    (sl.run s).trace = s.trace ++ [⟨(sl.run s).now, sl.call.okEvent⟩] := by
  have hdraw (u : State ε) : u.draw.trace = u.trace := by
    unfold State.draw
    split <;> rfl
  have heffect (u : State ε) :
      (sl.call.okEffect u).trace = u.trace ++ [⟨(sl.call.okEffect u).now, sl.call.okEvent⟩] := by
    cases sl.call <;> rfl
  rw [Slot.run, heffect]
  split <;> simp only [hdraw]

/-- It takes at least the time its event asks for. -/
theorem Slot.run_now (sl : Slot) (s : State ε) :
    s.now + leastGap (sl.call.okEvent : Event ε) ≤ (sl.run s).now := by
  have heffect (u : State ε) : u.now + leastGap (sl.call.okEvent : Event ε) = (sl.call.okEffect u).now := by
    cases sl.call <;> rfl
  rw [Slot.run, ← heffect]
  refine Nat.add_le_add_right ?_ _
  split
  · exact (s.draw_frame.trans (State.draw_frame _)).now
  · exact s.draw_frame.now

theorem runSlots_trace_prefix {pre xs : List Slot} (h : pre <+: xs) (s : State ε) :
    (runSlots pre s).trace <+: (runSlots xs s).trace := by
  obtain ⟨post, rfl⟩ := h
  rw [runSlots_append]
  exact (runSlots_frame post _).trace

theorem runSlots_trace_length (xs : List Slot) (s : State ε) :
    (runSlots xs s).trace.length = s.trace.length + xs.length := by
  induction xs generalizing s with
  | nil => rfl
  | cons sl xs ih =>
    rw [runSlots_cons, ih, Slot.run_trace, List.length_append, List.length_cons, List.length_cons, List.length_nil]
    omega

end Sys2Proof.Machine
end

section
/-! The power sequences (41_power.md R132 to R138): how `prepare` and `unprepare` end when all is answered and when a
regulator call fails, and how long the reset pulse and the core-logic hold are. -/

namespace Sys2Proof.Machine

open Sys2Proof.Spec

variable {ε : Type}

/-! ## Regulator calls that fail, and a last call whatever it is answered -/

/-- A regulator call that fails after places that went well ends the operation (R134, R138). -/
theorem settle_regulator_fails {op : Operation} {pre post : List Slot} {c : Call} {ev : Event} {s : State} {e : ErrVal}
    {a : Answer} {oks rest : List Answer} (hs : s.slots op = pre ++ plain c :: post)
    (ha : s.answers = oks ++ a :: rest) (hl : oks.length = drawsOf pre) (hok : ∀ b ∈ oks, b.res = .ok)
    (he : a.res = .err e) (hcall : ∀ u : State, FailedCall false e u c (.eReg e) (u.log ev)) :
    ∃ stamped n, stamped.map Stamped.ev = (pre.map fun sl => sl.call.okEvent) ++ [ev] ∧
      settle (s.begun op) = ended
        { s with railCore := (runSlots pre s).railCore, railSecond := (runSlots pre s).railSecond,
                 lineReset := (runSlots pre s).lineReset, lineDC := (runSlots pre s).lineDC }
        stamped n rest (.eReg e) := by
  have hans : (runSlots pre s).answers = a :: rest := runSlots_answers ha hl
  have hbreaks : Breaks (s.slots op) s (.eReg e) (((runSlots pre s).consume a).log ev) := by
    rw [hs]
    exact .after ha hl hok (.first (perform_of_failedCall (.noBuffer rfl) hans he (hcall _)))
  obtain ⟨stamped, hstamped, hended⟩ :=
    hbreaks.ends_ended (evs := (pre.map fun sl => sl.call.okEvent) ++ [ev]) (by simp [runSlots_events])
  rw [State.log_answers, State.consume_answers, hans, List.tail_cons] at hended
  exact ⟨stamped, _, hstamped, hended⟩

theorem drive_add (m n : Nat) (s : State ε) : drive (m + n) s = drive n (drive m s) := by
  induction m generalizing s with
  | zero => rw [Nat.zero_add, drive_zero]
  | succ m ih => rw [Nat.succ_add, drive_succ, drive_succ, ih]

/-- An operation whose last place is done, all before it having gone well, is completed. Unlike `settle_ok` this asks
nothing of the answer that a last call without a result is given. -/
theorem settle_last_done {op : Operation} {sls : List Slot} {sl : Slot} {s t : State ε} {oks rest : List (Answer ε)}
    (hs : s.slots op = sls ++ [sl]) (ha : s.answers = oks ++ rest) (hl : oks.length = drawsOf sls)
    (hok : ∀ a ∈ oks, a.res = .ok) (hp : perform sl ((runSlots sls s).setPc (.busy op sls.length)) = .done t) :
    settle (s.begun op) = complete op t := by
  obtain ⟨hdrive, -⟩ := drive_through (s := s.begun op) (State.begun_pc op s) hs (List.cons_ne_nil sl []) ha hl hok
  rw [State.begun, runSlots_setPc, State.setPc_setPc, Nat.zero_add] at hdrive
  have hframe := runSlots_frame sls s
  have hslots : ((runSlots sls s).setPc (.busy op sls.length)).slots op = sls ++ [sl] :=
    (slots_congr hframe.cfg hframe.settings op).trans hs
  have hsteps : s.steps op = sls.length + 1 := by simp [State.steps, hs]
  rw [settle_begun, hsteps, drive_add, State.begun, hdrive, drive_succ, drive_zero,
    advance_done rfl (by rw [hslots, List.getElem?_concat_length]) hp, afterCall, if_neg (by simp [hslots])]

/-! ## The supplies -/

theorem vsecond_eq_secondSupply (cfg : Cfg) : vsecond cfg = secondSupply cfg := by
  unfold vsecond secondSupply
  cases cfg.useChargePump <;> rfl

theorem vsecond_ne_vcore (cfg : Cfg) : vsecond cfg ≠ .vcore := by
  unfold vsecond
  split <;> simp

/-- The part of `power_on` before the second supply: core logic, and the reset pulse if there is a line (R132). -/
def coreOn (cfg : Cfg) : List Slot := plain (.regEnable .vcore) :: if cfg.hasReset then resetPulse else []

theorem powerOn_eq_coreOn (cfg : Cfg) : powerOn cfg = coreOn cfg ++ [plain (.regEnable (vsecond cfg))] := rfl

theorem prepare_slots_coreOn (s : State ε) :
    s.slots (.instr .prepare) = coreOn s.cfg ++ plain (.regEnable (vsecond s.cfg)) :: initSeq s.cfg s.settings := by
  simp [State.slots, sequenceOf, useq, powerOn_eq_coreOn]

theorem coreOn_okEvents (cfg : Cfg) :
    ((coreOn cfg).map fun sl => (sl.call.okEvent : Event)) = .regEn .vcore .ok :: pulseEvents cfg := by
  have h := powerOn_okEvents cfg
  rw [powerOn_eq_coreOn, List.map_append] at h
  exact List.append_inj_left' h rfl

theorem drawsOf_coreOn (cfg : Cfg) : drawsOf (coreOn cfg) = powerOnCalls cfg - 1 := by
  rw [← drawsOf_powerOn, powerOn_eq_coreOn, drawsOf_append]
  rfl

/-- Before the second supply is switched the core logic is on and the reset line at rest (R133). -/
theorem runSlots_coreOn (s : State) :
    (runSlots (coreOn s.cfg) s).railCore = .on ∧ (runSlots (coreOn s.cfg) s).railSecond = s.railSecond ∧
      (runSlots (coreOn s.cfg) s).lineReset = resetAfterPulse s ∧
      (runSlots (coreOn s.cfg) s).lineDC = s.lineDC := by
  have hcfg (u : State) : u.draw.cfg = u.cfg := u.draw_frame.cfg
  have hcore (u : State) : u.draw.railCore = u.railCore := u.draw_samePower.railCore
  have hsecond (u : State) : u.draw.railSecond = u.railSecond := u.draw_samePower.railSecond
  have hreset (u : State) : u.draw.lineReset = u.lineReset := u.draw_samePower.lineReset
  have hne := (vsecond_ne_vcore s.cfg).symm
  unfold resetAfterPulse
  cases hr : s.cfg.hasReset with
  | true =>
    simp [coreOn, resetPulse, hr, plain, Slot.run, Call.okEffect, State.draw_lineDC, hcfg, hcore, hsecond, hne]
  | false =>
    simp [coreOn, hr, plain, Slot.run, Call.okEffect, State.draw_lineDC, hcfg, hsecond, hreset, hne]

/-! ## `prepare` -/

/-- Settles O19: the run of `prepareSlots` with all twelve commands, and the flag. -/
theorem prepareCompletes : Obligations.PrepareCompletes := by
  intro s rest hpc hprepared henabled ⟨oks, ha, hl, hok⟩
  have hlen : (initCommands s.cfg.opc s.settings).length = 12 := rfl
  have hne : initCommands s.cfg.opc s.settings ≠ [] := List.cons_ne_nil _ _
  have hdraws : oks.length = drawsOf (s.slots (.instr .prepare)) := by
    rw [prepare_slots, drawsOf_prepareSlots, hlen, hl]
  obtain ⟨hsettle, hrest⟩ := settle_ok ha hdraws hok
  have hframe := runSlots_frame (s.slots (.instr .prepare)) s
  have hv := runSlots_prepareSlots (initCommands s.cfg.opc s.settings) s
  rw [← prepare_slots] at hv
  obtain ⟨stamped, hstamped, hended⟩ := answer_eq_ended (p := s.pc)
    (s := { s with prepared := true, railCore := .on, railSecond := .on, lineReset := resetAfterPulse s })
    (t := (runSlots (s.slots (.instr .prepare)) s).setPrepared true)
    ⟨hframe.cfg, hframe.settings, rfl, hframe.enabled, hframe.fault, hframe.pc, hframe.requests, hframe.responses,
      hframe.trace, hframe.now⟩
    ⟨hv.railCore, hv.railSecond, hv.lineReset⟩ hv.events .ok
  rw [State.setPrepared_lineDC, State.setPrepared_answers, hv.lineDC, if_neg hne, hrest] at hended
  rw [initCommands_bytes] at hstamped
  exact ⟨stamped, _, hstamped, by rw [exec_prepare hpc hprepared henabled, hsettle]; exact congrArg _ hended⟩

/-- Settles O20: the first enable fails at once, the second after `coreOn`. -/
theorem powerOnFailures : Obligations.PowerOnFailures := by
  intro s hpc hprepared henabled
  rw [exec_prepare hpc hprepared henabled]
  refine ⟨fun a rest e ha he => ?_, fun a rest e ⟨oks, ha, hl, hok⟩ he => ?_⟩
  · have hbreaks : Breaks (s.slots (.instr .prepare)) s (.eReg e) ((s.consume a).log (.regEn .vcore (.err e))) :=
      .first (perform_of_failedCall (.noBuffer rfl) ha he (.regEnable .vcore))
    rw [hbreaks.ends]
    simp [State.answer, State.log, State.consume, ended, ha]
  · obtain ⟨stamped, n, hstamped, hended⟩ := settle_regulator_fails (prepare_slots_coreOn s) ha
      (hl.trans (drawsOf_coreOn s.cfg).symm) hok he fun _ => .regEnable _
    obtain ⟨hcore, hsecond, hreset, hdc⟩ := runSlots_coreOn s
    rw [hcore, hsecond, hreset, hdc] at hended
    rw [coreOn_okEvents, vsecond_eq_secondSupply] at hstamped
    exact ⟨stamped, n, hstamped, congrArg _ hended⟩

/-! ## `unprepare` -/

theorem exec_unprepare {s : State} (hpc : s.pc = .idle) (hp : s.prepared = true) (he : s.enabled = false) :
    exec .unprepare s = .next (settle (s.begun (.instr .unprepare))) :=
  exec_admitted hpc (by simp [admitted, admittedInstr, admitsUnprepare, hp, he])

theorem unprepare_slots (s : State ε) :
    s.slots (.instr .unprepare) = [plain (.regDisable (vsecond s.cfg)),
      plain (.regDisableDeferred .vcore coreHoldTime), plain (.delayThenOff coreHoldTime .vcore)] := rfl

/-- Settles O26: two requests accepted, then the wait, which cannot fail. -/
theorem unprepareCompletes : Obligations.UnprepareCompletes := by
  intro s a b c rest hpc hprepared henabled ha hra hrb
  have hok : ∀ x ∈ [a, b], x.res = .ok := by simp [hra, hrb]
  have hdone := perform_plain_ok (c := .delayThenOff coreHoldTime .vcore) (rd := false) (a := c) (rest := rest)
    (s := (runSlots [plain (.regDisable (vsecond s.cfg)), plain (.regDisableDeferred .vcore coreHoldTime)] s).setPc
      (.busy (.instr .unprepare) 2)) (runSlots_answers (oks := [a, b]) ha rfl) nofun
  rw [exec_unprepare hpc hprepared henabled, settle_last_done (oks := [a, b]) (unprepare_slots s) ha rfl hok hdone]
  simp [ended, complete, completeInstr, State.answer, State.setPrepared, Call.okEffect, Slot.run, plain, State.draw,
    State.log, State.consume, State.setRail, State.setPc, State.elapse, ha, vsecond_eq_secondSupply, coreHoldTime]

/-- The disable of the second supply switches that and nothing else (R136). -/
theorem run_disableSecond (s : State) :
    ((plain (.regDisable (vsecond s.cfg))).run s).railCore = s.railCore ∧
      ((plain (.regDisable (vsecond s.cfg))).run s).railSecond = .off ∧
      ((plain (.regDisable (vsecond s.cfg))).run s).lineReset = s.lineReset ∧
      ((plain (.regDisable (vsecond s.cfg))).run s).lineDC = s.lineDC := by
  obtain ⟨hcore, -, hreset⟩ := s.draw_samePower
  simp [Slot.run, plain, Call.okEffect, vsecond_ne_vcore, s.draw_frame.cfg, hcore, hreset, s.draw_lineDC]

/-- Settles O27: the disable of the second supply fails at once, the deferred disable after it. -/
theorem powerOffFailures : Obligations.PowerOffFailures := by
  intro s e rest hpc hprepared henabled
  rw [exec_unprepare hpc hprepared henabled, ← vsecond_eq_secondSupply]
  constructor <;> rintro ⟨a, back, he, hback, oks, ha, hl, hok⟩ <;> obtain rfl := List.length_eq_zero_iff.mp hback
  · obtain ⟨stamped, n, hstamped, hended⟩ :=
      settle_regulator_fails (pre := []) (unprepare_slots s) ha hl hok he fun _ => .regDisable _
    exact ⟨stamped, n, hstamped, congrArg _ hended⟩
  · obtain ⟨stamped, n, hstamped, hended⟩ := settle_regulator_fails
      (pre := [plain (.regDisable (vsecond s.cfg))]) (unprepare_slots s) ha hl hok he fun _ => .regDisableDeferred _ _
    obtain ⟨hcore, hsecond, hreset, hdc⟩ := run_disableSecond s
    rw [runSlots_cons, runSlots_nil, hcore, hsecond, hreset, hdc] at hended
    exact ⟨stamped, n, hstamped, congrArg _ hended⟩

/-! ## How long the core-logic hold is -/

/-- Short of its last place `unprepare` has not switched the core logic (R137). -/
theorem runSlots_unprepare_railCore {s : State} {front more : List Slot}
    (hs : s.slots (.instr .unprepare) = front ++ more) (hlt : front.length < 3) :
    (runSlots front s).railCore = s.railCore := by
  obtain ⟨hcore, -⟩ := run_disableSecond s
  rw [unprepare_slots] at hs
  rcases front with _ | ⟨first, _ | ⟨second, _ | ⟨third, front⟩⟩⟩ <;>
    simp only [List.cons_append, List.nil_append, List.cons.injEq] at hs
  · rfl
  · obtain ⟨rfl, -⟩ := hs
    exact hcore
  · obtain ⟨rfl, rfl, -⟩ := hs
    have hkeep : KeepPower [plain (.regDisableDeferred .vcore coreHoldTime)] := by
      simp [KeepPower, plain, Call.keepsPower]
    exact (runSlots_samePower hkeep _).railCore.trans hcore
  · simp only [List.length_cons] at hlt
    omega

/-- The core logic is switched only where `unprepare` is completed. -/
theorem Reached.unprepare_completed {s t : State} (h : Reached (.instr .unprepare) s t)
    (hcore : t.railCore ≠ s.railCore) :
    t = complete (.instr .unprepare) (runSlots (s.slots (.instr .unprepare)) s) := by
  cases h with
  | completed => rfl
  | stands front more hs hlt => exact absurd (runSlots_unprepare_railCore hs hlt) hcore
  | failed front sl more x u hs hp =>
    have hlt : front.length < 3 := by
      have hlen := congrArg List.length hs
      simp only [unprepare_slots, List.length_append, List.length_cons, List.length_nil] at hlen
      omega
    exact absurd ((perform_fails_samePower hp).railCore.trans (runSlots_unprepare_railCore hs hlt)) hcore

/-- Settles O49: the core logic is off only where `unprepare` is completed, and then the trace is that of its three
places. -/
theorem coreHold : Obligations.CoreHold := by
  intro s t hprepared henabled hon h hoff
  obtain ⟨hpc, -⟩ := exec_next_cases h
  rw [exec_unprepare hpc hprepared henabled] at h
  have ht := Host.Outcome.next.inj h ▸ reached_settle (.instr .unprepare) s
  rw [ht.unprepare_completed (by rw [hon, hoff]; decide)]
  obtain ⟨-, -, -, -, -, -, -, htrace, hnow, -⟩ :=
    complete_frame (.instr .unprepare) (runSlots (s.slots (.instr .unprepare)) s)
  rw [htrace, hnow, unprepare_slots, ← vsecond_eq_secondSupply]
  simp only [runSlots_cons, runSlots_nil, Slot.run_trace, List.append_assoc, List.cons_append, List.nil_append]
  refine ⟨_, _, _, rfl, rfl, rfl, rfl, ?_, ?_, rfl⟩
  · exact (Slot.run_frame (plain (.regDisableDeferred .vcore coreHoldTime)) _).now
  · exact Slot.run_now (plain (.delayThenOff coreHoldTime .vcore)) _

/-! ## How long the reset pulse is -/

/-- No place of the pulse can fail (R133). -/
theorem resetPulse_ne_fails {sl : Slot} (h : sl ∈ resetPulse) (s : State) (x : Response) (t : State) :
    perform sl s ≠ .fails x t := by
  simp only [resetPulse, List.mem_cons, List.not_mem_nil, or_false] at h
  obtain rfl | rfl | rfl := h <;> exact perform_plain_ne_fails rfl s x t

/-- A place of `prepare` that fails before the pulse is over is the enable of the core logic. -/
theorem prepare_fails_in_coreOn {s u v : State} {front more : List Slot} {sl : Slot} {x : Response}
    (hr : s.cfg.hasReset = true) (hs : s.slots (.instr .prepare) = front ++ sl :: more) (hlt : front.length < 4)
    (hp : perform sl u = .fails x v) : front = [] ∧ sl = plain (.regEnable .vcore) := by
  rw [prepare_slots_coreOn, coreOn, if_pos hr] at hs
  cases front with
  | nil => exact ⟨rfl, (List.cons.inj hs).1.symm⟩
  | cons first front =>
    obtain ⟨-, hs⟩ := List.cons.inj hs
    have hlt : front.length < resetPulse.length := Nat.lt_of_succ_lt_succ hlt
    have hsl : resetPulse[front.length]? = some sl := by
      rw [← List.getElem?_append_left hlt, ← List.append_eq, hs]
      simp
    exact absurd hp (resetPulse_ne_fails (List.mem_of_getElem? hsl) u x v)

/-- The trace of `prepare` begins with the core logic and the whole pulse, or it is too short for the second edge. -/
theorem Reached.prepare_pulse {s t : State} (h : Reached (.instr .prepare) s t) (hr : s.cfg.hasReset = true) :
    (runSlots (coreOn s.cfg) s).trace <+: t.trace ∨ t.trace.length ≤ s.trace.length + 3 := by
  have hpre : coreOn s.cfg <+: s.slots (.instr .prepare) := ⟨_, (prepare_slots_coreOn s).symm⟩
  have hlen : (coreOn s.cfg).length = 4 := by simp [coreOn, hr, resetPulse]
  have hthrough {front more : List Slot} (hs : s.slots (.instr .prepare) = front ++ more) (hle : 4 ≤ front.length) :
      (runSlots (coreOn s.cfg) s).trace <+: (runSlots front s).trace :=
    runSlots_trace_prefix (List.prefix_of_prefix_length_le hpre ⟨more, hs.symm⟩ (hlen.trans_le hle)) s
  cases h with
  | completed =>
    obtain ⟨-, -, -, -, -, -, -, htrace, -⟩ :=
      complete_frame (.instr .prepare) (runSlots (s.slots (.instr .prepare)) s)
    exact .inl (htrace ▸ runSlots_trace_prefix hpre s)
  | stands front more hs hlt =>
    rw [State.setPc_trace]
    obtain hlt | hle := Nat.lt_or_ge front.length 4
    · rw [runSlots_trace_length]
      omega
    · exact .inl (hthrough hs hle)
  | failed front sl more x u hs hp =>
    rw [State.answer_trace]
    obtain hlt | hle := Nat.lt_or_ge front.length 4
    · obtain ⟨rfl, rfl⟩ := prepare_fails_in_coreOn hr hs hlt hp
      obtain ⟨hbuffer, -⟩ | ⟨e, -, hevents⟩ := perform_fails_events hp
      · cases hbuffer
      · have hlength := congrArg List.length hevents
        simp [State.events, Slot.errEvents, plain] at hlength
        omega
    · exact .inl ((hthrough hs hle).trans (perform_fails_frame hp).trace)

/-- Settles O47: a trace long enough for the second edge begins with the pulse, and its delay lies between
the edges. The model's constant has the obligation's name. -/
theorem prepare_resetPulseWidth : Obligations.ResetPulseWidth := by
  intro s t hprepared henabled hr h low high k hlow hk hhigh
  subst hk
  obtain ⟨hpc, -⟩ := exec_next_cases h
  rw [exec_prepare hpc hprepared henabled] at h
  have ht := Host.Outcome.next.inj h ▸ reached_settle (.instr .prepare) s
  obtain ⟨more, hmore⟩ | hshort := ht.prepare_pulse hr
  · rw [coreOn, if_pos hr, resetPulse] at hmore
    simp only [runSlots_cons, runSlots_nil, Slot.run_trace, List.append_assoc, List.cons_append, List.nil_append]
      at hmore
    rw [← hmore, List.getElem?_append_right (by omega), Nat.add_sub_cancel_left] at hlow hhigh
    obtain rfl := Option.some.inj hlow
    obtain rfl := Option.some.inj hhigh
    refine ⟨rfl, rfl, ?_⟩
    exact (Slot.run_now (plain (.delay resetPulseWidth)) _).trans
      (Slot.run_frame (plain (.gpioSet .reset true)) _).now
  · rw [List.getElem?_eq_none hshort] at hhigh
    cases hhigh

/-! ## The charge pump's commands without it -/

/-- Settles O17: the sequence is empty, so the operation is completed at once (R141). -/
theorem pumpCommandElsewhere : Obligations.PumpCommandElsewhere := by
  intro i s hi hpump hpc
  have hslots : s.slots (.instr i) = [] := by
    obtain rfl | rfl := hi <;> simp [State.slots, sequenceOf, useq, pumpOn, pumpOff, hpump]
  have hlayer : i.layer = .command := by
    obtain rfl | rfl := hi <;> rfl
  obtain ⟨hadmitted, hentered, hcomplete⟩ := command_facts hlayer s
  obtain ⟨hsettle, -⟩ := settle_ok (op := .instr i) (s := s) (oks := []) rfl (by rw [hslots]; rfl) (by simp)
  rw [exec_admitted hpc hadmitted, hentered, hsettle, hslots, runSlots_nil, hcomplete]
  simp [ended, State.answer]

end Sys2Proof.Machine
end

section
/-! The register-configuration decoder (42_regdecode.md R150 to R162, R167): the initialisation list against the rules'
numbers. -/

namespace Sys2Proof.Machine

/-- R167: "always twelve", whatever the settings. -/
theorem initCmds_length (x : Settings) : (initCmds x).length = 12 := rfl

/-- Settles O6: the count, and the bytes command by command, each wrap and mask by its arithmetic rule
(`initCmds_numbers`). -/
theorem initialisationParameters : Obligations.InitialisationParameters := by
  intro opc x
  exact ⟨initCmds_length x, initCmds_numbers opc x⟩

end Sys2Proof.Machine
end

section
/-! The protocol sequences (43_protocol.md): `enable` and `disable` as SENDs one after another, how such a sequence ends
when all is answered and where it stops at its first failure, the settle delay, and `set_contrast`. -/

namespace Sys2Proof.Machine

open Sys2Proof.Spec

variable {ε : Type}

/-! ## The sequences -/

/-- The commands of `enable` (R182). -/
def enableCommands (cfg : Cfg) : List Command :=
  (if cfg.useChargePump then [.c1 cfg.opc.chargePump cfg.opc.parCpEnable] else []) ++ [.c0 cfg.opc.displayOn]

/-- The commands of `disable` (R185). -/
def disableCommands (cfg : Cfg) : List Command :=
  .c0 cfg.opc.displayOff :: if cfg.useChargePump then [.c1 cfg.opc.chargePump cfg.opc.parCpDisable] else []

theorem enableCommands_bytes (cfg : Cfg) : (enableCommands cfg).map Command.bytes = enableBytes cfg := by
  unfold enableCommands enableBytes
  cases cfg.useChargePump <;> rfl

theorem disableCommands_bytes (cfg : Cfg) : (disableCommands cfg).map Command.bytes = disableBytes cfg := by
  unfold disableCommands disableBytes
  cases cfg.useChargePump <;> rfl

theorem enableCommands_ne_nil (cfg : Cfg) : enableCommands cfg ≠ [] := by
  simp [enableCommands]

theorem enable_slots (s : State ε) :
    s.slots (.instr .enable) =
      (enableCommands s.cfg).flatMap (send s.cfg.transport) ++ [plain (.delay settleTime)] := by
  simp only [State.slots, sequenceOf, useq, protoEnable, pumpOn, enableCommands]
  cases s.cfg.useChargePump <;> simp [sendCommand, commandOf, encode]

theorem disable_slots (s : State ε) :
    s.slots (.instr .disable) = (disableCommands s.cfg).flatMap (send s.cfg.transport) ++ [] := by
  simp only [State.slots, sequenceOf, useq, protoDisable, pumpOff, disableCommands]
  cases s.cfg.useChargePump <;> simp [sendCommand, commandOf, encode]

theorem exec_enable {s : State} (hpc : s.pc = .idle) (hp : s.prepared = true) (he : s.enabled = false) :
    exec .enable s = .next (settle (s.begun (.instr .enable))) :=
  exec_admitted hpc (by simp [admitted, admittedInstr, admitsEnable, hp, he])

theorem exec_disable {s : State} (hpc : s.pc = .idle) (hp : s.prepared = true) (he : s.enabled = true) :
    exec .disable s = .next (settle (s.begun (.instr .disable))) :=
  exec_admitted hpc (by simp [admitted, admittedInstr, admitsDisable, hp, he])

/-! ## SENDs one after another -/

/-- What the successful SENDs of these commands have changed. -/
structure Sent (cs : List Command) (s v : State) : Prop where
  cfg : v.cfg = s.cfg
  power : SamePower s v
  lineDC : v.lineDC = if cs = [] then s.lineDC else dcAtRest s
  events : v.events = s.events ++ sendAll s.cfg.transport (cs.map Command.bytes)

theorem runSlots_sent (cs : List Command) (s : State) : Sent cs s (runSlots (cs.flatMap (send s.cfg.transport)) s) where
  cfg := (runSlots_frame _ s).cfg
  power := runSlots_samePower (keepPower_sendClosed.sends _ cs) s
  lineDC := runSlots_sends_lineDC cs s
  events := by rw [runSlots_events, sends_okEvents]

theorem Sent.dcAtRest_eq {cs : List Command} {s v : State} (h : Sent cs s v) : dcAtRest v = dcAtRest s := by
  refine dcAtRest_of_lineDC h.cfg ?_
  rw [h.lineDC]
  split
  · exact .inl rfl
  · exact .inr rfl

theorem sends_ne_nil (t : Transport) {cs : List Command} (h : cs ≠ []) : cs.flatMap (send t) ≠ [] := by
  intro hnil
  obtain ⟨c, hc⟩ := List.exists_mem_of_ne_nil cs h
  have hsend : send t c = [] := List.flatMap_eq_nil_iff.mp hnil c hc
  cases t <;> cases hsend

section Sends

variable {i : Instr} {op : Operation} {cs : List Command} {tail : List Slot} {s : State} {k : Nat} {rest : List Answer}

/-- Before its `k`-th command a sequence has sent those before it, the answers for them are used up, and where the SEND
of the `k`-th stops it stops too. -/
theorem sends_before_command {m : Nat} {c : Command} {e : ErrVal} {restores : Nat}
    (hs : s.slots op = cs.flatMap (send s.cfg.transport) ++ tail) (hk : cs[k]? = some c)
    (h : FailsAfter s (k * sendDraws s.cfg.transport + m) e restores rest) :
    ∃ v, Sent (cs.take k) s v ∧ FailsAfter v m e restores rest ∧
      ∀ x t, Breaks (send s.cfg.transport c) v x t → Breaks (s.slots op) s x t := by
  obtain ⟨hlt, hget⟩ := List.getElem?_eq_some_iff.mp hk
  obtain ⟨oks, as, ha, hl, hok, hrest⟩ := FailsAfter.split h
  have hdraws : oks.length = drawsOf ((cs.take k).flatMap (send s.cfg.transport)) := by
    rw [drawsOf_sends, List.length_take_of_le hlt.le, hl]
  refine ⟨_, runSlots_sent _ s, hrest _ (runSlots_answers ha hdraws), fun x t hbreaks => ?_⟩
  have hsplit : cs = cs.take k ++ c :: cs.drop (k + 1) := by
    rw [← hget, List.getElem_cons_drop, List.take_append_drop]
  rw [hs, hsplit, List.flatMap_append, List.flatMap_cons, List.append_assoc, List.append_assoc]
  exact Breaks.after ha hdraws hok (hbreaks.append _)

/-- How an operation ends where it stops in `t`, after the state `v` in which these commands are sent. -/
theorem Sent.ends {v t : State} {x : Response} {evs : List Event} (hv : Sent cs s v)
    (h : Breaks (s.slots op) s x t) (hpower : SamePower v t) (hev : t.events = v.events ++ evs) :
    ∃ stamped, stamped.map Stamped.ev = sendAll s.cfg.transport (cs.map Command.bytes) ++ evs ∧
      settle (s.begun op) = ended { s with lineDC := t.lineDC } stamped t.now t.answers x := by
  rw [hv.events, List.append_assoc] at hev
  obtain ⟨stamped, hstamped, hended⟩ := h.ends_ended hev
  obtain ⟨hcore, hsecond, hreset⟩ := hv.power.trans hpower
  rw [hcore, hsecond, hreset] at hended
  exact ⟨stamped, hstamped, hended⟩

/-- R205, R206, R231: an instruction that sends commands stops where the SEND of the `k`-th stops, at its transfer or at
its buffer; nothing of what follows is done. -/
theorem exec_sends_stop {bad : List Byte} {e : ErrVal} (hexec : exec i s = .next (settle (s.begun (.instr i))))
    (hs : s.slots (.instr i) = cs.flatMap (send s.cfg.transport) ++ tail)
    (hbad : (cs.map Command.bytes)[k]? = some bad) :
    (FailsAfter s (k * sendDraws s.cfg.transport + drawsBeforeTransfer s.cfg.transport) e
        (drawsAfterFailure s.cfg.transport) rest →
      ∃ (evs : List Stamped) (n : Nat),
        evs.map Stamped.ev = sendAll s.cfg.transport ((cs.map Command.bytes).take k) ++
          failedEvents s.cfg.transport bad e ∧
        exec i s = .next (ended { s with lineDC := dcAtRest s } evs n rest (.eBus e))) ∧
    (FailsAfter s (k * sendDraws s.cfg.transport) e 0 rest →
      ∃ (evs : List Stamped) (n : Nat),
        evs.map Stamped.ev = sendAll s.cfg.transport ((cs.map Command.bytes).take k) ∧
        exec i s = .next (ended { s with lineDC := if k = 0 then s.lineDC else dcAtRest s } evs n rest .eNomem)) := by
  rw [List.getElem?_map, Option.map_eq_some_iff] at hbad
  obtain ⟨c, hk, rfl⟩ := hbad
  rw [hexec, ← List.map_take]
  refine ⟨fun h => ?_, fun h => ?_⟩
  · obtain ⟨v, hv, hfails, hstop⟩ := sends_before_command hs hk h
    rw [← hv.cfg] at hfails hstop
    obtain ⟨t, hbreaks, ht⟩ := send_breaks_at_transfer hfails
    obtain ⟨stamped, hstamped, hended⟩ := hv.ends (hstop _ _ hbreaks) ht.power ht.events
    rw [ht.lineDC, hv.dcAtRest_eq, ht.answers] at hended
    exact ⟨stamped, t.now, hv.cfg ▸ hstamped, congrArg _ hended⟩
  · obtain ⟨v, hv, ⟨a, back, he, hback, oks, ha, hl, -⟩, hstop⟩ := sends_before_command (m := 0) hs hk h
    obtain rfl := List.length_eq_zero_iff.mp hback
    obtain rfl := List.length_eq_zero_iff.mp hl
    obtain ⟨stamped, hstamped, hended⟩ := hv.ends (t := v.consume a) (evs := [])
      (hstop _ _ (send_breaks_at_buffer ha he)) ⟨rfl, rfl, rfl⟩ (by simp)
    have htake : cs.take k = [] ↔ k = 0 := by
      simp [List.take_eq_nil_iff, List.ne_nil_of_mem (List.mem_of_getElem? hk)]
    rw [List.append_nil] at hstamped
    simp only [State.consume_lineDC, hv.lineDC, htake] at hended
    rw [State.consume_answers, ha] at hended
    exact ⟨stamped, _, hstamped, congrArg _ hended⟩

/-- R202, R203: an instruction that sends commands, then makes the calls of `tail`, which move no rail and no line, and
writes `st.enabled`, with every call answered `ok`. -/
theorem exec_sends_complete {v : Bool} (hexec : exec i s = .next (settle (s.begun (.instr i))))
    (hs : s.slots (.instr i) = cs.flatMap (send s.cfg.transport) ++ tail) (hne : cs ≠ [])
    (hpower : KeepPower tail) (hline : ∀ u : State, (runSlots tail u).lineDC = u.lineDC)
    (hcomplete : ∀ u : State, complete (.instr i) u = (u.setEnabled v).answer .ok)
    (h : Grants s (cs.length * sendDraws s.cfg.transport + drawsOf tail) rest) :
    ∃ (evs : List Stamped) (n : Nat),
      evs.map Stamped.ev = sendAll s.cfg.transport (cs.map Command.bytes) ++ tail.map (fun sl => sl.call.okEvent) ∧
      exec i s = .next (ended { s with enabled := v, lineDC := dcAtRest s } evs n rest .ok) := by
  obtain ⟨oks, ha, hl, hok⟩ := h
  obtain ⟨hsettle, hrest⟩ := settle_ok ha (by rw [hs, drawsOf_append, drawsOf_sends, hl]) hok
  have hframe := runSlots_frame (s.slots (.instr i)) s
  have hevents := runSlots_events (s.slots (.instr i)) s
  have hrun : runSlots (s.slots (.instr i)) s = runSlots tail (runSlots (cs.flatMap (send s.cfg.transport)) s) := by
    rw [hs, runSlots_append]
  have hsent := runSlots_sent cs s
  have hdc : (runSlots (s.slots (.instr i)) s).lineDC = dcAtRest s := by
    rw [hrun, hline, hsent.lineDC, if_neg hne]
  have hsame : SamePower s (runSlots (s.slots (.instr i)) s) := hrun ▸ hsent.power.trans (runSlots_samePower hpower _)
  obtain ⟨stamped, hstamped, hended⟩ := answer_eq_ended (p := s.pc) (s := { s with enabled := v })
    (t := (runSlots (s.slots (.instr i)) s).setEnabled v)
    ⟨hframe.cfg, hframe.settings, hframe.prepared, rfl, hframe.fault, hframe.pc, hframe.requests, hframe.responses,
      hframe.trace, hframe.now⟩ ⟨hsame.railCore, hsame.railSecond, hsame.lineReset⟩ hevents .ok
  rw [hs, List.map_append, sends_okEvents] at hstamped
  rw [State.setEnabled_lineDC, State.setEnabled_answers, hdc, hrest] at hended
  exact ⟨stamped, _, hstamped, by rw [hexec, hsettle, hcomplete, hended]⟩

end Sends

/-! ## `enable` and `disable` -/

/-- Settles O22: the commands are sent, then the settle delay, which moves nothing. -/
theorem enableCompletes : Obligations.EnableCompletes := by
  intro s rest hpc hprepared henabled h
  rw [← enableCommands_bytes, List.length_map] at h
  rw [← enableCommands_bytes]
  exact exec_sends_complete (exec_enable hpc hprepared henabled) (enable_slots s) (enableCommands_ne_nil s.cfg)
    (by simp [KeepPower, plain, Call.keepsPower]) (fun u => u.draw_lineDC) (fun _ => rfl) h

/-- Settles O23: the commands are sent, and nothing is called after them. -/
theorem disableCompletes : Obligations.DisableCompletes := by
  intro s rest hpc hprepared henabled h
  rw [← disableCommands_bytes, List.length_map] at h
  rw [← disableCommands_bytes, ← List.append_nil (sendAll _ _)]
  exact exec_sends_complete (exec_disable hpc hprepared henabled) (disable_slots s) (List.cons_ne_nil _ _)
    (by simp [KeepPower]) (fun _ => rfl) (fun _ => rfl) h

/-- Settles O24: `enable` sends its commands before it waits, so it stops as `exec_sends_stop` says. -/
theorem enableStopsAtFirstError : Obligations.EnableStopsAtFirstError := by
  intro s k bad e rest hpc hprepared henabled hbad
  rw [← enableCommands_bytes] at hbad ⊢
  exact exec_sends_stop (exec_enable hpc hprepared henabled) (enable_slots s) hbad

/-- Settles O25: `disable` sends its commands and makes no other call, so it stops as `exec_sends_stop` says. -/
theorem disableStopsAtFirstError : Obligations.DisableStopsAtFirstError := by
  intro s k bad e rest hpc hprepared henabled hbad
  rw [← disableCommands_bytes] at hbad ⊢
  exact exec_sends_stop (exec_disable hpc hprepared henabled) (disable_slots s) hbad

/-! ## How long `enable` settles -/

/-- `st.enabled` is written only where an operation is completed (R206). -/
theorem Reached.completed_of_enabled {op : Operation} {s t : State ε} (h : Reached op s t)
    (hne : t.enabled ≠ s.enabled) : t = complete op (runSlots (s.slots op) s) := by
  cases h with
  | completed => rfl
  | stands front more hs hlt => exact absurd (runSlots_frame front s).enabled hne
  | failed front sl more x u hs hp =>
    exact absurd ((perform_fails_frame hp).enabled.trans (runSlots_frame front s).enabled) hne

/-- The last of some places that went well has left the last event, stamped with the time it was done. -/
theorem runSlots_trace_last {xs : List Slot} (hne : xs ≠ []) (s : State ε) :
    ∃ front sent, (runSlots xs s).trace = s.trace ++ front ++ [sent] ∧ sent.time = (runSlots xs s).now ∧
      (front ++ [sent]).map Stamped.ev = xs.map fun sl => sl.call.okEvent := by
  have hevents := runSlots_events xs s
  obtain ⟨init, sl, rfl⟩ := List.eq_nil_or_concat xs |>.resolve_left hne
  obtain ⟨front, hfront⟩ := (runSlots_frame init s).trace
  have htrace := Slot.run_trace sl (runSlots init s)
  rw [List.concat_eq_append, runSlots_append, runSlots_cons, runSlots_nil] at hevents ⊢
  rw [← hfront] at htrace
  rw [State.events, htrace, List.append_assoc, List.map_append] at hevents
  exact ⟨front, _, htrace, rfl, List.append_cancel_left hevents⟩

/-- Settles O48: `enabled` is set only where `enable` is completed, and then its last place is the settle delay, which
begins when the last SEND is done. -/
theorem enableSettles : Obligations.EnableSettles := by
  intro s t hprepared henabled h hset
  obtain ⟨hpc, -⟩ := exec_next_cases h
  rw [exec_enable hpc hprepared henabled] at h
  have ht := Host.Outcome.next.inj h ▸ reached_settle (.instr .enable) s
  rw [ht.completed_of_enabled (by rw [hset, henabled]; decide), enable_slots, runSlots_append]
  have hframe := runSlots_frame ((enableCommands s.cfg).flatMap (send s.cfg.transport)) s
  obtain ⟨front, sent, htrace, htime, hev⟩ :=
    runSlots_trace_last (sends_ne_nil s.cfg.transport (enableCommands_ne_nil s.cfg)) s
  generalize runSlots ((enableCommands s.cfg).flatMap (send s.cfg.transport)) s = v at hframe htrace htime ⊢
  have hdelay := Slot.run_frame (plain (.delay settleTime)) v
  have hrun := Slot.run_trace (plain (.delay settleTime)) v
  rw [htrace, List.append_assoc _ [sent]] at hrun
  refine ⟨front, sent, _, hrun, rfl, ?_, ?_, ?_⟩
  · rw [htime]
    exact Slot.run_now (plain (.delay settleTime)) v
  · exact congrArg (· ++ _) (hdelay.responses.trans hframe.responses)
  · rw [hev, sends_okEvents, enableCommands_bytes]

/-! ## `set_contrast` -/

theorem exec_setContrast (b : Byte) {s : State} (hpc : s.pc = .idle) :
    exec (.setContrast b) s = .next (settle ((s.setContrastReg b).begun (.instr (.setContrast b)))) :=
  exec_admitted hpc rfl

/-- The sequence of `set_contrast` is the SEND of one contrast command (R186). -/
theorem setContrast_slots (b : Byte) (s : State ε) :
    s.slots (.instr (.setContrast b)) = send s.cfg.transport (.c1 s.cfg.opc.contrast b) := rfl

/-- Settles O32: the SEND is made from the state in which `b` is stored. -/
theorem setContrastCompletes : Obligations.SetContrastCompletes := by
  intro b s rest hpc h
  obtain ⟨stamped, n, hev, hended⟩ :=
    settle_send_ok (s := s.setContrastReg b) (setContrast_slots b _) (fun _ => rfl) h
  exact ⟨stamped, n, hev, (exec_setContrast b hpc).trans (congrArg _ hended)⟩

/-- Settles O33: the SEND that is refused or fails is made from the state in which `b` is stored. -/
theorem setContrastKeepsStore : Obligations.SetContrastKeepsStore := by
  intro b s e rest hpc
  have hs := setContrast_slots b (s.setContrastReg b)
  rw [exec_setContrast b hpc]
  refine ⟨fun ⟨a, back, he, hback, oks, ha, hl, _⟩ => ?_, fun h => ?_⟩
  · obtain rfl := List.length_eq_zero_iff.mp hback
    obtain rfl := List.length_eq_zero_iff.mp hl
    exact ⟨_, congrArg _ (settle_send_refused hs ha he)⟩
  · obtain ⟨stamped, n, hev, hended⟩ := settle_send_fails hs h
    exact ⟨stamped, n, hev, congrArg _ hended⟩

end Sys2Proof.Machine
end

section
/-! What the calls of an operation leave alone, and what becomes of it whatever the environment answers, begun or in
progress (10_state.md R31, 44_lifecycle.md R201 to R209). -/

namespace Sys2Proof.Machine

open Sys2Proof.Spec

variable {ε : Type}

/-! ## The lines along `unprepare` -/

/-- A call that drives no line. -/
def Call.keepsLines : Call → Bool
  | .regEnable _ => true
  | .regDisable _ => true
  | .regDisableDeferred _ _ => true
  | .gpioSet _ _ => false
  | .delay _ => true
  | .delayThenOff _ _ => true
  | .xfer9 _ => true
  | .xfer8 _ => true

/-- Two states with the same levels of both lines. -/
structure SameLines (s t : State ε) : Prop where
  lineReset : t.lineReset = s.lineReset
  lineDC : t.lineDC = s.lineDC

theorem SameLines.trans {s t u : State ε} (h : SameLines s t) (k : SameLines t u) : SameLines s u :=
  ⟨k.lineReset.trans h.lineReset, k.lineDC.trans h.lineDC⟩

theorem Call.okEffect_sameLines {c : Call} (h : c.keepsLines = true) (s : State ε) : SameLines s (c.okEffect s) := by
  cases c
  case gpioSet => cases h
  all_goals exact ⟨rfl, rfl⟩

theorem Granted.sameLines_consume {sl : Slot} {s u : State ε} (h : Granted sl s u) (a : Answer ε) :
    SameLines s (u.consume a) := by
  obtain ⟨hdc, hreset, -⟩ := h.lines
  exact ⟨hreset, hdc⟩

/-- A failed call drives a line only to restore it. -/
theorem FailedCall.sameLines {e : ε} {s t : State ε} {c : Call} {x : Response ε} (h : FailedCall false e s c x t) :
    SameLines s t := by
  cases h
  case xfer9Restored hrd _ | xfer8Restored hrd _ => cases hrd
  all_goals exact ⟨rfl, rfl⟩

theorem perform_plain_done_sameLines {c : Call} (hc : c.keepsLines = true) {s t : State ε}
    (h : perform (plain c) s = .done t) : SameLines s t := by
  obtain ⟨u, a, rest, hg, -, -, rfl⟩ := perform_done h
  exact (hg.sameLines_consume a).trans (Call.okEffect_sameLines hc (u.consume a))

theorem perform_plain_fails_sameLines {c : Call} {s t : State ε} {x : Response ε}
    (h : perform (plain c) s = .fails x t) : SameLines s t := by
  obtain ⟨hal, -⟩ | ⟨u, a, rest, e, hg, -, -, hf⟩ := perform_fails h
  · cases hal
  · exact (hg.sameLines_consume a).trans hf.sameLines

/-- The places of `unprepare` are regulator calls and a delay (41_power.md R136, R137). -/
theorem powerOff_keepsLines {cfg : Cfg} {sl : Slot} (h : sl ∈ powerOff cfg) :
    ∃ c, sl = plain c ∧ c.keepsLines = true := by
  simp only [powerOff, deferredDisableCore, List.mem_cons, List.not_mem_nil, or_false] at h
  obtain rfl | rfl | rfl := h <;> exact ⟨_, rfl, rfl⟩

/-! ## What the calls of an operation leave alone -/

/-- From `s` to `t` by calls of `op` alone, none of which has ended it. -/
structure CallsFrame (op : Operation) (s t : State ε) : Prop where
  call : ∃ k, CallFrame (s.setPc (.busy op k)) t
  power : op ≠ .instr .prepare → op ≠ .instr .unprepare → SamePower s t
  lines : op = .instr .unprepare → SameLines s t
  still : s.slots op = [] → t = s

theorem CallsFrame.refl {op : Operation} {s : State ε} {k : Nat} (h : s.pc = .busy op k) : CallsFrame op s s where
  call := ⟨k, h ▸ CallFrame.refl s⟩
  power _ _ := ⟨rfl, rfl, rfl⟩
  lines _ := ⟨rfl, rfl⟩
  still _ := rfl

/-- One place more, whether its call is done or has failed. -/
theorem CallsFrame.place {op : Operation} {s t u : State ε} {sl : Slot} (h : CallsFrame op s t) (hsl : sl ∈ s.slots op)
    (hframe : CallFrame t u) (hpower : sl.call.keepsPower = true → SamePower t u)
    (hlines : ∀ c, sl = plain c → c.keepsLines = true → SameLines t u) : CallsFrame op s u where
  call := by
    obtain ⟨k, hk⟩ := h.call
    exact ⟨k, hk.trans hframe⟩
  power hp hu := (h.power hp hu).trans (hpower (sequenceOf_keepPower s.cfg s.settings hp hu sl hsl))
  lines := by
    rintro rfl
    obtain ⟨c, hc, hkeeps⟩ := powerOff_keepsLines hsl
    exact (h.lines rfl).trans (hlines c hc hkeeps)
  still hnil := by simp [hnil] at hsl

theorem CallsFrame.done {op : Operation} {s t u : State ε} {sl : Slot} (h : CallsFrame op s t) (hsl : sl ∈ s.slots op)
    (hp : perform sl t = .done u) : CallsFrame op s u :=
  h.place hsl (perform_done_frame hp) (fun hk => perform_done_samePower hk hp) fun _ hc hk =>
    perform_plain_done_sameLines hk (hc ▸ hp)

theorem CallsFrame.fails {op : Operation} {s t u : State ε} {sl : Slot} {x : Response ε} (h : CallsFrame op s t)
    (hsl : sl ∈ s.slots op) (hp : perform sl t = .fails x u) : CallsFrame op s u :=
  h.place hsl (perform_fails_frame hp) (fun _ => perform_fails_samePower hp) fun _ hc _ =>
    perform_plain_fails_sameLines (hc ▸ hp)

theorem CallsFrame.setPc {op : Operation} {s t : State ε} (h : CallsFrame op s t) (hne : s.slots op ≠ []) (k : Nat) :
    CallsFrame op s (t.setPc (.busy op k)) where
  call := by
    obtain ⟨_, hc⟩ := h.call
    exact ⟨k, hc.cfg, hc.settings, hc.prepared, hc.enabled, hc.fault, rfl, hc.requests, hc.responses, hc.trace, hc.now⟩
  power hp hu := ⟨(h.power hp hu).railCore, (h.power hp hu).railSecond, (h.power hp hu).lineReset⟩
  lines hu := ⟨(h.lines hu).lineReset, (h.lines hu).lineDC⟩
  still hnil := absurd hnil hne

theorem CallsFrame.slots {op : Operation} {s t : State ε} (h : CallsFrame op s t) : t.slots op = s.slots op := by
  obtain ⟨_, hc⟩ := h.call
  exact slots_congr hc.cfg hc.settings op

/-! ## What becomes of an operation -/

/-- The errors a downward call or an allocation can end an operation with (60_exceptions.md R222, R223): every response
but `Ok`, a value and the misuse. -/
def Response.isError : Response ε → Bool
  | .ok => false
  | .okValue _ => false
  | .eNomem => true
  | .eBus _ => true
  | .fMisuse _ _ _ => false
  | .eReg _ => true

theorem FailedCall.isError {rd : Bool} {c : Call} {e : ε} {s t : State ε} {x : Response ε}
    (h : FailedCall rd e s c x t) : x.isError = true := by
  cases h <;> rfl

theorem perform_fails_isError {sl : Slot} {s t : State ε} {x : Response ε} (h : perform sl s = .fails x t) :
    x.isError = true := by
  obtain ⟨-, rfl, -⟩ | ⟨u, a, rest, e, -, -, -, hf⟩ := perform_fails h
  · rfl
  · exact hf.isError

/-- What becomes of an operation that is in progress in `s`: it goes on, or a call has ended it with an error, or it is
completed. -/
inductive Becomes (op : Operation) (s : State ε) : State ε → Prop
  | goesOn {t : State ε} (h : CallsFrame op s t) : Becomes op s t
  | stops {t : State ε} {x : Response ε} (h : CallsFrame op s t) (hne : s.slots op ≠ []) (hx : x.isError = true) :
      Becomes op s (t.answer x)
  | completes {t : State ε} (h : CallsFrame op s t) : Becomes op s (complete op t)

theorem Becomes.advance {op : Operation} {s t : State ε} (h : Becomes op s t) : Becomes op s (advance t) := by
  cases h with
  | stops h hne hx =>
    rw [advance_idle rfl]
    exact .stops h hne hx
  | completes h =>
    rw [advance_idle (complete_pc op _)]
    exact .completes h
  | goesOn h =>
    have hop {op' : Operation} {i : Nat} (hpc : t.pc = .busy op' i) : op' = op := by
      obtain ⟨k, hc⟩ := h.call
      obtain ⟨rfl, -⟩ := Pc.busy.inj (hc.pc.symm.trans hpc)
      rfl
    obtain h' | ⟨op', hpc, -, h'⟩ | ⟨op', i, sl, hpc, hsl, hcases⟩ := advance_cases t
    · rw [h']
      exact .goesOn h
    · obtain rfl := hop hpc
      rw [h']
      exact .completes h
    · obtain rfl := hop hpc
      have hmem : sl ∈ s.slots op' := h.slots ▸ List.mem_of_getElem? hsl
      have hne : s.slots op' ≠ [] := List.ne_nil_of_mem hmem
      obtain ⟨x, u, hp, h'⟩ | ⟨u, hp, -, h'⟩ | ⟨u, hp, -, h'⟩ := hcases <;> rw [h']
      · exact .stops (h.fails hmem hp) hne (perform_fails_isError hp)
      · exact .goesOn ((h.done hmem hp).setPc hne (i + 1))
      · exact .completes (h.done hmem hp)

/-- Where an operation that leads on from `s` starts: at its admission, what is stored being stored, or where it is. -/
inductive Starts (op : Operation) (s : State ε) : State ε → Prop
  | admitted (hpc : s.pc = .idle) : Starts op s ((entered op s).begun op)
  | inProgress (k : Nat) (hpc : s.pc = .busy op k) : Starts op s s

/-- A start differs from `s` in the position, and in the contrast that an admitted `set_contrast` has stored. -/
theorem Starts.eq {op : Operation} {s u : State ε} (h : Starts op s u) :
    ∃ b k, u = (s.setContrastReg b).setPc (.busy op k) ∧
      ((∀ c, op ≠ .instr (.setContrast c)) ∨ s.pc ≠ .idle → b = s.settings.contrast) ∧
      (∀ c, op = .instr (.setContrast c) → s.pc = .idle → b = c) := by
  cases h with
  | inProgress k hpc => exact ⟨_, k, hpc ▸ rfl, fun _ => rfl, fun _ _ hidle => by simp [hidle] at hpc⟩
  | admitted hpc =>
    by_cases hset : ∃ b, op = .instr (.setContrast b)
    · obtain ⟨b, rfl⟩ := hset
      refine ⟨b, 0, rfl, fun h => ?_, fun c hc _ => by cases hc; rfl⟩
      obtain h | h := h
      · exact absurd rfl (h b)
      · exact absurd hpc h
    · have hentered : entered op s = s := by
        unfold entered
        split
        · exact absurd ⟨_, rfl⟩ hset
        · rfl
      rw [hentered]
      exact ⟨_, 0, rfl, fun _ => rfl, fun c hc => absurd ⟨c, hc⟩ hset⟩

/-- Everything an operation can do, as a whole, in its admission, or in a step that goes on with it: it is a misuse, or
it starts and goes as far as it can. -/
theorem runs_cases {op : Operation} {s t : State} (h : Runs op s t) :
    (∃ i, op = .instr i ∧ s.pc = .idle ∧ admitted op s = false ∧ t = s.misuse i) ∨
      ∃ u, Starts op s u ∧ Becomes op u t := by
  have hbegun : Becomes op ((entered op s).begun op) ((entered op s).begun op) := .goesOn (.refl rfl)
  rcases h with h | h | ⟨k, hk, h⟩
  · rw [begins_eq] at h
    obtain ⟨hpc, ⟨-, rfl⟩ | ⟨i, hi, hno, ht⟩⟩ := execute_next_cases h
    · exact .inr ⟨_, .admitted hpc, settle_keeps (P := Becomes op _) (fun _ => Becomes.advance) hbegun⟩
    · exact .inl ⟨i, hi, hpc, hno, ht⟩
  · obtain ⟨hpc, ⟨-, rfl⟩ | ⟨i, hi, hno, ht⟩⟩ := accept_next_cases h
    · exact .inr ⟨_, .admitted hpc, hbegun⟩
    · exact .inl ⟨i, hi, hpc, hno, ht⟩
  · obtain ⟨hpc, -⟩ | ⟨hpc, -⟩ | ⟨-, -, -, -, rfl⟩ := step_next_cases h
    · simp [hpc] at hk
    · simp [hpc] at hk
    · exact .inr ⟨s, .inProgress k hk, (Becomes.goesOn (.refl hk)).advance⟩

end Sys2Proof.Machine
end

section
/-! The lifecycle operations (44_lifecycle.md): the admission table, the answers, the flags and the frame of every
operation, and `get_contrast`. -/

namespace Sys2Proof.Machine

open Sys2Proof.Spec

/-! ## The responses -/

/-- The completion of an operation that has gone from `s` to `t`, in the words of R31. -/
theorem CallsFrame.completed {op : Operation} {s t : State} (h : CallsFrame op s t) :
    Completed s (complete op t) op := by
  obtain ⟨k, hc⟩ := h.call
  exact completed_of_frame (s := s.setPc (.busy op k)) hc (complete_completed op t)

theorem answerOf_value_iff (op : Operation) (s : State) :
    (∃ v, answerOf op s = .okValue v) ↔ op = .instr .getContrast := by
  unfold answerOf
  split
  · exact ⟨fun _ => rfl, fun _ => ⟨_, rfl⟩⟩
  · rename_i hne
    exact ⟨fun ⟨v, hv⟩ => (by cases hv), fun hop => absurd hop hne⟩

theorem answerOf_ne_misuse (op : Operation) (s : State) (i : Instr) (p q : Bool) :
    answerOf op s ≠ .fMisuse i p q := by
  unfold answerOf
  split <;> simp

/-- An operation in progress has given no response; one that has ended has given one, which is no misuse, and has a value
exactly for `get_contrast` (R211). -/
theorem Becomes.responses {op : Operation} {s t : State} (h : Becomes op s t) :
    ((∃ k, t.pc = .busy op k) ∧ t.responses = s.responses) ∨
      (t.pc = .idle ∧ ∃ x : Reply, t.responses = s.responses ++ [x] ∧
        ((∃ v, x.rsp = .okValue v) ↔ op = .instr .getContrast) ∧ ∀ i p q, x.rsp ≠ .fMisuse i p q) := by
  cases h with
  | goesOn h =>
    obtain ⟨k, hc⟩ := h.call
    exact .inl ⟨⟨k, hc.pc⟩, hc.responses⟩
  | stops h hne hx =>
    obtain ⟨_, hc⟩ := h.call
    refine .inr ⟨rfl, _, congrArg (· ++ _) hc.responses, ⟨?_, ?_⟩, ?_⟩
    · rintro ⟨v, rfl⟩
      cases hx
    · rintro rfl
      exact absurd rfl hne
    · rintro i p q rfl
      cases hx
  | completes h =>
    obtain ⟨hpc, hresponses, -⟩ := h.completed
    exact .inr ⟨hpc, _, hresponses, answerOf_value_iff op s, answerOf_ne_misuse op s⟩

/-- Settles O37: a misuse answers at once, and `get_contrast` is never one; for the rest see `Becomes.responses`. -/
theorem answersExactlyOnce : Obligations.AnswersExactlyOnce := by
  intro op s t h
  obtain ⟨i, rfl, -, hno, rfl⟩ | ⟨u, hstart, hbecomes⟩ := runs_cases h
  · refine ⟨fun _ => ⟨_, rfl, ?_, ?_⟩, fun hbusy => absurd rfl hbusy⟩
    · rintro ⟨v, hv⟩
      cases hv
    · intro hget
      rw [hget] at hno
      cases hno
  · obtain ⟨b, k, rfl, -⟩ := hstart.eq
    obtain ⟨hbusy, hresponses⟩ | ⟨hidle, x, hresponses, hvalue, -⟩ := hbecomes.responses
    · obtain ⟨j, hj⟩ := hbusy
      exact ⟨fun hidle => by simp [hidle] at hj, fun _ => ⟨⟨j, hj⟩, hresponses⟩⟩
    · exact ⟨fun _ => ⟨x, hresponses, hvalue⟩, fun hbusy => absurd hidle hbusy⟩

/-- Settles O28: the model's admission check is the table of R200 (`admitted_instr_eq`); an admitted operation is never
answered with the misuse (`Becomes.responses`). -/
theorem admissionTable : Obligations.AdmissionTable := by
  intro i s hlayer hpc
  have hadmitted : admitted (.instr i) s = admittedWhen i s.prepared s.enabled := by
    have hword : foreignWord i s.cfg.transport = false := by
      rw [← Bool.not_eq_true]
      intro hf
      rw [layer_of_foreignWord hf] at hlayer
      cases hlayer
    rw [admitted_instr_eq, hword, Bool.not_false, Bool.and_true]
  cases hwhen : admittedWhen i s.prepared s.enabled with
  | false => exact ⟨_, exec_misuse hpc hlayer (hadmitted.trans hwhen), .inr ⟨rfl, _, rfl, rfl⟩⟩
  | true =>
    have hexec := exec_admitted hpc (hadmitted.trans hwhen)
    refine ⟨_, hexec, .inl ⟨rfl, ?_⟩⟩
    obtain ⟨_, -, -, hno, -⟩ | ⟨u, hstart, hbecomes⟩ := runs_cases (op := .instr i) (.inl hexec)
    · rw [hadmitted, hwhen] at hno
      cases hno
    · obtain ⟨b, k, rfl, -⟩ := hstart.eq
      obtain ⟨-, h⟩ | ⟨-, x, h, -, hx⟩ := hbecomes.responses
      · simp [h]
      · simpa [h] using hx

/-! ## The flags -/

/-- The operations that write a flag are four, each its own flag in its own direction (R201 to R204). -/
theorem flagsAfter_changes {op : Operation} {p e p' e' : Bool} (h : (p', e') = flagsAfter op p e)
    (hchanged : p' ≠ p ∨ e' ≠ e) :
    (op = .instr .prepare ∧ p' = true ∧ e' = e) ∨ (op = .instr .enable ∧ e' = true ∧ p' = p) ∨
      (op = .instr .disable ∧ e' = false ∧ p' = p) ∨ (op = .instr .unprepare ∧ p' = false ∧ e' = e) := by
  unfold flagsAfter at h
  split at h <;> obtain ⟨rfl, rfl⟩ := Prod.mk.inj h
  case h_5 => simp at hchanged
  all_goals simp

theorem answerOf_eq_ok {op : Operation} (h : op ≠ .instr .getContrast) (s : State) : answerOf op s = .ok := by
  unfold answerOf
  split
  · exact absurd rfl h
  · rfl

/-- Only a completion writes a flag (R206). -/
theorem Becomes.flags {op : Operation} {s t : State} (h : Becomes op s t) :
    (t.prepared = s.prepared ∧ t.enabled = s.enabled) ∨ Completed s t op := by
  cases h with
  | goesOn h | stops h =>
    obtain ⟨_, hc⟩ := h.call
    exact .inl ⟨hc.prepared, hc.enabled⟩
  | completes h => exact .inr h.completed

/-- Settles O30: where a flag has changed the operation is completed (`Becomes.flags`), and it is one of the four. -/
theorem flagsFollowSuccess : Obligations.FlagsFollowSuccess := by
  intro op s t h hchanged
  obtain ⟨i, rfl, -, -, rfl⟩ | ⟨u, hstart, hbecomes⟩ := runs_cases h
  · simp at hchanged
  · obtain ⟨b, k, rfl, -⟩ := hstart.eq
    obtain ⟨hprepared, henabled⟩ | ⟨hpc, hresponses, hflags⟩ := hbecomes.flags
    · simp [hprepared, henabled] at hchanged
    · have hwrites := flagsAfter_changes hflags hchanged
      have hget : op ≠ .instr .getContrast := by
        rintro rfl
        simp at hwrites
      rw [answerOf_eq_ok hget] at hresponses
      exact ⟨hpc, hresponses, hwrites⟩

/-! ## The frame -/

/-- Where an operation goes on or ends, it does so in the state its calls have left: only the position, the responses and
its own flags are written (R31, R206). -/
theorem Becomes.calls {op : Operation} {s t : State} (h : Becomes op s t) :
    ∃ u, CallsFrame op s u ∧
      t = { u with pc := t.pc, responses := t.responses, prepared := t.prepared, enabled := t.enabled } := by
  cases h with
  | goesOn h | stops h => exact ⟨_, h, rfl⟩
  | completes h =>
    refine ⟨_, h, ?_⟩
    rcases op with i | c
    · cases i <;> rfl
    · rfl

/-- `FlagsFollowSuccess`, flag by flag. -/
theorem runs_prepared_eq {op : Operation} {s t : State} (h : Runs op s t) (hp : op ≠ .instr .prepare)
    (hu : op ≠ .instr .unprepare) : t.prepared = s.prepared := by
  by_contra hne
  obtain ⟨-, -, ⟨hop, -⟩ | ⟨-, -, heq⟩ | ⟨-, -, heq⟩ | ⟨hop, -⟩⟩ := flagsFollowSuccess op s t h (.inl hne)
  · exact hp hop
  · exact hne heq
  · exact hne heq
  · exact hu hop

theorem runs_enabled_eq {op : Operation} {s t : State} (h : Runs op s t) (he : op ≠ .instr .enable)
    (hd : op ≠ .instr .disable) : t.enabled = s.enabled := by
  by_contra hne
  obtain ⟨-, -, ⟨-, -, heq⟩ | ⟨hop, -⟩ | ⟨hop, -⟩ | ⟨-, -, heq⟩⟩ := flagsFollowSuccess op s t h (.inr hne)
  · exact hne heq
  · exact he hop
  · exact hd hop
  · exact hne heq

/-- Settles O31: a misuse writes the fault flag and answers; otherwise every field is the one the operation started with
(`Starts.eq`) or one its calls have left (`CallsFrame`). -/
theorem instructionFrame : Obligations.InstructionFrame := by
  intro op s t h
  have hprepared := runs_prepared_eq h
  have henabled := runs_enabled_eq h
  have hdc := runs_lineDC_eq h
  obtain ⟨i, rfl, hpc, hno, rfl⟩ | ⟨u, hstart, hbecomes⟩ := runs_cases h
  · refine ⟨rfl, rfl, rfl, fun _ => rfl, fun hbusy => absurd hpc hbusy, ?_, fun _ => rfl, fun _ _ => ⟨rfl, rfl⟩,
      hprepared, henabled, fun hmisuse => ?_, hdc, fun _ => rfl, fun _ => ⟨rfl, rfl, rfl, rfl⟩⟩
    · intro b hset
      rw [hset] at hno
      cases hno
    · exact absurd (by simp) (hmisuse i s.prepared s.enabled)
  · obtain ⟨b, k, rfl, hkept, hstored⟩ := hstart.eq
    obtain ⟨v, hcalls, ht⟩ := hbecomes.calls
    obtain ⟨_, hc⟩ := hcalls.call
    have hcfg : t.cfg = s.cfg := ht ▸ hc.cfg
    have hrequests : t.requests = s.requests := ht ▸ hc.requests
    have hfault : t.fault = s.fault := ht ▸ hc.fault
    have hsettings : t.settings = { s.settings with contrast := b } := ht ▸ hc.settings
    have hsame (hb : b = s.settings.contrast) : t.settings = s.settings := by rw [hsettings, hb]
    have hpower (hp : op ≠ .instr .prepare) (hu : op ≠ .instr .unprepare) : SamePower s t := by
      have hv := hcalls.power hp hu
      rw [ht]
      exact ⟨hv.railCore, hv.railSecond, hv.lineReset⟩
    have hlines (hu : op = .instr .unprepare) : SameLines s t := by
      have hv := hcalls.lines hu
      rw [ht]
      exact ⟨hv.lineReset, hv.lineDC⟩
    refine ⟨hcfg, hrequests, by rw [hsettings], fun hset => hsame (hkept (.inl hset)),
      fun hbusy => ⟨hsame (hkept (.inr hbusy)), hfault⟩, fun c hset hidle => ?_, fun hp => ?_,
      fun hp hu => ⟨(hpower hp hu).railCore, (hpower hp hu).railSecond⟩, hprepared, henabled, fun _ => hfault, hdc,
      fun hu => (hlines hu).lineDC, ?_⟩
    · rw [hsettings]
      exact hstored c hset hidle
    · by_cases hu : op = .instr .unprepare
      · exact (hlines hu).lineReset
      · exact (hpower hp hu).lineReset
    · rintro rfl
      rw [ht, hcalls.still rfl]
      exact ⟨rfl, rfl, rfl, rfl⟩

/-! ## `get_contrast` -/

/-- Settles O34: the sequence is empty, so the operation is completed at once with the stored value (R209). -/
theorem getContrastAnswers : Obligations.GetContrastAnswers := by
  intro s hpc
  have hsettle : settle (s.begun (.instr .getContrast)) = complete (.instr .getContrast) s :=
    (settle_ok (oks := []) rfl rfl (by simp)).1
  rw [exec_admitted hpc rfl]
  refine (congrArg _ hsettle).trans ?_
  simp [complete, completeInstr, State.answer, ended]

end Sys2Proof.Machine
end

section
/-! The number of downward calls of each host operation (44_lifecycle.md R210). -/

namespace Sys2Proof.Machine

open Sys2Proof.Spec

/-- A SEND makes one call less than it asks the environment: the buffer is no call (40_transport.md R114). -/
theorem send_length_succ (t : Transport) (c : Command) : (send t c).length + 1 = sendDraws t := by
  cases t <;> rfl

theorem sends_length {t : Transport} {n : Nat} (h : n + 1 = sendDraws t) (cs : List Command) :
    (cs.flatMap (send t)).length = cs.length * n := by
  have hsend (c : Command) : (send t c).length = n := Nat.succ.inj ((send_length_succ t c).trans h.symm)
  simp [List.length_flatMap, hsend]

theorem enableCommands_length (cfg : Cfg) : (enableCommands cfg).length = bit cfg.useChargePump + 1 := by
  unfold enableCommands
  cases cfg.useChargePump <;> rfl

theorem disableCommands_length (cfg : Cfg) : (disableCommands cfg).length = 1 + bit cfg.useChargePump := by
  unfold disableCommands
  cases cfg.useChargePump <;> rfl

/-- Settles O39: each sequence as SENDs one after another, with the power sequence or the settle delay. -/
theorem sequenceLengths : Obligations.SequenceLengths := by
  intro cfg x b n hn
  have hdraws : n + 1 = sendDraws cfg.transport := by
    rw [hn]
    cases cfg.transport <;> rfl
  have hsends := sends_length hdraws
  have hprepare : useq cfg x .prepare = powerOn cfg ++ (initCommands cfg.opc x).flatMap (send cfg.transport) := rfl
  have henable : useq cfg x .enable =
      (enableCommands cfg).flatMap (send cfg.transport) ++ [plain (.delay settleTime)] :=
    enable_slots (State.afterAttach (ε := ErrVal) cfg x false)
  have hdisable : useq cfg x .disable = (disableCommands cfg).flatMap (send cfg.transport) ++ [] :=
    disable_slots (State.afterAttach (ε := ErrVal) cfg x false)
  refine ⟨?_, ?_, ?_, rfl, ?_, rfl⟩
  · have hinit : (initCommands cfg.opc x).length = 12 := rfl
    have hpower : (powerOn cfg).length = 1 + 3 * bit cfg.hasReset + 1 := by
      rw [powerOn_length]
      cases cfg.hasReset <;> rfl
    rw [hprepare, List.length_append, hsends, hinit, hpower]
  · rw [henable, List.length_append, hsends, enableCommands_length, List.length_singleton]
  · rw [hdisable, List.append_nil, hsends, disableCommands_length]
  · exact Nat.succ.inj ((send_length_succ cfg.transport _).trans hdraws.symm)

end Sys2Proof.Machine
end

section
/-! How an operation is not begun: the misuse of a lifecycle operation (60_exceptions.md R225, R230) and the refusal while
one is in progress (R237); and the ordinals of the answers (R224). -/

namespace Sys2Proof.Machine

open Sys2Proof.Spec

variable {ε : Type}

/-! ## Misuse -/

/-- Outside the table of R200 an idle block sets the fault flag, answers the misuse, and is done. -/
theorem exec_not_admittedWhen {i : Instr} {s : State} (hpc : s.pc = .idle)
    (hno : admittedWhen i s.prepared s.enabled = false) :
    exec i s = .next (ended { s with fault := true } [] s.now s.answers (.fMisuse i s.prepared s.enabled)) := by
  have hadmitted : admitted (.instr i) s = false := by rw [admitted_instr_eq, hno, Bool.false_and]
  rw [exec_misuse hpc (layer_of_not_admittedWhen hno) hadmitted, misuse_eq_ended]

/-- Settles O29: each of the four operations has one row in the table of R200. -/
theorem misuseOnlyRaisesFault : Obligations.MisuseOnlyRaisesFault := by
  intro s hpc
  refine ⟨fun h => ?prepare, fun h => ?enable, fun h => ?disable, fun h => ?unprepare⟩
  all_goals
    apply exec_not_admittedWhen hpc
    simpa [admittedWhen] using h

/-! ## One operation at a time -/

/-- A block with an operation in progress admits no other. -/
theorem accept_not_idle (op : Operation) {s : State ε} (hpc : s.pc ≠ .idle) : accept op s = .refused .busy := by
  cases h : s.pc with
  | idle => exact absurd h hpc
  | busy op' k => simp [accept, h]

/-- Settles O36: the admission is refused, so nothing is executed. -/
theorem oneOperationAtATime : Obligations.OneOperationAtATime := by
  intro i s hpc
  rw [exec_eq, execute, accept_not_idle _ hpc]

/-! ## Ordinals -/

/-- Settles O45: each clause is one case of `responseCode` or `attachCode`. -/
theorem causeCodes : Obligations.CauseCodes := by
  intro ε e v what n op p q
  exact ⟨rfl, rfl, rfl, rfl, rfl, rfl, rfl, rfl⟩

end Sys2Proof.Machine
end

section
/-! Attach and what it fixes (70_reset_and_hazards.md R250 to R253): the state that every attach leaves, the invariants in
it, and the configuration, which no step changes after it. -/

namespace Sys2Proof.Machine

variable {ε : Type}

/-! ## The state after attach -/

/-- An attach that succeeds has found one transport, and leaves the state of R251 with the board's configuration. -/
theorem attach_ok_cases {b : Board} {opc : Opcodes} {x : Settings} {contrast : Numeric} {level : Bool} {s : State ε}
    (h : attach b opc x contrast level = .ok s) :
    ∃ t, transportOf b = some t ∧
      s = State.afterAttach (cfgOf b t opc) { x with contrast := trunc8 contrast } level := by
  unfold attach at h
  split at h
  · cases h
  next t ht =>
    split at h
    · cases h
    · cases h
      exact ⟨t, ht, rfl⟩

/-- Settles O60: every field is read off the state of `attach_ok_cases`; the transport is the one that is bound
(`transportOf_eq_some_iff`). -/
theorem attachLeaves : Obligations.AttachLeaves := by
  intro b opc x contrast level s h
  obtain ⟨t, ht, rfl⟩ := attach_ok_cases h
  obtain ⟨hspi3, hspi4, hi2c⟩ := (transportOf_eq_some_iff b t).mp ht
  have hcontrast : trunc8 contrast = BitVec.ofNat 8 contrast.toNat := (BitVec.ofNat_toNat 8 contrast).symm
  exact ⟨congrArg (fun c => { x with contrast := c }) hcontrast, rfl, rfl, rfl, rfl, rfl, rfl, rfl, rfl, rfl, rfl, rfl,
    rfl, rfl, hspi3, hspi4, hi2c, rfl, rfl, rfl⟩

/-! ## The invariants after attach -/

/-- The block is idle, so its flags are down and the data/command line rests at 1. -/
theorem afterAttach_inv (cfg : Cfg) (x : Settings) (level : Bool) : Inv (State.afterAttach cfg x level : State ε) :=
  (inv_idle_iff rfl).mpr ⟨nofun, rfl, nofun⟩

/-- Settles O53: the block is idle (`afterAttach_inv`) and its trace is empty. -/
theorem invariantAfterAttach : Obligations.InvariantAfterAttach := by
  rintro cfg x level _ rfl
  refine ⟨afterAttach_inv cfg x level, ?timed, ?fits, ?brackets⟩
  case timed => exact Nat.le_refl 0
  case fits => exact List.forall_mem_nil _
  case brackets => exact fun _ => congrArg some (bracketPhase_idle rfl).symm

/-! ## The configuration after attach -/

/-- A run of `n + 1` steps that does not stop is a step and a run of `n` steps. -/
theorem after_succ_cases {n : Nat} {s t : State} (h : after (n + 1) s = .next t) :
    ∃ u, step s = .next u ∧ after n u = .next t := by
  cases hu : step s with
  | next u => exact ⟨u, rfl, after_succ n hu ▸ h⟩
  | fault r =>
    have hcore : core.step s = .fault r := hu
    simp [after, Host.Core.run, hcore] at h
  | refused r =>
    have hcore : core.step s = .refused r := hu
    simp [after, Host.Core.run, hcore] at h

/-- The packaged induction over a run: what every step keeps, every run of steps keeps. -/
theorem after_keeps {P : State → Prop} (hstep : ∀ s t, P s → step s = .next t → P t) {n : Nat} {s t : State}
    (hs : P s) (h : after n s = .next t) : P t := by
  induction n generalizing s with
  | zero =>
    cases h
    exact hs
  | succ n ih =>
    obtain ⟨u, hu, hrest⟩ := after_succ_cases h
    exact ih (hstep s u hs hu) hrest

/-- A step writes the configuration neither where it takes a request, nor in a misuse, an admission or a call. -/
theorem step_cfg {s t : State} (h : step s = .next t) : t.cfg = s.cfg := by
  refine step_keeps (P := fun u => u.cfg = s.cfg) ?_ ?_ ?_ ?_ rfl h
  · exact fun u hu => (advance_frame u).1.trans hu
  · exact fun _ hu _ => hu
  · exact fun _ _ hu _ => hu
  · exact fun op u hu _ _ => (entered_frame op u).1.trans hu

theorem after_cfg {n : Nat} {s t : State} (h : after n s = .next t) : t.cfg = s.cfg :=
  after_keeps (P := fun u => u.cfg = s.cfg) (fun _ _ hu hstep => (step_cfg hstep).trans hu) rfl h

/-- Settles O50: no run of steps changes any of the configuration (`after_cfg`), and no operation does
(`instructionFrame`). -/
theorem configurationFixed : Obligations.ConfigurationFixed := by
  refine ⟨fun _ _ _ => rfl, fun n s t h => ?_, fun op s t h => ?_⟩
  · rw [after_cfg h]
    exact ⟨rfl, rfl, rfl, rfl⟩
  · obtain ⟨hcfg, -⟩ := instructionFrame op s t h
    exact hcfg

end Sys2Proof.Machine
end
